-- ==== Sys2Proof/Word.lean ====
section
/-!
DEFINITION. The two word types of the hardware (00_scope.md R7): a byte is 8 bits, a word 32 bits, all unsigned.
-/

namespace Sys2Proof

/-- 8 bits (R7). -/
abbrev Byte := BitVec 8

/-- 32 bits (R7). -/
abbrev Word := BitVec 32

end Sys2Proof
end

