-- ==== Sys2Proof/Config.lean ====
section
/-!
DEFINITION. The implementation parameters of 00_scope.md R6, and the one free value. `BASE` is left out: no rule uses it,
every address is an offset. The RNG's answers are no parameter here: they are inputs (R167), listed in `State.env`.
-/

namespace Sys2Proof

/-- The two parameters that rules of behaviour depend on (R6). DESIGN CHOICE (notes/assumptions/1.md): an instance
carries them in its state, so that one step function serves every instance and no proof can lean on one value. -/
structure Config where
  /-- `KEY_MAX`, the size in bytes of the KEY buffer. -/
  keyMax : Nat
  /-- `HEX_UPPER_OK`: the decoder also accepts `A` to `F` (44_hex.md R178). -/
  hexUpperOk : Bool
deriving DecidableEq, Repr

/-- The reference values of R6. -/
def Config.reference : Config := { keyMax := 128, hexUpperOk := false }

/-- FREE VALUE (notes/assumptions/7.md): the answer the port takes from a serial delivery of more than 16 bytes without an
error indication, on which 43_rng.md R165 is silent: 16 bytes, or none for `fail`. -/
opaque Config.overlongAnswer : List Byte → Option (Vector Byte 16)

/-- The nominal cycle costs `T_*` (R6, 70_reset_and_hazards.md R267); no rule of behaviour depends on them. -/
structure Costs where
  tIssue : Nat
  tRng : Nat
  tHexdec : Nat
  tHexenc : Nat
  tKeychk : Nat
  tKeypad : Nat
  tBlock : Nat
  tCmp : Nat
  tWipeout : Nat
  tWipeall : Nat
  tFinish : Nat
deriving DecidableEq, Repr

/-- The informative values of R267, for a source whose latency is `latency` cycles. -/
def Costs.nominal (latency : Nat) : Costs :=
  { tIssue := 1, tRng := 1 + latency, tHexdec := 96, tHexenc := 48, tKeychk := 1, tKeypad := 1, tBlock := 66,
    tCmp := 1, tWipeout := 1, tWipeall := 1, tFinish := 1 }

end Sys2Proof
end

