-- ==== Sys2Proof/Syntax.lean ====
section
/-!
DEFINITION. The instructions: the ten commands of 30_encoding.md R91, one constructor per row of the opcode table.
No command has an operand field (R90, R92): every operand is a fixed buffer.
-/

namespace Sys2Proof

/-- The command set (R91). -/
inductive Instr where
  | nop
  | gen
  | vfy
  | mac
  | hash
  | draw
  | hexe
  | hexd
  | cmp
  | wipe
deriving DecidableEq, Repr

end Sys2Proof
end

