-- ==== Sys2Proof/WellFormed.lean ====
section
/-!
DEFINITION. What makes a command word's fields (30_encoding.md R90, R93) and the instance parameters (00_scope.md R6)
well-formed.
-/

namespace Sys2Proof

/-- The one command format `CMD32` (R90): `rsv` is bits 31:8, `op` is bits 7:0. -/
structure Cmd32 where
  rsv : BitVec 24
  op : BitVec 8
deriving DecidableEq, Repr

/-- The reserved field is zero (R90, R93). -/
def Cmd32.rsvOk (f : Cmd32) : Bool := f.rsv == 0

/-- The opcode is one of `0x00` to `0x09` (R91, R93). -/
def Cmd32.opOk (f : Cmd32) : Bool := f.op.toNat < 10

/-- The fields spell one of the ten commands (R91). -/
def Cmd32.wf (f : Cmd32) : Bool := f.rsvOk && f.opOk

/-- A command has no operand to check (R90, R92): every `Instr` is well-formed. -/
def Instr.wf (_ : Instr) : Bool := true

/-- `KEY_MAX` is a multiple of 4 (R6). -/
def Config.keyMaxAligned (c : Config) : Bool := c.keyMax % 4 == 0

/-- `64 <= KEY_MAX <= 3840` (R6). -/
def Config.keyMaxInRange (c : Config) : Bool := 64 ≤ c.keyMax && c.keyMax ≤ 3840

/-- The constraints of R6 on the parameters. -/
def Config.wf (c : Config) : Bool := c.keyMaxAligned && c.keyMaxInRange

/-- The costs are positive constants (R6). -/
def Costs.wf (k : Costs) : Bool :=
  0 < k.tIssue && 0 < k.tRng && 0 < k.tHexdec && 0 < k.tHexenc && 0 < k.tKeychk && 0 < k.tKeypad && 0 < k.tBlock
    && 0 < k.tCmp && 0 < k.tWipeout && 0 < k.tWipeall && 0 < k.tFinish

end Sys2Proof
end

