-- ==== Sys2Proof/Decode.lean ====
section
/-!
DEFINITION. The decoder and the encoder of command words (30_encoding.md R90, R91, R93, R94).
-/

namespace Sys2Proof

/-- Why a word is an illegal command (R93). -/
inductive DecodeError where
  /-- `w[31:8] != 0`. -/
  | reservedBits
  /-- `w[31:8] = 0` and `w[7:0] >= 0x0A`. -/
  | unassignedOpcode
deriving DecidableEq, Repr

/-- The fields of a word (R90). -/
def Cmd32.ofWord (w : Word) : Cmd32 := { rsv := w.extractLsb' 8 24, op := w.extractLsb' 0 8 }

/-- The word of the fields (R90). -/
def Cmd32.toWord (f : Cmd32) : Word := f.rsv ++ f.op

/-- The opcode map of R94, on the `op` field alone. -/
def decodeOp (op : BitVec 8) : Except DecodeError Instr :=
  match op.toNat with
  | 0x00 => .ok .nop
  | 0x01 => .ok .gen
  | 0x02 => .ok .vfy
  | 0x03 => .ok .mac
  | 0x04 => .ok .hash
  | 0x05 => .ok .draw
  | 0x06 => .ok .hexe
  | 0x07 => .ok .hexd
  | 0x08 => .ok .cmp
  | 0x09 => .ok .wipe
  | _ => .error .unassignedOpcode

/-- `decode(w)` of R94: total, and a function of the word alone. -/
def decode (w : Word) : Except DecodeError Instr :=
  let f := Cmd32.ofWord w
  if f.rsv = 0 then decodeOp f.op else .error .reservedBits

/-- The `op` column of R91. -/
def opcode : Instr → BitVec 8
  | .nop => 0x00
  | .gen => 0x01
  | .vfy => 0x02
  | .mac => 0x03
  | .hash => 0x04
  | .draw => 0x05
  | .hexe => 0x06
  | .hexd => 0x07
  | .cmp => 0x08
  | .wipe => 0x09

/-- The fields a command is encoded with (R90, R91). -/
def encodeFields (i : Instr) : Cmd32 := { rsv := 0, op := opcode i }

/-- The word of a command (R91). -/
def encode (i : Instr) : Word := (encodeFields i).toWord

/-- The instruction the decoder reads from a word whose bits are `w`, numbered as the opcode table numbers them; the
table gives every row 32 bits, one word, and a word has no bit above them. -/
def decodeTableWord (nbits w : Nat) : Option Instr :=
  if nbits ≤ 32 ∧ w < 2 ^ nbits then (decode (BitVec.ofNat 32 w)).toOption else none

end Sys2Proof
end

