-- ==== Sys2Proof/Machine/State.lean ====
section
/-!
DEFINITION. The architectural state of OTPE (10_state.md R20), its reset value (R43), and the reasons a step can stop.
-/

namespace Sys2Proof.Machine

/-! ## Why a step can stop -/

/-- The five cases of a bus error (60_exceptions.md R225), in the order of its letters. -/
inductive BusError where
  /-- (a) size not 4 or offset not a multiple of 4 (20_memory.md R63). -/
  | width
  /-- (b) a reserved offset (20_memory.md R64). -/
  | reserved
  /-- (c) a write to ID or PARAM (20_memory.md R68). -/
  | readOnly
  /-- (d) an access the busy gate closes (20_memory.md R69). -/
  | busy
  /-- (e) a CMD write while FATAL (20_memory.md R70). -/
  | fatal
deriving DecidableEq, Repr

/-- The faults of a step. -/
inductive Fault where
  /-- A host transaction got the response `ERROR`. Raised by `step` for a `read` or `write` of `State.env`; R61: "for
  the model `ERROR` is a fault outcome of the host's step, never a value". Safe: the transaction changes nothing, so
  the hardware goes on as from the same state without it (notes/assumptions/4.md). -/
  | busError (why : BusError)
deriving DecidableEq, Repr

/-- The refusals of a step. -/
inductive Refusal where
  /-- An instruction without a meaning yet. Raised by nothing: every arm of `exec` has its meaning. Safe. -/
  | notModelled (mnemonic : String)
deriving DecidableEq, Repr

/-! ## The random source's port -/

/-- An answer of the RNG (43_rng.md R165). -/
inductive RngAnswer where
  | ok (r : Vector Byte 16)
  | fail
deriving DecidableEq, Repr

/-- RNGQ, the state of the RNG port (10_state.md R39). -/
inductive RngQ where
  | none
  | pending
  | ans (a : RngAnswer)
deriving DecidableEq, Repr

/-- What the platform delivers on the RNG port (43_rng.md R165, R170); `err` is the source's error indication. -/
inductive RngDelivery where
  /-- Bytes one after another, the first delivered first. -/
  | serial (bytes : List Byte) (err : Bool)
  /-- A 128-bit value `rng_data[127:0]`. -/
  | parallel (data : BitVec 128) (err : Bool)
deriving DecidableEq, Repr

/-! ## The moves of the outside world -/

/-- One move (00_scope.md R10). HOST: `read`, `write` (20_memory.md R61). RNG: `rng`, `rngLate`. RESET: `reset`. ENGINE
is named too, so that a list of moves says where the engine's step stands among the others. -/
inductive Event where
  /-- `MemRead(addr, n)`. -/
  | read (addr : BitVec 12) (n : Nat)
  /-- `MemWrite(addr, n, v)`. -/
  | write (addr : BitVec 12) (n : Nat) (v : Word)
  /-- The RNG answers the pending request; ignored where none is pending. -/
  | rng (d : RngDelivery)
  /-- The RNG answers a request that a reset has withdrawn (70_reset_and_hazards.md R251). -/
  | rngLate (d : RngDelivery)
  /-- The reset input is asserted and released (70_reset_and_hazards.md R250). -/
  | reset
  /-- The engine's move. -/
  | engine
deriving DecidableEq, Repr

/-- What the port answered to the latest transaction that got `OKAY` (20_memory.md R61). -/
inductive Reply where
  /-- No transaction yet. -/
  | none
  /-- A write, answered `OKAY`. -/
  | okay
  /-- A read, answered `OKAY` with this data. -/
  | data (w : Word)
deriving DecidableEq, Repr

/-! ## Registers -/

/-- The STATUS fields (10_state.md R24). -/
structure Status where
  busy : Bool
  done : Bool
  ok : Bool
  fatal : Bool
  err : BitVec 4
deriving DecidableEq, Repr

/-- Eight 32-bit words: HREG[0..7], or the working words `a` to `h` of WV[0..7] (10_state.md R35). -/
structure Words8 where
  a : Word
  b : Word
  c : Word
  d : Word
  e : Word
  f : Word
  g : Word
  h : Word
deriving DecidableEq, Repr

/-- The internal scratch registers (10_state.md R35, R36, R37). -/
structure Scratch where
  /-- HREG[0..7], the chaining value. -/
  hreg : Words8
  /-- WV[0..7], the working words. -/
  wv : Words8
  /-- WWIN[0..15], the window of the message schedule (40_sha256.md R123). -/
  wwin : Vector Word 16
  /-- T, the round counter, 0 to 64. -/
  t : BitVec 7
  /-- BLKCNT, the block counter ("wide enough": a natural number, notes/assumptions/11.md). -/
  blkcnt : Nat
  /-- K0, the prepared key. -/
  k0 : Vector Byte 64
  /-- IH, the inner hash. -/
  ih : Vector Byte 32
  /-- BLK, the block buffer. -/
  blk : Vector Byte 64
  /-- MLEN, the count of message bytes absorbed in the current hash. -/
  mlen : BitVec 64
  /-- ACC, the comparator's OR-accumulator. -/
  acc : Byte
  /-- VALID, the structural verdict of the hex decoder. -/
  valid : Bool
deriving DecidableEq, Repr

/-- The phases of the sequencer (10_state.md R38). -/
inductive Phase where
  | idle
  | rngwait
  | run
deriving DecidableEq, Repr

/-- SEQ, the sequencer: the latched command word and the phase (10_state.md R38). -/
structure Seq where
  cmd : Word
  ph : Phase
deriving DecidableEq, Repr

/-! ## The buffers' bytes -/

/-- The bytes of the register window that buffers occupy (20_memory.md R60, R62), as (offset, byte) pairs. -/
structure Memory where
  cells : List Host.Cell
deriving DecidableEq, Repr

/-- What an unlisted byte reads as: the reset value of every buffer byte (10_state.md R43). -/
def Memory.blank : Byte := 0x00

/-- The canonical form: offsets strictly rising, no entry equal to what an unlisted byte reads as. -/
abbrev Memory.wf (m : Memory) : Prop :=
  m.cells.Pairwise (fun c d => c.1 < d.1) ∧ ∀ c ∈ m.cells, c.2 ≠ Memory.blank

/-- The names of the byte buffers (10_state.md R29 to R33). -/
inductive Buf where
  | nonce
  | tag
  | dec
  | token
  | key
deriving DecidableEq, Repr

/-! ## The state -/

/-- The complete state (R20), and the model's own three fields at the end (INVENTORY.md). -/
structure State where
  /-- CTRL.IE (R23). -/
  ie : Bool
  /-- STATUS (R24). -/
  status : Status
  /-- KEYLEN (R27). -/
  keylen : BitVec 16
  /-- TOKLEN (R28). -/
  toklen : Word
  /-- NONCE, TAG, DEC, TOKEN and KEY (R29 to R33), at their offsets. -/
  mem : Memory
  /-- The internal scratch (R35 to R37). -/
  scratch : Scratch
  /-- SEQ (R38). -/
  seq : Seq
  /-- RNGQ (R39). -/
  rngq : RngQ
  /-- The model's own: the instance parameters (00_scope.md R6); no step writes them. -/
  cfg : Config
  /-- The model's own: the port's answer to the latest transaction. -/
  reply : Reply
  /-- The model's own: the moves of the outside world still to come, oldest first. -/
  env : List Event
deriving DecidableEq, Repr

/-- STATUS at reset (R43). -/
def Status.reset : Status := { busy := false, done := false, ok := false, fatal := false, err := 0 }

/-- Eight zero words. -/
def Words8.zero : Words8 := { a := 0, b := 0, c := 0, d := 0, e := 0, f := 0, g := 0, h := 0 }

/-- The scratch registers at reset and whenever the engine is idle (R35 to R37, R41, R43). -/
def Scratch.zero : Scratch :=
  { hreg := Words8.zero, wv := Words8.zero, wwin := Vector.replicate 16 0, t := 0, blkcnt := 0,
    k0 := Vector.replicate 64 0, ih := Vector.replicate 32 0, blk := Vector.replicate 64 0, mlen := 0, acc := 0,
    valid := false }

/-- The state after reset (R43), of an instance with the reference parameters of R6, nothing pending outside. -/
def State.reset : State :=
  { ie := false, status := Status.reset, keylen := 0, toklen := 0, mem := { cells := [] }, scratch := Scratch.zero,
    seq := { cmd := 0, ph := .idle }, rngq := .none, cfg := Config.reference, reply := .none, env := [] }

end Sys2Proof.Machine
end

