-- ==== Sys2Proof/Machine/Ops.lean ====
section
/-!
DEFINITION. The named operations: byte order (00_scope.md R8), the buffers' bytes, completion (46_system.md R211), error
entry (60_exceptions.md R228) as one shared operation, and reset, the only way back from a fatal error (R230), beside it.
-/

namespace Sys2Proof.Machine

/-! ## Byte order (00_scope.md R8) -/

/-- `be32` of four bytes: the first is the most significant. -/
def be32 (b0 b1 b2 b3 : Byte) : Word := b0 ++ b1 ++ b2 ++ b3

/-- `bytes32(w)`, the inverse of `be32`. -/
def bytes32 (w : Word) : List Byte :=
  [w.extractLsb' 24 8, w.extractLsb' 16 8, w.extractLsb' 8 8, w.extractLsb' 0 8]

/-- `be64(n)`: 8 bytes, the most significant first. -/
def be64 (n : BitVec 64) : List Byte := bytes32 (n.extractLsb' 32 32) ++ bytes32 (n.extractLsb' 0 32)

/-- `n` zero bytes, `0^n` (R7). -/
def zeros (n : Nat) : List Byte := List.replicate n 0

/-- The first `n` bytes of a list as a register of `n` bytes; zero where the list is shorter. -/
def toRegister (n : Nat) (l : List Byte) : Vector Byte n := ⟨⟨(List.range n).map fun i => l.getD i 0⟩, by simp⟩

/-- Byte-wise exclusive or of two byte arrays (R7). -/
def xorBytes (a b : List Byte) : List Byte := List.zipWith (· ^^^ ·) a b

/-! ## The buffers' bytes -/

/-- The byte at offset `a` of a list of cells. -/
def cellsRead (a : Nat) : List Host.Cell → Byte
  | [] => Memory.blank
  | c :: cs => if c.1 = a then c.2 else cellsRead a cs

/-- A cell put at its place among cells in rising order. -/
def cellsInsert (c : Host.Cell) : List Host.Cell → List Host.Cell
  | [] => [c]
  | d :: ds => if d.1 < c.1 then d :: cellsInsert c ds else c :: d :: ds

/-- The cells with `v` stored at offset `a`; the canonical form lists no blank byte. -/
def cellsWrite (a : Nat) (v : Byte) (cells : List Host.Cell) : List Host.Cell :=
  let others := cells.filter fun c => c.1 != a
  if v = Memory.blank then others else cellsInsert (a, v) others

/-- The byte at offset `a`. -/
def Memory.read (m : Memory) (a : Nat) : Byte := cellsRead a m.cells

/-- Store one byte at offset `a`. -/
def Memory.write (m : Memory) (a : Nat) (v : Byte) : Memory := { cells := cellsWrite a v m.cells }

/-- `n` bytes from offset `a` on. -/
def Memory.readBytes (m : Memory) (a n : Nat) : List Byte := (List.range n).map fun i => m.read (a + i)

/-- Store bytes from offset `a` on. (Irreducible for the elaborator: comparing two states must not run the stores.) -/
@[irreducible] def Memory.writeBytes (m : Memory) (a : Nat) : List Byte → Memory
  | [] => m
  | b :: bs => (m.write a b).writeBytes (a + 1) bs

/-- The offset of a buffer's first byte (20_memory.md R62). -/
def Buf.base : Buf → Nat
  | .nonce => 0x020
  | .tag => 0x040
  | .dec => 0x060
  | .token => 0x0A0
  | .key => 0x100

/-- The size of a buffer in bytes (20_memory.md R62). -/
def Buf.size (c : Config) : Buf → Nat
  | .nonce => 16
  | .tag => 32
  | .dec => 48
  | .token => 96
  | .key => c.keyMax

/-- A whole buffer. -/
def State.buf (s : State) (b : Buf) : List Byte := s.mem.readBytes b.base (b.size s.cfg)

/-- `BUFFER <- bytes`; the callers give as many bytes as the buffer has (R8). -/
def State.setBuf (s : State) (b : Buf) (bytes : List Byte) : State :=
  { s with mem := s.mem.writeBytes b.base bytes }

/-- `wipe(BUFFER)` (R8). -/
def State.wipe (s : State) (b : Buf) : State := s.setBuf b (zeros (b.size s.cfg))

/-- `TOKLEN <- v`. -/
def State.setToklen (s : State) (v : Word) : State := { s with toklen := v }

/-- `KEYLEN <- v`. -/
def State.setKeylen (s : State) (v : BitVec 16) : State := { s with keylen := v }

/-- The scratch registers replaced. -/
def State.setScratch (s : State) (sc : Scratch) : State := { s with scratch := sc }

/-! ## Error codes (60_exceptions.md R220) -/

/-- No error. -/
def errNone : BitVec 4 := 0

/-- ERR_CMD: the word is not one of the ten commands. -/
def errCmd : BitVec 4 := 1

/-- ERR_KEY: KEYLEN out of range. -/
def errKey : BitVec 4 := 2

/-- ERR_RNG: the RNG answered `fail`. -/
def errRng : BitVec 4 := 3

/-- The codes that set FATAL (R228: "if the code is 2 or 3"). -/
def isFatal (e : BitVec 4) : Bool := e == errKey || e == errRng

/-! ## Completion and error entry -/

/-- STATUS at a completion: BUSY clear, DONE set, OK and ERR as given; an ERR of 2 or 3 sets FATAL and nothing clears
it here (10_state.md R42, 60_exceptions.md R228, R229). -/
def Status.completed (st : Status) (ok : Bool) (err : BitVec 4) : Status :=
  { busy := false, done := true, ok := ok, fatal := st.fatal || isFatal err, err := err }

/-- The end of every command: scratch wiped (46_system.md R216), STATUS written, the sequencer idle, RNGQ none (R211). -/
def State.finish (s : State) (ok : Bool) (err : BitVec 4) : State :=
  { s with
    status := s.status.completed ok err
    scratch := Scratch.zero
    seq := { s.seq with ph := .idle }
    rngq := .none }

/-- `complete with OK = v`: a completion without error. -/
def State.complete (s : State) (ok : Bool) : State := s.finish ok errNone

/-- `raise ERR_x`: error entry (60_exceptions.md R228), after the output wipes its caller has done. Nothing is saved
and control goes nowhere: OK 0, ERR the code, FATAL set for codes 2 and 3. -/
def State.raiseErr (s : State) (code : BitVec 4) : State := s.finish false code

/-- Reset, hard or soft (70_reset_and_hazards.md R250, R251): every piece of the spec's state at its reset value. It is
the only return from the fatal state (60_exceptions.md R230). The instance's parameters are no state and stay; the
port's latest answer and the moves of the outside world still to come are HOST's, RNG's and RESET's, not the engine's. -/
def State.resetAll (s : State) : State := { State.reset with cfg := s.cfg, reply := s.reply, env := s.env }

end Sys2Proof.Machine
end

