-- ==== Sys2Proof/Machine/Flags.lean ====
section
/-!
DEFINITION. The words the scalar registers read as, STATUS and its fields among them (10_state.md R21 to R24, R27), the
two outputs (R40), and what issue does to STATUS, SEQ and RNGQ (46_system.md R210).
-/

namespace Sys2Proof.Machine

/-! ## The words the registers read as -/

/-- ID (10_state.md R21). -/
def idWord : Word := 0x4F545001

/-- PARAM: KEY_MAX in bits 15:0, HEX_UPPER_OK in bit 16 (R22). -/
def paramWord (c : Config) : Word := 0#15 ++ BitVec.ofBool c.hexUpperOk ++ BitVec.ofNat 16 c.keyMax

/-- CTRL: IE in bit 0, SRST reads 0 (R23). -/
def ctrlWord (s : State) : Word := 0#31 ++ BitVec.ofBool s.ie

/-- STATUS: ERR in 11:8, FATAL 3, OK 2, DONE 1, BUSY 0, the rest 0 (R24). -/
def Status.word (st : Status) : Word :=
  0#20 ++ st.err ++ 0#4 ++ BitVec.ofBool st.fatal ++ BitVec.ofBool st.ok ++ BitVec.ofBool st.done
    ++ BitVec.ofBool st.busy

/-- KEYLEN: the stored 16 bits, zero-extended (R27). -/
def keylenWord (s : State) : Word := 0#16 ++ s.keylen

/-! ## Outputs (10_state.md R40) -/

/-- `irq = CTRL.IE and STATUS.DONE`. -/
def State.irq (s : State) : Bool := s.ie && s.status.done

/-- `rng_req = (RNGQ = pending)`. -/
def State.rngReq (s : State) : Bool := s.rngq == .pending

/-! ## Issue -/

/-- Does the word make an RNG request at issue (46_system.md R210: "if `decode(w)` is GEN or DRAW")? -/
def drawsRng (w : Word) : Bool :=
  match decode w with
  | .ok .gen => true
  | .ok .draw => true
  | _ => false

/-- STATUS at the issue of any word: BUSY set; DONE, OK, ERR clear; FATAL as it was (10_state.md R42). -/
def Status.issued (st : Status) : Status := { busy := true, done := false, ok := false, fatal := st.fatal, err := errNone }

/-- Issue of the word `w` (46_system.md R210). -/
def State.issue (s : State) (w : Word) : State :=
  { s with
    status := s.status.issued
    seq := { cmd := w, ph := if drawsRng w then .rngwait else .run }
    rngq := if drawsRng w then .pending else s.rngq }

end Sys2Proof.Machine
end

