-- ==== Sys2Proof/Machine/Operands.lean ====
section
/-!
DEFINITION. The operands of the commands: fixed buffers, none named in a command word (30_encoding.md R92), and the
tests on KEYLEN that commands make on them (41_hmac.md R146, 40_sha256.md R122).
-/

namespace Sys2Proof.Machine

/-- `KEY[0 ..< KEYLEN]` (10_state.md R33); callers have checked `KEYLEN <= KEY_MAX`. -/
def State.keyBytes (s : State) : List Byte := s.mem.readBytes Buf.key.base s.keylen.toNat

/-- NONCE, the document's `R` (R29). -/
def State.nonce (s : State) : List Byte := s.buf .nonce

/-- TAG (R30). -/
def State.tag (s : State) : List Byte := s.buf .tag

/-- DEC, the decoded candidate token (R31). -/
def State.dec (s : State) : List Byte := s.buf .dec

/-- TOKEN, one character per byte (R32). -/
def State.token (s : State) : List Byte := s.buf .token

/-- `BTOK = NONCE ‖ TAG`, a name and no storage (R34). -/
def State.btok (s : State) : List Byte := s.nonce ++ s.tag

/-- `KEYLEN > KEY_MAX`: the check of HASH (40_sha256.md R122). -/
def State.keyTooLong (s : State) : Bool := s.cfg.keyMax < s.keylen.toNat

/-- `1 <= KEYLEN <= KEY_MAX`: the check of GEN, VFY and MAC (41_hmac.md R146). -/
def State.keyOk (s : State) : Bool := 1 ≤ s.keylen.toNat && s.keylen.toNat ≤ s.cfg.keyMax

end Sys2Proof.Machine
end

