-- ==== Sys2Proof/Machine/Micro.lean ====
section
/-!
DEFINITION. Micro-operations (70_reset_and_hazards.md R265): the labels, and the run of a command as the state it has
reached with the labels it has performed so far. Each command's meaning is written over runs, so that the trace a
theorem speaks of is the trace of the very operations that compute the result.
-/

namespace Sys2Proof.Machine

/-- The micro-operation labels (R265, R267). -/
inductive Label where
  | issue
  | rngreq
  | hexdec96
  | hexenc48
  | keychk
  | keypad
  | block
  | cmp48
  | wipeout
  | wipeall
  | finish
deriving DecidableEq, Repr

/-- A command under way: the state reached and the labels performed, in order. -/
structure Run where
  st : State
  trace : List Label
deriving DecidableEq, Repr

/-- The command has been issued (46_system.md R210). -/
def Run.start (s : State) : Run := { st := s, trace := [.issue] }

/-- Perform one labelled micro-operation. -/
def Run.op (r : Run) (l : Label) (f : State → State) : Run := { st := f r.st, trace := r.trace ++ [l] }

/-- Perform one labelled micro-operation `n` times. -/
def Run.repeatOp (r : Run) (l : Label) (f : State → State) : Nat → Run
  | 0 => r
  | n + 1 => (r.repeatOp l f n).op l f

/-- Move data between registers inside a micro-operation's time: R265 gives it no label of its own (DEDUCED,
notes/assumptions/13.md). -/
def Run.move (r : Run) (f : State → State) : Run := { r with st := f r.st }

/-- `complete with OK = v`, the label FINISH. -/
def Run.complete (r : Run) (ok : Bool) : Run := r.op .finish fun s => s.complete ok

/-- `raise ERR_x`, the label FINISH. -/
def Run.raiseErr (r : Run) (code : BitVec 4) : Run := r.op .finish fun s => s.raiseErr code

/-- The cost of a label (R267). -/
def Label.cost (k : Costs) : Label → Nat
  | .issue => k.tIssue
  | .rngreq => k.tRng
  | .hexdec96 => k.tHexdec
  | .hexenc48 => k.tHexenc
  | .keychk => k.tKeychk
  | .keypad => k.tKeypad
  | .block => k.tBlock
  | .cmp48 => k.tCmp
  | .wipeout => k.tWipeout
  | .wipeall => k.tWipeall
  | .finish => k.tFinish

/-- The duration of a trace: each label has one fixed cost (R265). -/
def duration (k : Costs) (tr : List Label) : Nat := (tr.map (Label.cost k)).sum

end Sys2Proof.Machine
end

