-- ==== Sys2Proof/Machine/System.lean ====
section
/-!
DEFINITION. The housekeeping commands NOP (46_system.md R212) and WIPE (R213), and what an illegal word does (R214).
-/

namespace Sys2Proof.Machine

/-- NOP: nothing but STATUS (R212). -/
def runNop (s : State) : Run := (Run.start s).complete true

/-- The meaning of NOP (R212). -/
def execNop (s : State) : Host.Outcome State Fault Refusal := .next (runNop s).st

/-- The label WIPEALL: every buffer, all `KEY_MAX` bytes of KEY among them, and both length registers (R213). -/
def State.wipeAll (s : State) : State :=
  (((((((s.wipe .nonce).wipe .tag).wipe .dec).wipe .token).wipe .key).setKeylen 0).setToklen 0)

/-- WIPE (R213). -/
def runWipe (s : State) : Run := ((Run.start s).op .wipeall State.wipeAll).complete true

/-- The meaning of WIPE (R213). -/
def execWipe (s : State) : Host.Outcome State Fault Refusal := .next (runWipe s).st

/-- An illegal word completes with ERR_CMD and touches nothing else (R214). -/
def runIllegal (s : State) : Run := (Run.start s).raiseErr errCmd

end Sys2Proof.Machine
end

