-- ==== Sys2Proof/Machine/Compare.lean ====
section
/-!
DEFINITION. The constant-time comparator (42_compare.md) and the command CMP (R160).
-/

namespace Sys2Proof.Machine

/-- The OR over all lanes of the exclusive or of each lane: the value of ACC (R155). -/
def lanesOr (a b : List Byte) : Byte := (xorBytes a b).foldl (· ||| ·) 0

/-- `cteq48(A, B)` (R155). -/
def cteq48 (a b : List Byte) : Bool := lanesOr a b == 0

/-- The label CMP48: all 48 lanes of `DEC` against `NONCE ‖ TAG` into ACC (R155, R156). -/
def State.cmp48 (s : State) : State := s.setScratch { s.scratch with acc := lanesOr s.dec s.btok }

/-- The comparator's result: `ACC = 0x00` (R155). -/
def State.accZero (s : State) : Bool := s.scratch.acc == 0

/-- CMP: the gate alone (R160). -/
def runCmp (s : State) : Run :=
  let r := (Run.start s).op .cmp48 State.cmp48
  r.complete r.st.accZero

/-- The meaning of CMP (R160). -/
def execCmp (s : State) : Host.Outcome State Fault Refusal := .next (runCmp s).st

end Sys2Proof.Machine
end

