-- ==== Sys2Proof/Machine/Hex.lean ====
section
/-!
DEFINITION. The hex encoder and decoder (44_hex.md) and the commands HEXE (R183) and HEXD (R184).
-/

namespace Sys2Proof.Machine

/-! ## Encoder (R175 to R177) -/

/-- The high nibble `b[7:4]` (R175). -/
def hiNibble (b : Byte) : BitVec 4 := b.extractLsb' 4 4

/-- The low nibble `b[3:0]` (R175). -/
def loNibble (b : Byte) : BitVec 4 := b.extractLsb' 0 4

/-- The nibble-to-ASCII table `ENC` (R176). -/
def hexChar (n : BitVec 4) : Byte :=
  if n.toNat ≤ 9 then 0x30 + n.setWidth 8 else 0x61 + (n.setWidth 8 - 10)

/-- The two characters of a byte, the high nibble's first (R177). -/
def hexPair (b : Byte) : List Byte := [hexChar (hiNibble b), hexChar (loNibble b)]

/-- `hexenc48(X)` (R177): every lane is encoded. -/
def hexEncode (x : List Byte) : List Byte := x.flatMap hexPair

/-! ## Decoder (R178, R179) -/

/-- The ASCII-to-nibble table `DECTAB`, total on bytes: the nibble and the validity bit (R178). -/
def hexValue (upperOk : Bool) (c : Byte) : BitVec 4 × Bool :=
  if 0x30 ≤ c.toNat ∧ c.toNat ≤ 0x39 then (BitVec.ofNat 4 (c.toNat - 0x30), true)
  else if 0x61 ≤ c.toNat ∧ c.toNat ≤ 0x66 then (BitVec.ofNat 4 (c.toNat - 0x61 + 10), true)
  else if upperOk ∧ 0x41 ≤ c.toNat ∧ c.toNat ≤ 0x46 then (BitVec.ofNat 4 (c.toNat - 0x41 + 10), true)
  else (0, false)

/-- The byte of two characters: `(h << 4) or l` (R179). -/
def hexByte (upperOk : Bool) (hi lo : Byte) : Byte := (hexValue upperOk hi).1 ++ (hexValue upperOk lo).1

/-- The 48 decoded bytes of 96 characters: byte `i` from characters `2i` and `2i+1` (R179, R181). -/
def hexDecode (upperOk : Bool) (y : List Byte) : List Byte :=
  (List.range 48).map fun i => hexByte upperOk (y.getD (2 * i) 0) (y.getD (2 * i + 1) 0)

/-- Are all characters hex digits: the AND of the validity bits (R179). -/
def allHex (upperOk : Bool) (y : List Byte) : Bool := y.all fun c => (hexValue upperOk c).2

/-- `hexdec96(Y, n)` (R179): the decoded bytes, and VALID. No early exit: the bytes do not depend on VALID (R180). -/
def hexdec96 (upperOk : Bool) (y : List Byte) (n : Word) : List Byte × Bool :=
  (hexDecode upperOk y, n == 96 && allHex upperOk y)

/-! ## On the registers -/

/-- The decoder's outputs for TOKEN and TOKLEN (R179). -/
def State.decoded (s : State) : List Byte × Bool := hexdec96 s.cfg.hexUpperOk s.token s.toklen

/-- The label HEXDEC96: the verdict into VALID (R180, 10_state.md R37). -/
def State.hexdec (s : State) : State := s.setScratch { s.scratch with valid := s.decoded.2 }

/-- The label HEXENC48: `TOKEN <- hexenc48(NONCE ‖ TAG)`, `TOKLEN <- 96` (R177, R183). -/
def State.hexenc (s : State) : State := (s.setBuf .token (hexEncode s.btok)).setToklen 96

/-! ## HEXE (R183) -/

/-- HEXE: encode the binary token. -/
def runHexe (s : State) : Run := ((Run.start s).op .hexenc48 State.hexenc).complete true

/-- The meaning of HEXE (R183). -/
def execHexe (s : State) : Host.Outcome State Fault Refusal := .next (runHexe s).st

/-! ## HEXD (R184) -/

/-- HEXD: decode the external token into DEC; OK is the structural verdict. -/
def runHexd (s : State) : Run :=
  let r := ((Run.start s).op .hexdec96 State.hexdec).move fun t => t.setBuf .dec s.decoded.1
  r.complete r.st.scratch.valid

/-- The meaning of HEXD (R184). -/
def execHexd (s : State) : Host.Outcome State Fault Refusal := .next (runHexd s).st

end Sys2Proof.Machine
end

