-- ==== Sys2Proof/Machine/Sha256.lean ====
section
/-!
DEFINITION. The SHA-256 core, the padder and the iterative processor (40_sha256.md), twice: as functions of a message
(R110 to R121), and as the datapath that walks the scratch registers of 10_state.md R35 and R36 block by block and round
by round (R117, R119, R123). The commands run the datapath. The command HASH (R122).
-/

namespace Sys2Proof.Machine

/-! ## Word arithmetic (R110, R111) -/

/-- `rotr(x, n)` for `0 < n < 32`. -/
def rotr (x : Word) (n : Nat) : Word := (x >>> n) ||| (x <<< (32 - n))

/-- `shr(x, n)`: zeros enter at the top. -/
def shr (x : Word) (n : Nat) : Word := x >>> n

/-- `Ch` (R111). -/
def ch (x y z : Word) : Word := (x &&& y) ^^^ (~~~x &&& z)

/-- `Maj` (R111). -/
def maj (x y z : Word) : Word := (x &&& y) ^^^ (x &&& z) ^^^ (y &&& z)

/-- The exclusive or of three rotations, the form of `BSIG0` and `BSIG1` (R111). -/
def rotr3 (i j k : Nat) (x : Word) : Word := rotr x i ^^^ rotr x j ^^^ rotr x k

/-- The exclusive or of two rotations and a shift, the form of `SSIG0` and `SSIG1` (R111). -/
def rotr2shr (i j k : Nat) (x : Word) : Word := rotr x i ^^^ rotr x j ^^^ shr x k

/-- `BSIG0` (R111). -/
def bsig0 : Word → Word := rotr3 2 13 22

/-- `BSIG1` (R111). -/
def bsig1 : Word → Word := rotr3 6 11 25

/-- `SSIG0` (R111). -/
def ssig0 : Word → Word := rotr2shr 7 18 3

/-- `SSIG1` (R111). -/
def ssig1 : Word → Word := rotr2shr 17 19 10

/-! ## Constants (R112, R113) -/

/-- The rows of R112, `K[4i ..< 4i+4]` in row `i`. -/
def kRows : List (List Word) :=
  [[0x428a2f98, 0x71374491, 0xb5c0fbcf, 0xe9b5dba5],
   [0x3956c25b, 0x59f111f1, 0x923f82a4, 0xab1c5ed5],
   [0xd807aa98, 0x12835b01, 0x243185be, 0x550c7dc3],
   [0x72be5d74, 0x80deb1fe, 0x9bdc06a7, 0xc19bf174],
   [0xe49b69c1, 0xefbe4786, 0x0fc19dc6, 0x240ca1cc],
   [0x2de92c6f, 0x4a7484aa, 0x5cb0a9dc, 0x76f988da],
   [0x983e5152, 0xa831c66d, 0xb00327c8, 0xbf597fc7],
   [0xc6e00bf3, 0xd5a79147, 0x06ca6351, 0x14292967],
   [0x27b70a85, 0x2e1b2138, 0x4d2c6dfc, 0x53380d13],
   [0x650a7354, 0x766a0abb, 0x81c2c92e, 0x92722c85],
   [0xa2bfe8a1, 0xa81a664b, 0xc24b8b70, 0xc76c51a3],
   [0xd192e819, 0xd6990624, 0xf40e3585, 0x106aa070],
   [0x19a4c116, 0x1e376c08, 0x2748774c, 0x34b0bcb5],
   [0x391c0cb3, 0x4ed8aa4a, 0x5b9cca4f, 0x682e6ff3],
   [0x748f82ee, 0x78a5636f, 0x84c87814, 0x8cc70208],
   [0x90befffa, 0xa4506ceb, 0xbef9a3f7, 0xc67178f2]]

/-- The round constants `K[0..63]` (R112), row after row. -/
def kTable : List Word := kRows.flatten

/-- The initial hash value `IV[0..7]`, in order (R113). -/
def iv : Words8 :=
  ⟨0x6a09e667, 0xbb67ae85, 0x3c6ef372, 0xa54ff53a, 0x510e527f, 0x9b05688c, 0x1f83d9ab, 0x5be0cd19⟩

/-! ## One block, as a function (R114 to R117) -/

/-- Word `i` of a block: `be32(BLK[4i ..< 4i+4])` (R114). -/
def messageWord (blk : List Byte) (i : Nat) : Word :=
  be32 (blk.getD (4 * i) 0) (blk.getD (4 * i + 1) 0) (blk.getD (4 * i + 2) 0) (blk.getD (4 * i + 3) 0)

/-- `M[0..15]` (R114). -/
def messageWords (blk : List Byte) : List Word := (List.range 16).map (messageWord blk)

/-- The recurrence of the schedule on its four operands (R115). -/
def scheduleWord (w2 w7 w15 w16 : Word) : Word := ssig1 w2 + w7 + ssig0 w15 + w16

/-- The schedule grown by `n` words: `W[t]` from `W[t-2]`, `W[t-7]`, `W[t-15]`, `W[t-16]`, `t` the words so far (R115). -/
def growSchedule (ws : List Word) : Nat → List Word
  | 0 => ws
  | n + 1 =>
    let t := ws.length
    growSchedule
      (ws ++ [scheduleWord (ws.getD (t - 2) 0) (ws.getD (t - 7) 0) (ws.getD (t - 15) 0) (ws.getD (t - 16) 0)]) n

/-- The 64 schedule words of a block (R115). -/
def schedule (blk : List Byte) : List Word := growSchedule (messageWords blk) 48

/-- One round with the constant `k` and the schedule word `w` (R116). -/
def round (v : Words8) (k w : Word) : Words8 :=
  let t1 := v.h + bsig1 v.e + ch v.e v.f v.g + k + w
  let t2 := bsig0 v.a + maj v.a v.b v.c
  ⟨t1 + t2, v.a, v.b, v.c, v.d + t1, v.e, v.f, v.g⟩

/-- Word-wise `add32` of two register sets (R117). -/
def Words8.add (x y : Words8) : Words8 :=
  ⟨x.a + y.a, x.b + y.b, x.c + y.c, x.d + y.d, x.e + y.e, x.f + y.f, x.g + y.g, x.h + y.h⟩

/-- The working words after rounds `0` to `n-1` (R116, R117). -/
def roundsTo (ws : List Word) (v : Words8) (n : Nat) : Words8 :=
  (List.range n).foldl (fun v t => round v (kTable.getD t 0) (ws.getD t 0)) v

/-- `compress(Hin, BLK)` (R117). -/
def compress (hin : Words8) (blk : List Byte) : Words8 := hin.add (roundsTo (schedule blk) hin 64)

/-! ## Padding and the block loop, as functions (R118 to R120) -/

/-- `N = floor((L + 8) / 64) + 1` (R118, R124). -/
def blockCount (len : Nat) : Nat := (len + 8) / 64 + 1

/-- `k = (55 - L) mod 64`, in natural numbers (R118). -/
def padZeros (len : Nat) : Nat := (119 - len % 64) % 64

/-- `pad(m) = m ‖ 0x80 ‖ 0^k ‖ be64(8 * L)` (R118). -/
def pad (m : List Byte) : List Byte :=
  m ++ [0x80] ++ zeros (padZeros m.length) ++ be64 (BitVec.ofNat 64 (8 * m.length))

/-- Block `j` of a padded message: `P[64j ..< 64j+64]` (R119). -/
def blockAt (p : List Byte) (j : Nat) : List Byte := (p.drop (64 * j)).take 64

/-- `digest(H)` (R120). -/
def digest (v : Words8) : List Byte :=
  bytes32 v.a ++ bytes32 v.b ++ bytes32 v.c ++ bytes32 v.d ++ bytes32 v.e ++ bytes32 v.f ++ bytes32 v.g ++ bytes32 v.h

/-- The chaining value after the first `n` blocks of a padded message (R119). -/
def chain (p : List Byte) (n : Nat) : Words8 := (List.range n).foldl (fun h j => compress h (blockAt p j)) iv

/-- `SHA256(m)` (R119). -/
def sha256 (m : List Byte) : List Byte := digest (chain (pad m) ((pad m).length / 64))

/-! ## The datapath -/

/-- The registers at the start of a hash: HREG the initial value, no block and no byte yet (R119, R121). -/
def Scratch.hashInit (sc : Scratch) : Scratch := { sc with hreg := iv, blkcnt := 0, mlen := 0 }

/-- The bytes of the message in its block `j`. -/
def chunk (msg : List Byte) (j : Nat) : List Byte := (msg.drop (64 * j)).take 64

/-- Byte `i` of the padded message, from the source buffer and MLEN; in the last block, the only one that holds the
length field, MLEN is the whole length (R118, R121). -/
def padByte (msg : List Byte) (mlen : BitVec 64) (i : Nat) : Byte :=
  if i < msg.length then msg.getD i 0
  else if i = msg.length then 0x80
  else if i < 64 * blockCount msg.length - 8 then 0
  else (be64 (mlen <<< 3)).getD (i - (64 * blockCount msg.length - 8)) 0

/-- The padder fills BLK with block BLKCNT and counts its message bytes in MLEN; the padded message is never held whole
(R119). -/
def Scratch.loadBlock (sc : Scratch) (msg : List Byte) : Scratch :=
  let mlen := sc.mlen + BitVec.ofNat 64 (chunk msg sc.blkcnt).length
  { sc with
    mlen := mlen
    blk := toRegister 64 ((List.range 64).map fun i => padByte msg mlen (64 * sc.blkcnt + i)) }

/-- WV <- HREG, T <- 0, and the window holds `M[0..15]` (R114, R117). -/
def Scratch.compressInit (sc : Scratch) : Scratch :=
  { sc with
    wv := sc.hreg
    t := 0
    wwin := ⟨⟨messageWords sc.blk.toList⟩, by simp [messageWords]⟩ }

/-- `WWIN[t mod 16]` (R123). -/
def Scratch.window (sc : Scratch) (t : Nat) : Word := sc.wwin[t % 16]'(Nat.mod_lt t (by decide))

/-- The schedule word of round `t`, from the sliding window (R115, R123). -/
def Scratch.nextW (sc : Scratch) (t : Nat) : Word :=
  if t < 16 then sc.window t
  else scheduleWord (sc.window (t - 2)) (sc.window (t - 7)) (sc.window (t - 15)) (sc.window (t - 16))

/-- Round T: `W[t]` enters the window over `W[t-16]`, the working words are replaced, T counts (R116, R123). -/
def Scratch.roundStep (sc : Scratch) : Scratch :=
  let t := sc.t.toNat
  let w := sc.nextW t
  { sc with
    wwin := sc.wwin.set (t % 16) w (Nat.mod_lt t (by decide))
    wv := round sc.wv (kTable.getD t 0) w
    t := sc.t + 1 }

/-- The feed-forward addition into HREG, and BLKCNT counts the block (R117, R119). -/
def Scratch.compressEnd (sc : Scratch) : Scratch := { sc with hreg := sc.hreg.add sc.wv, blkcnt := sc.blkcnt + 1 }

/-- One block of the hash of `msg`: load, 64 rounds, add (R117, R119; the label BLOCK of R265). -/
def Scratch.hashBlock (sc : Scratch) (msg : List Byte) : Scratch :=
  (Scratch.roundStep^[64] (sc.loadBlock msg).compressInit).compressEnd

/-- One block of the hash of `msg` on the scratch registers of the state. -/
def State.hashBlock (msg : List Byte) (s : State) : State := s.setScratch (s.scratch.hashBlock msg)

/-- The iterative processor over a whole message (R119); the hash value is left in HREG. -/
def Run.hashPass (r : Run) (msg : List Byte) : Run :=
  (r.move fun s => s.setScratch s.scratch.hashInit).repeatOp .block (State.hashBlock msg) (blockCount msg.length)

/-! ## HASH (R122) -/

/-- HASH: the check of KEYLEN, the hash of the key buffer, the digest into TAG. -/
def runHash (s : State) : Run :=
  let r := (Run.start s).op .keychk id
  if s.keyTooLong then
    (r.op .wipeout fun s => s.wipe .tag).raiseErr errKey
  else
    ((r.hashPass s.keyBytes).move fun s => s.setBuf .tag (digest s.scratch.hreg)).complete true

/-- The meaning of HASH (R122). -/
def execHash (s : State) : Host.Outcome State Fault Refusal := .next (runHash s).st

end Sys2Proof.Machine
end

