-- ==== Sys2Proof/Machine/Hmac.lean ====
section
/-!
DEFINITION. The HMAC engine (41_hmac.md), as a function (R140 to R145) and as passes of the hash datapath over the scratch
registers K0 and IH (10_state.md R36), and the command MAC (R147).
-/

namespace Sys2Proof.Machine

/-- `IPAD` (R140). -/
def ipad : Byte := 0x36

/-- `OPAD` (R140). -/
def opad : Byte := 0x5C

/-- A 64-byte key masked with one repeated byte (R142, R143). -/
def mask (p : Byte) (k0 : List Byte) : List Byte := xorBytes k0 (List.replicate 64 p)

/-! ## As a function -/

/-- Key preparation (R141); `k` is not empty and not longer than the buffer. -/
def prepareKey (k : List Byte) : List Byte :=
  if 64 < k.length then sha256 k ++ zeros 32 else k ++ zeros (64 - k.length)

/-- The inner pass (R142). -/
def innerHash (k0 nonce : List Byte) : List Byte := sha256 (mask ipad k0 ++ nonce)

/-- The outer pass (R143). -/
def outerHash (k0 ih : List Byte) : List Byte := sha256 (mask opad k0 ++ ih)

/-- `HMAC(k, R)` (R145). -/
def hmac (k nonce : List Byte) : List Byte :=
  let k0 := prepareKey k
  outerHash k0 (innerHash k0 nonce)

/-! ## On the registers -/

/-- The label KEYPAD: K0 from HREG where the key has been hashed, else from the key buffer (R141, R265). -/
def State.keypad (s : State) : State :=
  s.setScratch
    { s.scratch with
      k0 := toRegister 64 (if 64 < s.keylen.toNat then digest s.scratch.hreg ++ zeros 32 else s.keyBytes) }

/-- IH <- the digest of the inner hash (R142). -/
def State.storeInner (s : State) : State :=
  s.setScratch { s.scratch with ih := toRegister 32 (digest s.scratch.hreg) }

/-- The key hash of a long key (R141), else nothing. -/
def Run.keyHash (r : Run) : Run := if 64 < r.st.keylen.toNat then r.hashPass r.st.keyBytes else r

/-- The inner pass over K0 and NONCE (R142). -/
def Run.innerPass (r : Run) : Run :=
  (r.hashPass (mask ipad r.st.scratch.k0.toList ++ r.st.nonce)).move State.storeInner

/-- The outer pass over K0 and IH (R143); the digest goes to TAG. -/
def Run.outerPass (r : Run) : Run :=
  (r.hashPass (mask opad r.st.scratch.k0.toList ++ r.st.scratch.ih.toList)).move fun s =>
    s.setBuf .tag (digest s.scratch.hreg)

/-- `TAG <- HMAC(KEY[0 ..< KEYLEN], NONCE)`: key hash if the key is long, KEYPAD, two passes (R141 to R145). -/
def Run.hmac (r : Run) : Run := (r.keyHash.op .keypad State.keypad).innerPass.outerPass

/-! ## MAC (R147) -/

/-- MAC: the check of KEYLEN, then the tag of NONCE under the key. -/
def runMac (s : State) : Run :=
  let r := (Run.start s).op .keychk id
  if s.keyOk then r.hmac.complete true
  else (r.op .wipeout fun s => s.wipe .tag).raiseErr errKey

/-- The meaning of MAC (R147). -/
def execMac (s : State) : Host.Outcome State Fault Refusal := .next (runMac s).st

end Sys2Proof.Machine
end

