-- ==== Sys2Proof/Machine/Rng.lean ====
section
/-!
DEFINITION. The nonce generator: the RNG port (43_rng.md R165, R170) and the command DRAW (R171).
-/

namespace Sys2Proof.Machine

/-! ## The port -/

/-- `r[i] = rng_data[127 - 8i : 120 - 8i]` (R170). -/
def parallelByte (data : BitVec 128) (i : Nat) : Byte := data.extractLsb' (120 - 8 * i) 8

/-- The answer a delivery is (R165): all or nothing; an error indication, or fewer than 16 bytes, is `fail`. What more
than 16 bytes are the spec does not say: a free value (DESIGN CHOICE, notes/assumptions/7.md). -/
def RngDelivery.answer : RngDelivery → RngAnswer
  | .serial bytes err =>
    if err || bytes.length < 16 then .fail
    else if bytes.length = 16 then .ok (toRegister 16 bytes)
    else
      match Config.overlongAnswer bytes with
      | some r => .ok r
      | none => .fail
  | .parallel data err => if err then .fail else .ok (toRegister 16 ((List.range 16).map (parallelByte data)))

/-- The RNG agent turns `pending` into an answer (10_state.md R39); with no request pending the delivery is ignored
(70_reset_and_hazards.md R251). -/
def State.rngDeliver (s : State) (d : RngDelivery) : State :=
  match s.rngq with
  | .pending => { s with rngq := .ans d.answer }
  | _ => s

/-- The engine's request has been made at issue; it waits here (R165, R169). -/
def Run.awaitRng (s : State) : Run := (Run.start s).op .rngreq id

/-- The engine takes the answer: RNGQ none, the phase RUN (R165). -/
def State.takeAnswer (s : State) : State := { s with rngq := .none, seq := { s.seq with ph := .run } }

/-! ## DRAW (R171) -/

/-- DRAW: with an answer, the nonce or ERR_RNG; with none, the engine waits and nothing changes (R169). -/
def runDraw (s : State) : Run :=
  let r := Run.awaitRng s
  match s.rngq with
  | .ans (.ok n) => ((r.move State.takeAnswer).move fun s => s.setBuf .nonce n.toList).complete true
  | .ans .fail => ((r.move State.takeAnswer).op .wipeout fun s => s.wipe .nonce).raiseErr errRng
  | .pending => r
  | .none => r

/-- The meaning of DRAW (R171). -/
def execDraw (s : State) : Host.Outcome State Fault Refusal := .next (runDraw s).st

end Sys2Proof.Machine
end

