-- ==== Sys2Proof/Machine/Token.lean ====
section
/-!
DEFINITION. The token codec commands GEN (45_token.md R190) and VFY (R193).
-/

namespace Sys2Proof.Machine

/-! ## GEN (R190) -/

/-- The output wipes of `FAIL(e)` (R190). -/
def State.wipeGen (s : State) : State := (((s.wipe .nonce).wipe .tag).wipe .token).setToklen 0

/-- `FAIL(e)` of R190. -/
def Run.failGen (r : Run) (code : BitVec 4) : Run := (r.op .wipeout State.wipeGen).raiseErr code

/-- GEN from the key check on, with the nonce in NONCE (R190). -/
def Run.genFromKey (r : Run) : Run :=
  let k := r.op .keychk id
  if k.st.keyOk then (k.hmac.op .hexenc48 State.hexenc).complete true else k.failGen errKey

/-- GEN: the draw comes first, then the key check (R190, 60_exceptions.md R226); with no answer yet the engine waits
and nothing changes (43_rng.md R169). -/
def runGen (s : State) : Run :=
  let r := Run.awaitRng s
  match s.rngq with
  | .ans (.ok n) => ((r.move State.takeAnswer).move fun s => s.setBuf .nonce n.toList).genFromKey
  | .ans .fail => (r.move State.takeAnswer).failGen errRng
  | .pending => r
  | .none => r

/-- The meaning of GEN (R190). -/
def execGen (s : State) : Host.Outcome State Fault Refusal := .next (runGen s).st

/-! ## VFY (R193) -/

/-- `wipe(NONCE, TAG, DEC)`: every exit of VFY (R193). -/
def State.wipeVfy (s : State) : State := ((s.wipe .nonce).wipe .tag).wipe .dec

/-- `END(v)` of R193. -/
def Run.endVfy (r : Run) (v : Bool) : Run := (r.op .wipeout State.wipeVfy).complete v

/-- `DEC <- X`, then `NONCE <- DEC[0 ..< 16]` (R193). -/
def State.loadCandidate (s : State) (x : List Byte) : State :=
  let s := s.setBuf .dec x
  s.setBuf .nonce (s.dec.take 16)

/-- VFY from the key check on, with the candidate in DEC and its nonce in NONCE (R193, R197). -/
def Run.vfyFromKey (r : Run) : Run :=
  let k := r.op .keychk id
  if k.st.keyOk then
    let c := k.hmac.op .cmp48 State.cmp48
    c.endVfy c.st.accZero
  else (k.op .wipeout State.wipeVfy).raiseErr errKey

/-- VFY: the structural verdict comes first and fails closed (R193, R194). -/
def runVfy (s : State) : Run :=
  let r := (Run.start s).op .hexdec96 State.hexdec
  if r.st.scratch.valid then (r.move fun t => t.loadCandidate s.decoded.1).vfyFromKey else r.endVfy false

/-- The meaning of VFY (R193). -/
def execVfy (s : State) : Host.Outcome State Fault Refusal := .next (runVfy s).st

end Sys2Proof.Machine
end

