-- ==== Sys2Proof/Machine/Trace.lean ====
section
/-!
DEFINITION. The trace table of 70_reset_and_hazards.md R265, written from the table alone, and the facts it reads (R266).
The trace a command's meaning emits is `runOf`'s; that the two agree is a statement, not a definition.
-/

namespace Sys2Proof.Machine

/-- The classes of KEYLEN (R266, 41_hmac.md R150). -/
inductive KeyClass where
  /-- `KEYLEN = 0`. -/
  | zero
  /-- `1 <= KEYLEN <= 64`. -/
  | short
  /-- `64 < KEYLEN <= KEY_MAX`. -/
  | long
  /-- `KEYLEN > KEY_MAX`. -/
  | over
deriving DecidableEq, Repr

/-- The class of a KEYLEN (R266). -/
def keyClass (c : Config) (keylen : Nat) : KeyClass :=
  if keylen = 0 then .zero else if c.keyMax < keylen then .over else if keylen ≤ 64 then .short else .long

/-- The kind of the RNG's answer (R266), or none yet. -/
inductive AnswerKind where
  | waiting
  | ok
  | fail
deriving DecidableEq, Repr

/-- The kind of answer RNGQ holds. -/
def RngQ.kind : RngQ → AnswerKind
  | .ans (.ok _) => .ok
  | .ans .fail => .fail
  | .pending => .waiting
  | .none => .waiting

/-- All that a trace may depend on beside the command (R266); `blocks` is `N(KEYLEN)` (DEDUCED, for HASH in the class
`1..64` too, notes/assumptions/14.md). -/
structure Facts where
  valid : Bool
  key : KeyClass
  blocks : Nat
  answer : AnswerKind
deriving DecidableEq, Repr

/-- The facts of a state. -/
def State.facts (s : State) : Facts :=
  { valid := s.decoded.2, key := keyClass s.cfg s.keylen.toNat, blocks := blockCount s.keylen.toNat,
    answer := s.rngq.kind }

/-- `HMACTR(KEYLEN)` (R265). -/
def hmacTrace (f : Facts) : List Label :=
  (if f.key = .long then List.replicate f.blocks .block else []) ++ [.keypad, .block, .block, .block, .block]

/-- `keyok` (R265). -/
def Facts.keyOk (f : Facts) : Bool := f.key = .short || f.key = .long

/-- GEN from `KEYCHK` on (R265). -/
def genTail (f : Facts) : List Label :=
  if f.keyOk then hmacTrace f ++ [.hexenc48, .finish] else [.wipeout, .finish]

/-- VFY from `KEYCHK` on (R265). -/
def vfyTail (f : Facts) : List Label :=
  if f.keyOk then hmacTrace f ++ [.cmp48, .wipeout, .finish] else [.wipeout, .finish]

/-- The table of R265. While the RNG has not answered, GEN and DRAW stand in `RNGREQ`. -/
def traceTable (i : Instr) (f : Facts) : List Label :=
  match i with
  | .nop => [.issue, .finish]
  | .gen =>
    [.issue, .rngreq] ++
      (match f.answer with
      | .waiting => []
      | .fail => [.wipeout, .finish]
      | .ok => .keychk :: genTail f)
  | .vfy => [.issue, .hexdec96] ++ (if f.valid then .keychk :: vfyTail f else [.wipeout, .finish])
  | .mac => [.issue, .keychk] ++ (if f.keyOk then hmacTrace f ++ [.finish] else [.wipeout, .finish])
  | .hash =>
    [.issue, .keychk] ++
      (if f.key = .over then [.wipeout, .finish] else List.replicate f.blocks .block ++ [.finish])
  | .draw =>
    [.issue, .rngreq] ++
      (match f.answer with
      | .waiting => []
      | .fail => [.wipeout, .finish]
      | .ok => [.finish])
  | .hexe => [.issue, .hexenc48, .finish]
  | .hexd => [.issue, .hexdec96, .finish]
  | .cmp => [.issue, .cmp48, .finish]
  | .wipe => [.issue, .wipeall, .finish]

/-- The run of a command, as its meaning performs it. -/
def runOf (i : Instr) (s : State) : Run :=
  match i with
  | .nop => runNop s
  | .gen => runGen s
  | .vfy => runVfy s
  | .mac => runMac s
  | .hash => runHash s
  | .draw => runDraw s
  | .hexe => runHexe s
  | .hexd => runHexd s
  | .cmp => runCmp s
  | .wipe => runWipe s

end Sys2Proof.Machine
end

