-- ==== Sys2Proof/Machine/Dispatch.lean ====
section
/-!
DEFINITION. The dispatch of a command to its meaning, one arm per constructor of `Instr`.
-/

namespace Sys2Proof.Machine

def exec (i : Instr) (s : State) : Host.Outcome State Fault Refusal :=
  match i with
  | .nop => Sys2Proof.Machine.execNop s
  | .gen => Sys2Proof.Machine.execGen s
  | .vfy => Sys2Proof.Machine.execVfy s
  | .mac => Sys2Proof.Machine.execMac s
  | .hash => Sys2Proof.Machine.execHash s
  | .draw => Sys2Proof.Machine.execDraw s
  | .hexe => Sys2Proof.Machine.execHexe s
  | .hexd => Sys2Proof.Machine.execHexd s
  | .cmp => Sys2Proof.Machine.execCmp s
  | .wipe => Sys2Proof.Machine.execWipe s

end Sys2Proof.Machine
end

