-- ==== Sys2Proof/Machine/Port.lean ====
section
/-!
DEFINITION. The host's register port: the address map (20_memory.md R62), the order of checks (60_exceptions.md R227),
what a read returns (R67) and what a write does (R68).
-/

namespace Sys2Proof.Machine

/-! ## The address map (R62) -/

/-- What stands at an offset that is not reserved. -/
inductive Target where
  | id
  | param
  | ctrl
  | status
  | cmd
  | keylen
  | toklen
  | buf (b : Buf)
deriving DecidableEq, Repr

/-- One row of the map: `size` bytes from `base` on; no target means reserved. -/
structure Region where
  base : Nat
  size : Nat
  target : Option Target
deriving DecidableEq, Repr

/-- `KEY_END = 0x100 + KEY_MAX` (R62). -/
def keyEnd (c : Config) : Nat := 0x100 + c.keyMax

/-- The rows of R62, in its order. -/
def addressMap (c : Config) : List Region :=
  [{ base := 0x000, size := 4, target := some .id },
   { base := 0x004, size := 4, target := some .param },
   { base := 0x008, size := 4, target := some .ctrl },
   { base := 0x00C, size := 4, target := some .status },
   { base := 0x010, size := 4, target := some .cmd },
   { base := 0x014, size := 4, target := some .keylen },
   { base := 0x018, size := 4, target := some .toklen },
   { base := 0x01C, size := 4, target := none },
   { base := 0x020, size := 16, target := some (.buf .nonce) },
   { base := 0x030, size := 16, target := none },
   { base := 0x040, size := 32, target := some (.buf .tag) },
   { base := 0x060, size := 48, target := some (.buf .dec) },
   { base := 0x090, size := 16, target := none },
   { base := 0x0A0, size := 96, target := some (.buf .token) },
   { base := 0x100, size := c.keyMax, target := some (.buf .key) },
   { base := keyEnd c, size := 0xF00 - c.keyMax, target := none }]

/-- Is the offset inside the row? -/
def Region.holds (r : Region) (a : Nat) : Bool := r.base ≤ a && a < r.base + r.size

/-- What stands at offset `a`; none where it is reserved (R62, R64). -/
def target (c : Config) (a : Nat) : Option Target :=
  match (addressMap c).find? fun r => r.holds a with
  | some r => r.target
  | none => none

/-! ## The checks (60_exceptions.md R227) -/

/-- The only legal access is 32 bits wide at a multiple of 4 (R63). -/
def widthOk (addr : BitVec 12) (n : Nat) : Bool := n == 4 && addr.toNat % 4 == 0

/-- Read through the busy gate: ID, PARAM, CTRL, STATUS (R69). -/
def Target.readableBusy : Target → Bool
  | .id => true
  | .param => true
  | .ctrl => true
  | .status => true
  | .cmd => false
  | .keylen => false
  | .toklen => false
  | .buf _ => false

/-- Written through the busy gate: CTRL alone (R69). -/
def Target.writableBusy (t : Target) : Bool := t == .ctrl

/-- Registers a write to which is an error: ID and PARAM (R68). -/
def Target.readOnly (t : Target) : Bool := t == .id || t == .param

/-! ## Reads (R67) -/

/-- The word of a buffer at offset `a`, the byte at the lowest offset most significant (R65). -/
def Memory.readWord (m : Memory) (a : Nat) : Word := be32 (m.read a) (m.read (a + 1)) (m.read (a + 2)) (m.read (a + 3))

/-- The data a read returns; KEY and CMD read 0 (R67). -/
def State.readTarget (s : State) (t : Target) (a : Nat) : Word :=
  match t with
  | .id => idWord
  | .param => paramWord s.cfg
  | .ctrl => ctrlWord s
  | .status => s.status.word
  | .cmd => 0
  | .keylen => keylenWord s
  | .toklen => s.toklen
  | .buf .key => 0
  | .buf .nonce => s.mem.readWord a
  | .buf .tag => s.mem.readWord a
  | .buf .dec => s.mem.readWord a
  | .buf .token => s.mem.readWord a

/-- `MemRead(addr, n)` (R61): the data, or the reason of an `ERROR`. -/
def State.memRead (s : State) (addr : BitVec 12) (n : Nat) : Except BusError Word :=
  if widthOk addr n = false then .error .width
  else
    match target s.cfg addr.toNat with
    | none => .error .reserved
    | some t =>
      if s.status.busy && !t.readableBusy then .error .busy
      else .ok (s.readTarget t addr.toNat)

/-! ## Writes (R68) -/

/-- A write to CTRL: SRST resets and discards the rest, else IE is stored (10_state.md R23). -/
def State.writeCtrl (s : State) (v : Word) : State :=
  if v.getLsbD 1 then s.resetAll else { s with ie := v.getLsbD 0 }

/-- A write to STATUS: a 1 in bit 1 clears DONE, all else is ignored (10_state.md R25). -/
def State.writeStatus (s : State) (v : Word) : State :=
  if v.getLsbD 1 then { s with status := { s.status with done := false } } else s

/-- A write of a buffer word: four bytes, no byte enables (R65). -/
def State.writeWord (s : State) (a : Nat) (v : Word) : State := { s with mem := s.mem.writeBytes a (bytes32 v) }

/-- The effect of an accepted write (R68); ID and PARAM have none. -/
def State.writeTarget (s : State) (t : Target) (a : Nat) (v : Word) : State :=
  match t with
  | .id => s
  | .param => s
  | .ctrl => s.writeCtrl v
  | .status => s.writeStatus v
  | .cmd => s.issue v
  | .keylen => s.setKeylen (v.extractLsb' 0 16)
  | .toklen => s.setToklen v
  | .buf _ => s.writeWord a v

/-- `MemWrite(addr, n, v)` (R61): the state after, or the reason of an `ERROR`. -/
def State.memWrite (s : State) (addr : BitVec 12) (n : Nat) (v : Word) : Except BusError State :=
  if widthOk addr n = false then .error .width
  else
    match target s.cfg addr.toNat with
    | none => .error .reserved
    | some t =>
      if s.status.busy && !t.writableBusy then .error .busy
      else if t.readOnly then .error .readOnly
      else if t == .cmd && s.status.fatal then .error .fatal
      else .ok (s.writeTarget t addr.toNat v)

end Sys2Proof.Machine
end

