-- ==== Sys2Proof/Machine/Engine.lean ====
section
/-!
DEFINITION. The moves of the four agents (00_scope.md R10): the engine's completion step (46_system.md R211), the host's
transactions (20_memory.md R61), the RNG's answer (10_state.md R39), the reset input (70_reset_and_hazards.md R250).
-/

namespace Sys2Proof.Machine

/-- The command in SEQ runs to its completion; an illegal word completes with ERR_CMD (R211, R214). -/
def runLatched (s : State) : Host.Outcome State Fault Refusal :=
  match decode s.seq.cmd with
  | .ok i => exec i s
  | .error _ => .next (runIllegal s).st

/-- Is the completion step enabled: BUSY, and in RUN, or in RNGWAIT with an answer (R211)? -/
def State.engineReady (s : State) : Bool :=
  s.status.busy &&
    (match s.seq.ph with
    | .idle => false
    | .run => true
    | .rngwait => s.rngq.kind != .waiting)

/-- The engine's move. Where its step is not enabled nothing changes: an idle engine does nothing (60_exceptions.md R241),
and one that waits for the RNG waits on (43_rng.md R169). -/
def engineStep (s : State) : Host.Outcome State Fault Refusal := if s.engineReady then runLatched s else .next s

/-- A host read: the data stands in `reply`; `ERROR` is a fault of the host's step (R61). -/
def hostRead (s : State) (addr : BitVec 12) (n : Nat) : Host.Outcome State Fault Refusal :=
  match s.memRead addr n with
  | .ok d => .next { s with reply := .data d }
  | .error e => .fault (.busError e)

/-- A host write: `OKAY` stands in `reply`; `ERROR` is a fault of the host's step (R61). -/
def hostWrite (s : State) (addr : BitVec 12) (n : Nat) (v : Word) : Host.Outcome State Fault Refusal :=
  match s.memWrite addr n v with
  | .ok s' => .next { s' with reply := .okay }
  | .error e => .fault (.busError e)

/-- One move of the outside world, or the engine's. A late answer to a withdrawn request is ignored
(70_reset_and_hazards.md R251). -/
def perform (e : Event) (s : State) : Host.Outcome State Fault Refusal :=
  match e with
  | .read addr n => hostRead s addr n
  | .write addr n v => hostWrite s addr n v
  | .rng d => .next (s.rngDeliver d)
  | .rngLate _ => .next s
  | .reset => .next s.resetAll
  | .engine => engineStep s

/-- The next move: the oldest listed one, or the engine's where none is listed. -/
def nextMove (s : State) : Host.Outcome State Fault Refusal :=
  match s.env with
  | [] => engineStep s
  | e :: rest => perform e { s with env := rest }

/-! ## Placing an instruction -/

/-- The engine's move put before the moves still to come. -/
def engineNext : List Event → List Event
  | [] => []
  | e :: rest => .engine :: e :: rest

/-- An RNGQ that holds an answer: its own, or 16 zero bytes where it has none (notes/assumptions/10.md). -/
def RngQ.answered : RngQ → RngQ
  | .ans a => .ans a
  | .pending => .ans (.ok (toRegister 16 []))
  | .none => .ans (.ok (toRegister 16 []))

/-- The word `w` accepted by a CMD write (R210) in a state whose FATAL lets it through, its RNG request answered, the
engine's move next. -/
def State.placeCommand (s : State) (w : Word) : State :=
  { s with
    status := { s.status.issued with fatal := false }
    seq := { cmd := w, ph := if drawsRng w then .rngwait else .run }
    rngq := if drawsRng w then s.rngq.answered else s.rngq
    env := engineNext s.env }

end Sys2Proof.Machine
end

