-- ==== Sys2Proof/Machine/Step.lean ====
section
/-!
DEFINITION. The step, and where it finds its next instruction.
-/

namespace Sys2Proof.Machine

/-- One step of the whole machine: the next move of HOST, RNG, RESET or ENGINE (00_scope.md R10). -/
def step (s : State) : Host.Outcome State Fault Refusal := nextMove s

/-- `s` with the instruction whose bits are `w` latched in SEQ, so that the next step runs it. OTPE fetches nothing
(20_memory.md R60, R75): a CMD write latches the word, and this stands for that write (notes/assumptions/10.md). -/
def State.withFetchWord (s : State) (nbits w : Nat) : State := s.placeCommand (BitVec.ofNat 32 (w % 2 ^ nbits))

end Sys2Proof.Machine
end

