-- ==== Sys2Proof/Machine/Script.lean ====
section
/-!
DEFINITION. Host scripts (30_encoding.md R95) and their pseudo-instructions (R96): each statement's expansion into primitive
statements, and what the primitive statements do to OTPE and answer. The step does not use them: they are the spec's
notation for what HOST and RNG do, played by the same port, engine and RNG operations that the step performs.
-/

namespace Sys2Proof.Machine

/-! ## Statements and their expansion -/

/-- One statement of a host script (R95, R96). -/
inductive Script where
  /-- `WR off, val`. -/
  | wr (off : BitVec 12) (val : Word)
  /-- `RD off`. -/
  | rd (off : BitVec 12)
  /-- `CMD m`. -/
  | cmd (m : Instr)
  /-- `WAIT`. -/
  | wait
  /-- `RUN m`. -/
  | run (m : Instr)
  /-- `LOADKEY b`. -/
  | loadkey (b : List Byte)
  /-- `LOADTOK s`. -/
  | loadtok (s : List Byte)
  /-- `LOADN b`. -/
  | loadn (b : Vector Byte 16)
  /-- `LOADT b`. -/
  | loadt (b : Vector Byte 32)
  /-- `LOADD b`. -/
  | loadd (b : Vector Byte 48)
  /-- `READ buf`. -/
  | readBuf (b : Buf)
  /-- `SRST`. -/
  | srst
  /-- `RNG ok b` and `RNG fail`. -/
  | rng (a : RngAnswer)
deriving DecidableEq, Repr

/-- A primitive statement: a host transaction (R95), the poll loop that WAIT is, or what the RNG answers (R96). -/
inductive Primitive where
  /-- `WR off, val`: `MemWrite(off, 4, val)`. -/
  | wr (off : BitVec 12) (val : Word)
  /-- `RD off`: `MemRead(off, 4)`. -/
  | rd (off : BitVec 12)
  /-- Repeat `RD 0x00C` until the data has BUSY clear. -/
  | poll
  /-- What the RNG agent answers to the next request. -/
  | rng (a : RngAnswer)
deriving DecidableEq, Repr

/-- The writes of a byte string from an offset on, word by word, the last word padded with zero bytes (R96). -/
def loadWords (base : Nat) (b : List Byte) : List Primitive :=
  (List.range ((b.length + 3) / 4)).map fun j =>
    .wr (BitVec.ofNat 12 (base + 4 * j))
      (be32 (b.getD (4 * j) 0) (b.getD (4 * j + 1) 0) (b.getD (4 * j + 2) 0) (b.getD (4 * j + 3) 0))

/-- The reads of every word of a buffer, the lowest offset first (R96). -/
def readWords (c : Config) (b : Buf) : List Primitive :=
  (List.range (b.size c / 4)).map fun j => .rd (BitVec.ofNat 12 (b.base + 4 * j))

/-- The expansion of a statement (R96, row by row). -/
def Script.expand (c : Config) : Script → List Primitive
  | .wr off val => [.wr off val]
  | .rd off => [.rd off]
  | .cmd m => [.wr 0x010 (encode m)]
  | .wait => [.poll]
  | .run m => [.wr 0x010 (encode m), .poll]
  | .loadkey b => .wr 0x014 (BitVec.ofNat 32 b.length) :: loadWords 0x100 b
  | .loadtok s => .wr 0x018 (BitVec.ofNat 32 (min s.length 0xFFFFFFFF)) :: loadWords 0x0A0 (s.take 96)
  | .loadn b => loadWords 0x020 b.toList
  | .loadt b => loadWords 0x040 b.toList
  | .loadd b => loadWords 0x060 b.toList
  | .readBuf b => readWords c b
  | .srst => [.wr 0x008 0x00000002]
  | .rng a => [.rng a]

/-! ## What the primitive statements do -/

/-- OTPE with the RNG agent of a script beside it. -/
structure Session where
  /-- OTPE. -/
  st : State
  /-- The answer stated for a request that has not been made yet. -/
  stated : Option RngAnswer
  /-- The requests that a reset has withdrawn before any answer (70_reset_and_hazards.md R251). -/
  withdrawn : Nat
deriving DecidableEq, Repr

/-- What a primitive statement answers. -/
inductive Response where
  /-- No host transaction: an RNG statement. -/
  | none
  /-- A write, answered `OKAY`. -/
  | okay
  /-- A read, answered `OKAY` with this data; for the poll loop the last data read. -/
  | data (w : Word)
  /-- `!ERROR` (R95). -/
  | error (e : BusError)
deriving DecidableEq, Repr

/-- An answer as the port delivers it. -/
def RngAnswer.delivery : RngAnswer → RngDelivery
  | .ok r => .serial r.toList false
  | .fail => .serial [] true

/-- The RNG agent after an access that has left OTPE in `t`: it gives the stated answer to a new request, and counts a
request that a reset has withdrawn. That the stated answer comes straight after the CMD write is the model's choice
(DESIGN CHOICE, notes/assumptions/18.md). -/
def Session.afterWrite (x : Session) (t : State) : Session :=
  match x.st.rngReq, t.rngReq, x.stated with
  | false, true, some a => { x with st := t.rngDeliver a.delivery, stated := none }
  | true, false, _ => { x with st := t, withdrawn := x.withdrawn + 1 }
  | _, _, _ => { x with st := t }

/-- `WR off, val` (R95). -/
def Session.write (x : Session) (off : BitVec 12) (val : Word) : Response × Session :=
  match x.st.memWrite off 4 val with
  | .ok t => (.okay, x.afterWrite { t with reply := .okay })
  | .error e => (.error e, x)

/-- `RD off` (R95). -/
def Session.read (x : Session) (off : BitVec 12) : Response × Session :=
  match x.st.memRead off 4 with
  | .ok w => (.data w, { x with st := { x.st with reply := .data w } })
  | .error e => (.error e, x)

/-- The engine's move, between two polls. That the engine moves nowhere else in a script is the model's choice (DESIGN
CHOICE, notes/assumptions/18.md). -/
def Session.engine (x : Session) : Session :=
  match engineStep x.st with
  | .next t => { x with st := t }
  | .fault _ => x
  | .refused _ => x

/-- WAIT: `RD 0x00C` again and again until BUSY is clear, the engine moving in between; none where `n` reads have not seen it
clear, as with a silent RNG (R96, 43_rng.md R169). -/
def Session.poll (x : Session) : Nat → Option (Response × Session)
  | 0 => none
  | n + 1 =>
    match x.read 0x00C with
    | (.data w, y) => if w.getLsbD 0 then y.engine.poll n else some (.data w, y)
    | (r, y) => some (r, y)

/-- An RNG statement (R96): it answers the request that is pending; else it is a late answer to a request that a reset has
withdrawn, and is ignored (70_reset_and_hazards.md R251, program P7 of 95_test_vectors.md); else it is kept for the request
to come, in place of an answer stated before and not yet asked for. Which request it is for, where more than one could be
meant, and that the later of two statements before one request replaces the earlier, are the model's choice (DESIGN
CHOICE, notes/assumptions/18.md). -/
def Session.answer (x : Session) (a : RngAnswer) : Session :=
  if x.st.rngReq then { x with st := x.st.rngDeliver a.delivery }
  else if 0 < x.withdrawn then { x with withdrawn := x.withdrawn - 1 }
  else { x with stated := some a }

/-- One primitive statement, a WAIT followed for at most `polls` reads. -/
def Session.perform (polls : Nat) (x : Session) : Primitive → Option (Response × Session)
  | .wr off val => some (x.write off val)
  | .rd off => some (x.read off)
  | .poll => x.poll polls
  | .rng a => some (.none, x.answer a)

/-- Primitive statements one after another, with their answers in order. -/
def Session.performAll (polls : Nat) (x : Session) : List Primitive → Option (List Response × Session)
  | [] => some ([], x)
  | p :: ps =>
    match x.perform polls p with
    | some (r, y) => (y.performAll polls ps).map fun q => (r :: q.1, q.2)
    | none => none

/-- One statement of a script: the answers of its expansion. -/
def Session.runStatement (polls : Nat) (x : Session) (s : Script) : Option (List Response × Session) :=
  x.performAll polls (s.expand x.st.cfg)

/-- A script, with the answers of each statement in order. -/
def Session.runScript (polls : Nat) (x : Session) : List Script → Option (List (List Response) × Session)
  | [] => some ([], x)
  | s :: rest =>
    match x.runStatement polls s with
    | some (rs, y) => (y.runScript polls rest).map fun q => (rs :: q.1, q.2)
    | none => none

/-- The result of READ: the words read, unpacked by 20_memory.md R65 (R96). -/
def readResult (rs : List Response) : List Byte :=
  rs.flatMap fun r =>
    match r with
    | .data w => bytes32 w
    | .none => []
    | .okay => []
    | .error _ => []

/-- The result of WAIT, and of RUN which ends in one: the last data read (R96). -/
def waitResult (rs : List Response) : Option Word :=
  match rs.getLast? with
  | some (.data w) => some w
  | _ => none

/-- A script's beginning: OTPE in `s`, nothing stated and nothing withdrawn. -/
def Session.start (s : State) : Session := { st := s, stated := none, withdrawn := 0 }

end Sys2Proof.Machine
end

