-- ==== Sys2Proof/Safety.lean ====
section
/-!
DEFINITION. What every state of a run satisfies (the invariant), and the vocabulary of the claims: how a command ends, what
it leaves alone, what reset leaves.
-/

namespace Sys2Proof.Machine

/-! ## The invariant -/

/-- Is the offset inside a buffer (20_memory.md R62)? -/
def inBuffer (c : Config) (a : Nat) : Bool :=
  [Buf.nonce, .tag, .dec, .token, .key].any fun b => b.base ≤ a && a < b.base + b.size c

/-- The buffers' bytes are in canonical form, and none stands outside the buffers. -/
abbrev State.MemInv (s : State) : Prop := s.mem.wf ∧ ∀ c ∈ s.mem.cells, inBuffer s.cfg c.1 = true

/-- The relations between the STATUS fields (10_state.md R24): BUSY and DONE are never both 1; FATAL implies not BUSY; ERR
is 2 or 3 exactly when FATAL; codes 4 to 15 are never produced (60_exceptions.md R220); OK and ERR are 0 while BUSY. -/
abbrev Status.Inv (st : Status) : Prop :=
  ¬ (st.busy = true ∧ st.done = true) ∧ (st.fatal = true → st.busy = false) ∧
    ((st.err = errKey ∨ st.err = errRng) ↔ st.fatal = true) ∧ st.err.toNat ≤ 3 ∧
    (st.busy = true → st.ok = false ∧ st.err = errNone)

/-- The sequencer and the RNG port (10_state.md R38, R39): IDLE exactly when not BUSY; a request exists exactly in
RNGWAIT; GEN and DRAW wait in RNGWAIT, every other word is in RUN. -/
abbrev State.SeqInv (s : State) : Prop :=
  (s.seq.ph = .idle ↔ s.status.busy = false) ∧ (s.seq.ph = .rngwait ↔ s.rngq ≠ .none) ∧
    (s.seq.ph = .rngwait → drawsRng s.seq.cmd = true) ∧ (s.seq.ph = .run → drawsRng s.seq.cmd = false)

/-- The idle-scratch invariant (10_state.md R41): while not BUSY every scratch register is zero and RNGQ is none. -/
abbrev State.ScratchInv (s : State) : Prop := s.status.busy = false → s.scratch = Scratch.zero ∧ s.rngq = .none

/-- What every state of a run satisfies. -/
abbrev State.Inv (s : State) : Prop :=
  s.cfg.wf = true ∧ s.MemInv ∧ s.status.Inv ∧ s.SeqInv ∧ s.ScratchInv

/-! ## How a command ends, and what it leaves alone -/

/-- The engine's registers at a completion (46_system.md R211, R216, 60_exceptions.md R228): BUSY 0, DONE 1, OK and ERR as
given, FATAL set by the codes 2 and 3 and never cleared, scratch zero, the sequencer idle, no RNG request. -/
def Ended (s t : State) (ok : Bool) (err : BitVec 4) : Prop :=
  t.status = { busy := false, done := true, ok := ok, fatal := s.status.fatal || (err == 2 || err == 3), err := err } ∧
    t.scratch = Scratch.zero ∧ t.seq = { cmd := s.seq.cmd, ph := .idle } ∧ t.rngq = .none

/-- CTRL and the model's own fields are as before. -/
def KeepsCtrl (s t : State) : Prop := t.ie = s.ie ∧ t.cfg = s.cfg ∧ t.reply = s.reply ∧ t.env = s.env

/-- The two length registers are as before. -/
def KeepsLengths (s t : State) : Prop := t.keylen = s.keylen ∧ t.toklen = s.toklen

/-- Every byte outside the named buffers reads as before. -/
def KeepsBytesOutside (s t : State) (bs : List Buf) : Prop :=
  ∀ a, (∀ b ∈ bs, ¬ (b.base ≤ a ∧ a < b.base + b.size s.cfg)) → t.mem.read a = s.mem.read a

/-- The buffer is all zero. -/
def IsZero (t : State) (b : Buf) : Prop := t.buf b = zeros (b.size t.cfg)

/-! ## What reset leaves -/

/-- The table of 10_state.md R43, row by row, with the outputs; ID and PARAM are constants and no state. -/
def AtResetValues (s : State) : Prop :=
  s.ie = false ∧ s.status = { busy := false, done := false, ok := false, fatal := false, err := 0 } ∧
    s.keylen = 0 ∧ s.toklen = 0 ∧
    s.nonce = zeros 16 ∧ s.tag = zeros 32 ∧ s.dec = zeros 48 ∧ s.token = zeros 96 ∧
    s.buf .key = zeros s.cfg.keyMax ∧
    s.scratch.hreg = Words8.zero ∧ s.scratch.wv = Words8.zero ∧ s.scratch.wwin = Vector.replicate 16 0 ∧
    s.scratch.t = 0 ∧ s.scratch.blkcnt = 0 ∧
    s.scratch.k0 = Vector.replicate 64 0 ∧ s.scratch.ih = Vector.replicate 32 0 ∧
    s.scratch.blk = Vector.replicate 64 0 ∧ s.scratch.mlen = 0 ∧ s.scratch.acc = 0 ∧ s.scratch.valid = false ∧
    s.seq = { cmd := 0, ph := .idle } ∧ s.rngq = .none ∧ s.irq = false ∧ s.rngReq = false

/-- The state with other moves still to come. -/
def State.withEnv (s : State) (env : List Event) : State := { s with env := env }

end Sys2Proof.Machine
end

