-- ==== Sys2Proof/Certificates/Slice0/Obligations.lean ====
section
/-!
DEFINITION. The statements for the provers. Each docstring names the rule or section of spec/ it rests on. `Ended`,
`KeepsCtrl`, `KeepsLengths`, `KeepsBytesOutside`, `IsZero`, `AtResetValues` and `State.Inv` are in Safety.lean.
-/

open Sys2Proof Sys2Proof.Machine

/-! ## Encoding (30_encoding.md) -/

/-- The words of the opcode table decode to their commands, as the host reads the table, and the illegal words of
95_test_vectors.md section 8 to none (R91, R93). -/
def Obligations.TableWordsDecode : Prop :=
  decodeTableWord 32 0x00 = some .nop ∧ decodeTableWord 32 0x01 = some .gen ∧ decodeTableWord 32 0x02 = some .vfy ∧
    decodeTableWord 32 0x03 = some .mac ∧ decodeTableWord 32 0x04 = some .hash ∧ decodeTableWord 32 0x05 = some .draw ∧
    decodeTableWord 32 0x06 = some .hexe ∧ decodeTableWord 32 0x07 = some .hexd ∧ decodeTableWord 32 0x08 = some .cmp ∧
    decodeTableWord 32 0x09 = some .wipe ∧ decodeTableWord 32 0x0000000A = none ∧
    decodeTableWord 32 0x00000101 = none ∧ decodeTableWord 32 0xFFFFFFFF = none

/-- R94, whole: decoding is total and by the map; whether a word is accepted by CMD does not depend on the word. -/
def Obligations.DecodeFollowsOpcodeMap : Prop :=
  (∀ w : Word, 0x100 ≤ w.toNat → decode w = .error .reservedBits) ∧
    (∀ w : Word, 0x0A ≤ w.toNat → w.toNat < 0x100 → decode w = .error .unassignedOpcode) ∧
    (∀ w : Word, w.toNat < 0x0A →
      decode w = .ok (if w.toNat = 0 then .nop else if w.toNat = 1 then .gen else if w.toNat = 2 then .vfy
        else if w.toNat = 3 then .mac else if w.toNat = 4 then .hash else if w.toNat = 5 then .draw
        else if w.toNat = 6 then .hexe else if w.toNat = 7 then .hexd else if w.toNat = 8 then .cmp else .wipe)) ∧
    ∀ (s : State) (v w : Word), (∃ t, s.memWrite 0x010 4 v = .ok t) ↔ ∃ t, s.memWrite 0x010 4 w = .ok t

/-- Decoding and encoding agree both ways over all words: a word is a command exactly when it is that command's word, and
the match and mask of R91 say the same. -/
def Obligations.DecodeAgreesWithEncode : Prop :=
  ∀ (w : Word) (i : Instr),
    (decode w = .ok i ↔ encode i = w) ∧ (decode w = .ok i ↔ w &&& 0xFFFFFFFF = encode i) ∧ decode (encode i) = .ok i

/-! ## Reset (10_state.md R43, 70_reset_and_hazards.md section 1) -/

/-- R43, whole: State.reset, a hard reset and a soft reset from every state leave the table's values; ID and PARAM are
constants. -/
def Obligations.ResetLeavesTable : Prop :=
  AtResetValues State.reset ∧
    (∀ (s : State) (rest : List Event), ∃ t, step (s.withEnv (.reset :: rest)) = .next t ∧ AtResetValues t) ∧
    (∀ (s : State) (v : Word) (rest : List Event), v.getLsbD 1 = true →
      ∃ t, step (s.withEnv (.write 0x008 4 v :: rest)) = .next t ∧ AtResetValues t) ∧
    ∀ s : State, s.memRead 0x000 4 = .ok 0x4F545001 ∧
      ∃ p : Word, s.memRead 0x004 4 = .ok p ∧ p.extractLsb' 0 16 = BitVec.ofNat 16 s.cfg.keyMax ∧
        p.getLsbD 16 = s.cfg.hexUpperOk ∧ p.extractLsb' 17 15 = 0

/-- A soft reset has the effect of a hard reset in every state, busy, idle or fatal, is answered OKAY, withdraws a pending
RNG request, and later deliveries change nothing (R251, R252). That a late answer is a move of its own is the model's
choice (notes/assumptions/8.md). -/
def Obligations.SoftResetIsHardReset : Prop :=
  ∀ (s : State) (v : Word) (rest : List Event), v.getLsbD 1 = true →
    ∃ t u, step (s.withEnv (.write 0x008 4 v :: rest)) = .next t ∧ step (s.withEnv (.reset :: rest)) = .next u ∧
      t = { u with reply := .okay } ∧ t.cfg = s.cfg ∧ t.env = rest ∧ t.rngReq = false ∧
      ∀ (d : RngDelivery) (more : List Event),
        step (t.withEnv (.rng d :: more)) = .next (t.withEnv more) ∧
          step (t.withEnv (.rngLate d :: more)) = .next (t.withEnv more)

/-- The reset state satisfies the invariant. -/
def Obligations.ResetStateSatisfiesInvariant : Prop := State.reset.Inv

/-! ## The step (00_scope.md R10, 46_system.md section 1) -/

/-- The engine's step is `exec` of the latched command: with nothing listed, or where the list names the engine (R211). The
list is the model's (notes/assumptions/2.md, 3.md). -/
def Obligations.StepRunsLatchedCommand : Prop :=
  ∀ (s : State) (i : Instr), decode s.seq.cmd = .ok i → i.wf = true → s.status.busy = true →
    (s.seq.ph = .run ∨ (s.seq.ph = .rngwait ∧ ∃ a, s.rngq = .ans a)) →
    step (s.withEnv []) = exec i (s.withEnv []) ∧
      ∀ rest, step (s.withEnv (.engine :: rest)) = exec i (s.withEnv rest)

/-- A word placed by `withFetchWord` is run by the very next step (notes/assumptions/10.md). -/
def Obligations.PlacedWordRunsNext : Prop :=
  ∀ (s : State) (w : Nat) (i : Instr), w < 2 ^ 32 → decode (BitVec.ofNat 32 w) = .ok i →
    step (s.withFetchWord 32 w) = exec i ((s.withFetchWord 32 w).withEnv s.env)

/-- An idle engine changes nothing, and one that waits for a silent RNG waits for any number of steps, BUSY staying 1
(R169, R241). -/
def Obligations.SilentRngHangsCommand : Prop :=
  ∀ (s : State) (n : Nat),
    (s.status.busy = false → Host.Core.run core n (s.withEnv []) = .next (s.withEnv [])) ∧
      (s.status.busy = true → s.seq.ph = .rngwait → s.rngq = .pending →
        Host.Core.run core n (s.withEnv []) = .next (s.withEnv []) ∧ (s.withEnv []).status.busy = true)

/-- R210, whole: what an accepted CMD write does, and when it is refused; with R40, that `rng_req` is then 1 exactly where a
request has been made (outside the states of the invariant, where an idle state already has one pending). -/
def Obligations.IssueLatchesWord : Prop :=
  (∀ (s : State) (w : Word) (rest : List Event), s.status.busy = false → s.status.fatal = false →
    ∃ draws : Bool, (draws = true ↔ decode w = .ok .gen ∨ decode w = .ok .draw) ∧
      ∃ t, step (s.withEnv (.write 0x010 4 w :: rest)) = .next t ∧ t.irq = false ∧
        (draws = true → t.rngReq = true) ∧ (s.rngq = .none → t.rngReq = draws) ∧
        t = { s with
              status := { busy := true, done := false, ok := false, fatal := false, err := 0 }
              seq := { cmd := w, ph := if draws then .rngwait else .run }
              rngq := if draws then .pending else s.rngq
              reply := .okay
              env := rest }) ∧
    ∀ (s : State) (w : Word) (rest : List Event), s.status.busy = true ∨ s.status.fatal = true →
      ∃ e, step (s.withEnv (.write 0x010 4 w :: rest)) = .fault (.busError e)

/-- Every enabled completion step closes its command, legal or not: BUSY falls, DONE rises, the scratch registers are wiped,
the sequencer is idle, no request remains, irq is IE (R211, R216). -/
def Obligations.CompletionClosesCommand : Prop :=
  ∀ s : State, s.Inv → s.status.busy = true → (s.seq.ph = .run ∨ ∃ a, s.rngq = .ans a) →
    ∃ t, step (s.withEnv []) = .next t ∧ t.status.busy = false ∧ t.status.done = true ∧ t.scratch = Scratch.zero ∧
      t.seq = { cmd := s.seq.cmd, ph := .idle } ∧ t.rngq = .none ∧ t.ie = s.ie ∧ t.irq = s.ie ∧ t.cfg = s.cfg ∧
      t.reply = s.reply

/-- R214, whole: an illegal word is issued, makes no request, and completes with ERR_CMD, not fatal, touching nothing else;
a further word is then accepted. -/
def Obligations.IllegalWordCompletesWithErrCmd : Prop :=
  ∀ (s : State) (w : Word) (e : DecodeError), decode w = .error e → s.status.busy = false → s.status.fatal = false →
    ∃ u t, step (s.withEnv [.write 0x010 4 w]) = .next u ∧ u.status.busy = true ∧ u.rngq = s.rngq ∧ step u = .next t ∧
      t = { s with
            status := { busy := false, done := true, ok := false, fatal := false, err := 1 }
            scratch := Scratch.zero
            seq := { cmd := w, ph := .idle }
            rngq := .none
            reply := .okay
            env := [] } ∧
      ∀ v : Word, ∃ t', step (t.withEnv [.write 0x010 4 v]) = .next t'

/-- Every issued command completes, in the fixed number of steps its moves take, provided its RNG request, if it makes one,
is answered (R264). That a serial delivery of more than 16 bytes without an error indication is an answer at all is the
model's choice (notes/assumptions/7.md). -/
def Obligations.IssuedCommandCompletes : Prop :=
  ∀ (s : State) (w : Word) (d : RngDelivery), s.Inv → s.status.busy = false → s.status.fatal = false →
    (drawsRng w = false → ∃ t, Host.Core.run core 2 (s.withEnv [.write 0x010 4 w, .engine]) = .next t ∧
      t.status.busy = false ∧ t.status.done = true) ∧
    (drawsRng w = true → ∃ t, Host.Core.run core 3 (s.withEnv [.write 0x010 4 w, .rng d, .engine]) = .next t ∧
      t.status.busy = false ∧ t.status.done = true)

/-! ## The commands: results and frames -/

/-- NOP changes STATUS alone (R212). -/
def Obligations.NopChangesStatusOnly : Prop :=
  ∀ s : State, ∃ t, exec .nop s = .next t ∧ Ended s t true 0 ∧ KeepsCtrl s t ∧ KeepsLengths s t ∧ t.mem = s.mem

/-- MAC with a legal key writes the HMAC of NONCE into TAG and nothing else (R147, R145, R146). -/
def Obligations.MacWritesTag : Prop :=
  ∀ s : State, 1 ≤ s.keylen.toNat → s.keylen.toNat ≤ s.cfg.keyMax →
    ∃ t, exec .mac s = .next t ∧ t.tag = hmac s.keyBytes s.nonce ∧ Ended s t true 0 ∧ KeepsCtrl s t ∧
      KeepsLengths s t ∧ KeepsBytesOutside s t [.tag]

/-- MAC with KEYLEN out of range raises ERR_KEY, fatal, with TAG zero (R146, R147, R222). -/
def Obligations.MacRefusesBadKeylen : Prop :=
  ∀ s : State, s.keylen.toNat = 0 ∨ s.cfg.keyMax < s.keylen.toNat →
    ∃ t, exec .mac s = .next t ∧ IsZero t .tag ∧ Ended s t false 2 ∧ t.status.fatal = true ∧ KeepsCtrl s t ∧
      KeepsLengths s t ∧ KeepsBytesOutside s t [.tag]

/-- HASH writes the SHA-256 of the key buffer into TAG and nothing else; KEYLEN 0 is legal (R122, R119). -/
def Obligations.HashWritesDigest : Prop :=
  ∀ s : State, s.keylen.toNat ≤ s.cfg.keyMax →
    ∃ t, exec .hash s = .next t ∧ t.tag = sha256 s.keyBytes ∧ Ended s t true 0 ∧ KeepsCtrl s t ∧ KeepsLengths s t ∧
      KeepsBytesOutside s t [.tag]

/-- HASH with KEYLEN above KEY_MAX raises ERR_KEY, fatal, with TAG zero (R122, R222). -/
def Obligations.HashRefusesLongKeylen : Prop :=
  ∀ s : State, s.cfg.keyMax < s.keylen.toNat →
    ∃ t, exec .hash s = .next t ∧ IsZero t .tag ∧ Ended s t false 2 ∧ t.status.fatal = true ∧ KeepsCtrl s t ∧
      KeepsLengths s t ∧ KeepsBytesOutside s t [.tag]

/-- DRAW puts the RNG's 16 bytes into NONCE and changes nothing else (R171). -/
def Obligations.DrawStoresAnswer : Prop :=
  ∀ (s : State) (r : Vector Byte 16), s.rngq = .ans (.ok r) →
    ∃ t, exec .draw s = .next t ∧ t.nonce = r.toList ∧ Ended s t true 0 ∧ KeepsCtrl s t ∧ KeepsLengths s t ∧
      KeepsBytesOutside s t [.nonce]

/-- DRAW on a failed source raises ERR_RNG, fatal, with NONCE zero (R168, R171, R223). -/
def Obligations.DrawFailureIsFatal : Prop :=
  ∀ s : State, s.rngq = .ans .fail →
    ∃ t, exec .draw s = .next t ∧ IsZero t .nonce ∧ Ended s t false 3 ∧ t.status.fatal = true ∧ KeepsCtrl s t ∧
      KeepsLengths s t ∧ KeepsBytesOutside s t [.nonce]

/-- R183, whole: HEXE writes the 96 characters of `NONCE ‖ TAG`, two per byte, the high nibble's first (R177), and TOKLEN
96, and nothing else but STATUS. -/
def Obligations.HexeWritesToken : Prop :=
  decode 0x00000006 = .ok .hexe ∧ ∀ s : State, ∃ t, exec .hexe s = .next t ∧
    (∀ i < 48, t.token.getD (2 * i) 0 = hexChar ((s.btok.getD i 0).extractLsb' 4 4) ∧
      t.token.getD (2 * i + 1) 0 = hexChar ((s.btok.getD i 0).extractLsb' 0 4)) ∧
    t.toklen = 96 ∧ t.keylen = s.keylen ∧ Ended s t true 0 ∧ KeepsCtrl s t ∧ KeepsBytesOutside s t [.token]

/-- R184, whole: HEXD writes the decoded bytes into DEC whatever TOKLEN is (R179), OK is the structural verdict, and
nothing else changes but STATUS. -/
def Obligations.HexdWritesDec : Prop :=
  decode 0x00000007 = .ok .hexd ∧ ∀ s : State, ∃ t, exec .hexd s = .next t ∧
    (∀ i < 48, t.dec.getD i 0 =
      (hexValue s.cfg.hexUpperOk (s.token.getD (2 * i) 0)).1 ++
        (hexValue s.cfg.hexUpperOk (s.token.getD (2 * i + 1) 0)).1) ∧
    Ended s t (decide (s.toklen = 96 ∧ ∀ c ∈ s.token, (hexValue s.cfg.hexUpperOk c).2 = true)) 0 ∧
    KeepsCtrl s t ∧ KeepsLengths s t ∧ KeepsBytesOutside s t [.dec]

/-- R160, whole: CMP answers whether DEC equals `NONCE ‖ TAG`, every one of the 48 lanes, and changes STATUS alone. -/
def Obligations.CmpAnswersEquality : Prop :=
  decode 0x00000008 = .ok .cmp ∧ ∀ s : State, ∃ t, exec .cmp s = .next t ∧ Ended s t (decide (s.dec = s.nonce ++ s.tag)) 0 ∧ KeepsCtrl s t ∧
    KeepsLengths s t ∧ t.mem = s.mem

/-- WIPE zeroes every buffer and both length registers; CTRL stays (R213). -/
def Obligations.WipeZeroesBuffers : Prop :=
  ∀ s : State, ∃ t, exec .wipe s = .next t ∧ (∀ b : Buf, IsZero t b) ∧ t.keylen = 0 ∧ t.toklen = 0 ∧
    Ended s t true 0 ∧ KeepsCtrl s t ∧ KeepsBytesOutside s t [.nonce, .tag, .dec, .token, .key]

/-- GEN with an answered request and a legal key leaves nonce, tag and token (R190). -/
def Obligations.GenWritesToken : Prop :=
  ∀ (s : State) (r : Vector Byte 16), s.rngq = .ans (.ok r) → 1 ≤ s.keylen.toNat → s.keylen.toNat ≤ s.cfg.keyMax →
    ∃ t, exec .gen s = .next t ∧ t.nonce = r.toList ∧ t.tag = hmac s.keyBytes r.toList ∧
      t.token = hexEncode (t.nonce ++ t.tag) ∧ t.toklen = 96 ∧ t.keylen = s.keylen ∧ Ended s t true 0 ∧
      KeepsCtrl s t ∧ KeepsBytesOutside s t [.nonce, .tag, .token]

/-- A GEN that fails leaves no token and no part of one: ERR_RNG whatever KEYLEN is, else ERR_KEY (R190, R226, R168). -/
def Obligations.GenFailureLeavesNothing : Prop :=
  ∀ s : State, (s.rngq = .ans .fail ∨
      ∃ r, s.rngq = .ans (.ok r) ∧ (s.keylen.toNat = 0 ∨ s.cfg.keyMax < s.keylen.toNat)) →
    ∃ t, exec .gen s = .next t ∧ IsZero t .nonce ∧ IsZero t .tag ∧ IsZero t .token ∧ t.toklen = 0 ∧
      t.keylen = s.keylen ∧ Ended s t false (if s.rngq = .ans .fail then 3 else 2) ∧ t.status.fatal = true ∧
      KeepsCtrl s t ∧ KeepsBytesOutside s t [.nonce, .tag, .token]

/-- R191, whole: what a successful GEN guarantees of its token, and that the token is a function of the key and of the
RNG's answer. -/
def Obligations.GenTokenIsWellFormed : Prop :=
  (∀ (s : State) (r : Vector Byte 16), s.rngq = .ans (.ok r) → 1 ≤ s.keylen.toNat → s.keylen.toNat ≤ s.cfg.keyMax →
    ∃ t, exec .gen s = .next t ∧ t.status.ok = true ∧ t.toklen = 96 ∧
      (∀ c ∈ t.token, (0x30 ≤ c.toNat ∧ c.toNat ≤ 0x39) ∨ (0x61 ≤ c.toNat ∧ c.toNat ≤ 0x66)) ∧
      hexdec96 s.cfg.hexUpperOk t.token 96 = (t.nonce ++ t.tag, true) ∧ t.tag = hmac t.keyBytes t.nonce) ∧
    ∀ (s s' t t' : State) (r : Vector Byte 16), s.rngq = .ans (.ok r) → s'.rngq = .ans (.ok r) →
      s.keyOk = true → s'.keyOk = true → s.keyBytes = s'.keyBytes →
      exec .gen s = .next t → exec .gen s' = .next t' → t.token = t'.token

/-- GEN gives the state that DRAW, MAC and HEXE give one after another with the same answer, when none fails (R190). -/
def Obligations.GenIsDrawMacHexe : Prop :=
  ∀ (s t1 t2 t3 : State) (r : Vector Byte 16), s.rngq = .ans (.ok r) → s.keyOk = true →
    exec .draw s = .next t1 → exec .mac t1 = .next t2 → exec .hexe t2 = .next t3 → exec .gen s = .next t3

/-- VFY of a malformed token answers 0 with no error whatever KEYLEN is, and its buffers are zero (R193, R194). -/
def Obligations.VfyRejectsMalformedToken : Prop :=
  ∀ s : State, (s.toklen ≠ 96 ∨ ∃ c ∈ s.token, (hexValue s.cfg.hexUpperOk c).2 = false) →
    ∃ t, exec .vfy s = .next t ∧ Ended s t false 0 ∧ IsZero t .nonce ∧ IsZero t .tag ∧ IsZero t .dec ∧
      KeepsCtrl s t ∧ KeepsLengths s t ∧ KeepsBytesOutside s t [.nonce, .tag, .dec]

/-- VFY of a well-formed token with KEYLEN out of range raises ERR_KEY, fatal, its buffers zero (R193, R197). -/
def Obligations.VfyRaisesKeyError : Prop :=
  ∀ s : State, s.toklen = 96 → (∀ c ∈ s.token, (hexValue s.cfg.hexUpperOk c).2 = true) →
    (s.keylen.toNat = 0 ∨ s.cfg.keyMax < s.keylen.toNat) →
    ∃ t, exec .vfy s = .next t ∧ Ended s t false 2 ∧ t.status.fatal = true ∧ IsZero t .nonce ∧ IsZero t .tag ∧
      IsZero t .dec ∧ KeepsCtrl s t ∧ KeepsLengths s t ∧ KeepsBytesOutside s t [.nonce, .tag, .dec]

/-- VFY of a well-formed token under a legal key answers whether the token's tag is the HMAC of its nonce, its buffers
zero (R193). -/
def Obligations.VfyAnswersVerdict : Prop :=
  ∀ s : State, s.toklen = 96 → (∀ c ∈ s.token, (hexValue s.cfg.hexUpperOk c).2 = true) →
    1 ≤ s.keylen.toNat → s.keylen.toNat ≤ s.cfg.keyMax →
    ∃ t, exec .vfy s = .next t ∧
      Ended s t (decide ((hexDecode s.cfg.hexUpperOk s.token).drop 16 =
        hmac s.keyBytes ((hexDecode s.cfg.hexUpperOk s.token).take 16))) 0 ∧
      IsZero t .nonce ∧ IsZero t .tag ∧ IsZero t .dec ∧ KeepsCtrl s t ∧ KeepsLengths s t ∧
      KeepsBytesOutside s t [.nonce, .tag, .dec]

/-- R196, whole: what acceptance means. -/
def Obligations.VfyAcceptsExactlyValidTokens : Prop :=
  ∀ s : State, ∃ t, exec .vfy s = .next t ∧
    (t.status.ok = true ↔
      s.toklen = 96 ∧ (∀ c ∈ s.token, (hexValue s.cfg.hexUpperOk c).2 = true) ∧
        1 ≤ s.keylen.toNat ∧ s.keylen.toNat ≤ s.cfg.keyMax ∧
        ∃ x, hexdec96 s.cfg.hexUpperOk s.token 96 = (x, true) ∧ x.drop 16 = hmac s.keyBytes (x.take 16))

/-- R195, whole: a VFY without error leaves NONCE, TAG and DEC zero, its arguments as they were, and of the verdict the bit
OK alone; so two of them that answer the same bit leave the same STATUS, scratch, sequencer and working buffers, whatever
the tokens, the keys and the buffers were. -/
def Obligations.VfyRevealsOneBit : Prop :=
  (∀ s t : State, exec .vfy s = .next t → t.status.err = 0 →
    t.status = { busy := false, done := true, ok := t.status.ok, fatal := s.status.fatal, err := 0 } ∧
      IsZero t .nonce ∧ IsZero t .tag ∧ IsZero t .dec ∧ t.token = s.token ∧ t.toklen = s.toklen ∧
      t.keylen = s.keylen ∧ t.buf .key = s.buf .key ∧ t.ie = s.ie ∧ t.cfg = s.cfg ∧
      KeepsBytesOutside s t [.nonce, .tag, .dec]) ∧
  ∀ s s' t t' : State, exec .vfy s = .next t → exec .vfy s' = .next t' → t.status.err = 0 → t'.status.err = 0 →
    s.status.fatal = s'.status.fatal → s.seq.cmd = s'.seq.cmd → t.status.ok = t'.status.ok →
    t.status = t'.status ∧ t.scratch = t'.scratch ∧ t.seq = t'.seq ∧ t.rngq = t'.rngq ∧ t.nonce = t'.nonce ∧
      t.tag = t'.tag ∧ t.dec = t'.dec

/-- R198, whole: the token of a completed GEN is accepted by a VFY in every later state that has the same TOKEN, TOKLEN, KEY
and KEYLEN. And the same through the register port: with a legal key loaded, a GEN whose request is answered and then a
VFY. -/
def Obligations.GeneratedTokenVerifies : Prop :=
  (∀ (s t u : State) (a : RngAnswer), s.rngq = .ans a → exec .gen s = .next t → t.status.ok = true →
    u.token = t.token → u.toklen = t.toklen → u.keylen = t.keylen → u.buf .key = t.buf .key → u.cfg = t.cfg →
    ∃ w, exec .vfy u = .next w ∧ w.status.ok = true ∧ w.status.err = 0) ∧
  ∀ (s : State) (d : RngDelivery) (r : Vector Byte 16), s.status.busy = false → s.status.fatal = false →
    1 ≤ s.keylen.toNat → s.keylen.toNat ≤ s.cfg.keyMax → d.answer = .ok r →
    ∃ t, Host.Core.run core 5
        (s.withEnv [.write 0x010 4 0x00000001, .rng d, .engine, .write 0x010 4 0x00000002, .engine]) = .next t ∧
      t.status = { busy := false, done := true, ok := true, fatal := false, err := 0 }

/-- The certain cases of R199: in an accepted token, a character of the tag that is changed to another digit or to no digit,
or any character changed to no digit, makes VFY answer 0. -/
def Obligations.TamperedTagIsRejected : Prop :=
  ∀ (s t : State) (p : Nat) (c : Byte), exec .vfy s = .next t → t.status.ok = true → p < 96 →
    ((32 ≤ p ∧ hexValue s.cfg.hexUpperOk c ≠ hexValue s.cfg.hexUpperOk (s.token.getD p 0)) ∨
      (hexValue s.cfg.hexUpperOk c).2 = false) →
    ∃ t', exec .vfy (s.setBuf .token (s.token.set p c)) = .next t' ∧ t'.status.ok = false ∧ t'.status.err = 0

/-- Keys of at most 64 bytes that differ only by trailing zero bytes give the same tag, and bytes of KEY at and above KEYLEN
influence no keyed result (R148). -/
def Obligations.KeyTailDoesNotMatter : Prop :=
  (∀ (k r : List Byte) (n : Nat), k.length + n ≤ 64 → hmac (k ++ zeros n) r = hmac k r) ∧
    ∀ (s t t' : State) (i : Instr) (a : Nat) (v : Byte), i = .mac ∨ i = .hash ∨ i = .gen ∨ i = .vfy →
      0x100 + s.keylen.toNat ≤ a →
      exec i s = .next t → exec i { s with mem := s.mem.write a v } = .next t' →
      t.tag = t'.tag ∧ t.token = t'.token ∧ t.status = t'.status

/-! ## The units -/

/-- R118, whole: a padded message is whole blocks, as many as the rule counts, the message first, `0x80`, then the least
number of zero bytes, `(55 - L) mod 64`, then the bit length in 8 bytes. -/
def Obligations.PaddingHasStatedShape : Prop :=
  ∀ m : List Byte, m.length < 2 ^ 61 →
    (pad m).length = 64 * ((m.length + 8) / 64 + 1) ∧ (pad m).take m.length = m ∧ (pad m).getD m.length 0 = 0x80 ∧
      (∀ i, m.length < i → i < (pad m).length - 8 → (pad m).getD i 0 = 0) ∧
      (pad m).drop ((pad m).length - 8) = be64 (BitVec.ofNat 64 (8 * m.length)) ∧
      (BitVec.ofNat 64 (8 * m.length)).toNat = 8 * m.length ∧
      ∃ k, (pad m).length = m.length + 1 + k + 8 ∧ (k : Int) = (55 - (m.length : Int)) % 64 ∧
        (m.length + 1 + k) % 64 = 56 ∧
        ∀ k', (m.length + 1 + k') % 64 = 56 → k ≤ k'

/-- R144, whole: the four blocks of an HMAC, each pass from `IV`. -/
def Obligations.HmacCompressesFourBlocks : Prop :=
  ∀ k0 r ih : List Byte, k0.length = 64 → r.length = 16 → ih.length = 32 →
    pad (k0.map (· ^^^ 0x36) ++ r) =
        k0.map (· ^^^ 0x36) ++ (r ++ [0x80] ++ zeros 39 ++ [0, 0, 0, 0, 0, 0, 0x02, 0x80]) ∧
      pad (k0.map (· ^^^ 0x5C) ++ ih) =
        k0.map (· ^^^ 0x5C) ++ (ih ++ [0x80] ++ zeros 23 ++ [0, 0, 0, 0, 0, 0, 0x03, 0x00]) ∧
      innerHash k0 r =
        digest (compress (compress iv (k0.map (· ^^^ 0x36)))
          (r ++ [0x80] ++ zeros 39 ++ [0, 0, 0, 0, 0, 0, 0x02, 0x80])) ∧
      outerHash k0 ih =
        digest (compress (compress iv (k0.map (· ^^^ 0x5C)))
          (ih ++ [0x80] ++ zeros 23 ++ [0, 0, 0, 0, 0, 0, 0x03, 0x00]))

/-- The sliding window of sixteen registers serves all 64 rounds: before round `t` the word it offers is `W[t]` of the
schedule of BLK (R115, R123). -/
def Obligations.WindowOffersSchedule : Prop :=
  ∀ (sc : Scratch) (t : Nat), t < 64 →
    (Scratch.roundStep^[t] sc.compressInit).nextW t = (schedule sc.blk.toList).getD t 0 ∧
      (Scratch.roundStep^[t] sc.compressInit).t.toNat = t

/-- R155: the gate answers 1 exactly when every bit of every lane agrees. -/
def Obligations.ComparatorIsEquality : Prop :=
  ∀ a b : List Byte, a.length = 48 → b.length = 48 →
    (cteq48 a b = true ↔ ∀ i < 48, a.getD i 0 = b.getD i 0)

/-- With NONCE loaded from DEC, the 48-lane gate is the 32-byte comparison of the tags (R158). -/
def Obligations.VerifyComparesTagsOnly : Prop :=
  ∀ s : State, s.nonce = s.dec.take 16 → (cteq48 s.dec s.btok = true ↔ s.dec.drop 16 = s.tag)

/-- R182, whole: the round trips of the hex units; with `HEX_UPPER_OK` a token encodes back to its lowercase form, and
tokens that differ only in the case of letter digits decode to the same bytes. -/
def Obligations.HexRoundTrips : Prop :=
  let lower : Byte → Byte := fun c => if 0x41 ≤ c.toNat ∧ c.toNat ≤ 0x46 then c + 0x20 else c
  (∀ (u : Bool) (x : List Byte), x.length = 48 → hexdec96 u (hexEncode x) 96 = (x, true)) ∧
    (∀ x y : List Byte, y.length = 96 → hexdec96 false y 96 = (x, true) → hexEncode x = y) ∧
    (∀ x y : List Byte, y.length = 96 → hexdec96 true y 96 = (x, true) → hexEncode x = y.map lower) ∧
    ∀ y y' : List Byte, y.length = 96 → y'.length = 96 → y.map lower = y'.map lower →
      hexdec96 true y 96 = hexdec96 true y' 96

/-- R170, whole, with R165's all-or-nothing for short and failed deliveries: byte `i` of the answer, on either form of the
port, and that DRAW stores byte `i` in `NONCE[i]`. -/
def Obligations.RngBytesKeepTheirOrder : Prop :=
  (∀ data : BitVec 128, ∃ r : Vector Byte 16, (RngDelivery.parallel data false).answer = .ok r ∧
      ∀ i < 16, r.toList.getD i 0 = data.extractLsb' (120 - 8 * i) 8) ∧
    (∀ bytes : List Byte, bytes.length = 16 → ∃ r : Vector Byte 16,
      (RngDelivery.serial bytes false).answer = .ok r ∧ r.toList = bytes) ∧
    (∀ (bytes : List Byte) (data : BitVec 128), (RngDelivery.serial bytes true).answer = .fail ∧
      (RngDelivery.parallel data true).answer = .fail) ∧
    (∀ bytes : List Byte, bytes.length < 16 → (RngDelivery.serial bytes false).answer = .fail) ∧
    ∀ (s t : State) (r : Vector Byte 16), s.rngq = .ans (.ok r) → exec .draw s = .next t →
      ∀ i < 16, t.mem.read (0x020 + i) = r.toList.getD i 0

/-- The RNG agent turns `pending` into an answer and touches nothing else; a delivery with nothing pending changes nothing
(R39, R165); `rng_req` is 1 exactly while the request is pending, and falls with the answer (R40). That a serial delivery
of more than 16 bytes without an error indication is an answer at all is the model's choice (notes/assumptions/7.md). -/
def Obligations.RngAnswersPendingRequest : Prop :=
  ∀ (s : State) (d : RngDelivery) (rest : List Event),
    (s.rngReq = true ↔ s.rngq = .pending) ∧
      (s.rngq = .pending →
        ∃ t, step (s.withEnv (.rng d :: rest)) = .next t ∧ t.rngReq = false ∧
          t = { s with rngq := .ans d.answer, env := rest }) ∧
      (s.rngq ≠ .pending → step (s.withEnv (.rng d :: rest)) = .next (s.withEnv rest))

/-! ## The register port (20_memory.md) -/

/-- The address map of R62 on every offset. -/
def Obligations.AddressMapIsStated : Prop :=
  ∀ (c : Config) (a : Nat),
    target c a =
      if a < 0x004 then some .id else if a < 0x008 then some .param else if a < 0x00C then some .ctrl
      else if a < 0x010 then some .status else if a < 0x014 then some .cmd else if a < 0x018 then some .keylen
      else if a < 0x01C then some .toklen else if a < 0x020 then none else if a < 0x030 then some (.buf .nonce)
      else if a < 0x040 then none else if a < 0x060 then some (.buf .tag) else if a < 0x090 then some (.buf .dec)
      else if a < 0x0A0 then none else if a < 0x100 then some (.buf .token)
      else if a < 0x100 + c.keyMax then some (.buf .key) else none

/-- R225, whole: a host transaction is answered ERROR in exactly the five cases (a) to (e); ERROR is the fault of the step (R61). -/
def Obligations.BusErrorInExactlyFiveCases : Prop :=
  ∀ (s : State) (addr : BitVec 12) (n : Nat) (v : Word) (rest : List Event),
    let a := addr.toNat
    let bad := n ≠ 4 ∨ a % 4 ≠ 0
    let hole := (0x01C ≤ a ∧ a < 0x020) ∨ (0x030 ≤ a ∧ a < 0x040) ∨ (0x090 ≤ a ∧ a < 0x0A0) ∨ 0x100 + s.cfg.keyMax ≤ a
    ((∃ e, step (s.withEnv (.read addr n :: rest)) = .fault (.busError e)) ↔
      bad ∨ hole ∨ (s.status.busy = true ∧ a ≠ 0x000 ∧ a ≠ 0x004 ∧ a ≠ 0x008 ∧ a ≠ 0x00C)) ∧
    ((∃ e, step (s.withEnv (.write addr n v :: rest)) = .fault (.busError e)) ↔
      bad ∨ hole ∨ a = 0x000 ∨ a = 0x004 ∨ (s.status.busy = true ∧ a ≠ 0x008) ∨
        (s.status.fatal = true ∧ a = 0x010))

/-- Reads, by register: ID, PARAM, CTRL and STATUS in every state, busy or not (R24, R69), the others while idle; and that a
read changes nothing (R67, R65, R33, R22). -/
def Obligations.ReadsReturnRegisters : Prop :=
  ∀ s : State,
    s.memRead 0x000 4 = .ok 0x4F545001 ∧
      (s.cfg.wf = true →
        ∃ w, s.memRead 0x004 4 = .ok w ∧ w.toNat = s.cfg.keyMax + 65536 * s.cfg.hexUpperOk.toNat) ∧
      s.memRead 0x008 4 = .ok (if s.ie then 1 else 0) ∧
      (∃ w, s.memRead 0x00C 4 = .ok w ∧
        w.toNat = s.status.busy.toNat + 2 * s.status.done.toNat + 4 * s.status.ok.toNat + 8 * s.status.fatal.toNat +
          256 * s.status.err.toNat) ∧
      (s.status.busy = false →
        s.memRead 0x010 4 = .ok 0 ∧
          (∃ w, s.memRead 0x014 4 = .ok w ∧ w.toNat = s.keylen.toNat) ∧
          s.memRead 0x018 4 = .ok s.toklen) ∧
      (s.cfg.wf = true → s.status.busy = false →
        (∀ (b : Buf) (j : Nat), b ≠ .key → 4 * j < b.size s.cfg →
          s.memRead (BitVec.ofNat 12 (b.base + 4 * j)) 4 =
            .ok (be32 ((s.buf b).getD (4 * j) 0) ((s.buf b).getD (4 * j + 1) 0) ((s.buf b).getD (4 * j + 2) 0)
              ((s.buf b).getD (4 * j + 3) 0))) ∧
          ∀ j, 4 * j < s.cfg.keyMax → s.memRead (BitVec.ofNat 12 (0x100 + 4 * j)) 4 = .ok 0) ∧
      ∀ (addr : BitVec 12) (n : Nat) (w : Word) (rest : List Event), s.memRead addr n = .ok w →
        step (s.withEnv (.read addr n :: rest)) = .next { s with reply := .data w, env := rest }

/-- A word written to a buffer sets its four bytes, the most significant first, and nothing else; it reads back, but from
KEY as 0 (R65, R68, R33). -/
def Obligations.BufferWordsReadBack : Prop :=
  ∀ (s : State) (b : Buf) (j : Nat) (v : Word) (rest : List Event), s.cfg.wf = true → s.status.busy = false →
    4 * j < b.size s.cfg →
    ∃ t, step (s.withEnv (.write (BitVec.ofNat 12 (b.base + 4 * j)) 4 v :: rest)) = .next t ∧
      t = { s with mem := t.mem, reply := .okay, env := rest } ∧
      (∀ a, t.mem.read a =
        if a = b.base + 4 * j then v.extractLsb' 24 8 else if a = b.base + 4 * j + 1 then v.extractLsb' 16 8
        else if a = b.base + 4 * j + 2 then v.extractLsb' 8 8 else if a = b.base + 4 * j + 3 then v.extractLsb' 0 8
        else s.mem.read a) ∧
      t.memRead (BitVec.ofNat 12 (b.base + 4 * j)) 4 = .ok (if b = .key then 0 else v)

/-- The length registers store 16 and 32 bits, any value, and read back; nothing else changes (R27, R28, R68). -/
def Obligations.LengthRegistersStore : Prop :=
  ∀ (s : State) (v : Word) (rest : List Event), s.status.busy = false →
    step (s.withEnv (.write 0x014 4 v :: rest)) =
        .next { s with keylen := v.extractLsb' 0 16, reply := .okay, env := rest } ∧
      step (s.withEnv (.write 0x018 4 v :: rest)) = .next { s with toklen := v, reply := .okay, env := rest }

/-- R23, whole: CTRL is written in every state, busy or not; bit 1 resets and discards the rest, else IE is stored; SRST
and the reserved bits read 0; `irq` is IE and DONE. -/
def Obligations.CtrlWriteStoresIeOrResets : Prop :=
  ∀ (s : State) (v : Word) (rest : List Event),
    (v.getLsbD 1 = false →
      step (s.withEnv (.write 0x008 4 v :: rest)) = .next { s with ie := v.getLsbD 0, reply := .okay, env := rest }) ∧
      (v.getLsbD 1 = true → ∃ t, step (s.withEnv (.write 0x008 4 v :: rest)) = .next t ∧ AtResetValues t) ∧
      s.memRead 0x008 4 = .ok (if s.ie then 1 else 0) ∧ s.irq = (s.ie && s.status.done)

/-- A write to STATUS clears DONE by a 1 in bit 1 and changes nothing else; while busy it is an error (R25). -/
def Obligations.StatusWriteClearsDone : Prop :=
  ∀ (s : State) (v : Word) (rest : List Event),
    (s.status.busy = false → v.getLsbD 1 = true →
      step (s.withEnv (.write 0x00C 4 v :: rest)) =
        .next { s with status := { s.status with done := false }, reply := .okay, env := rest }) ∧
      (s.status.busy = false → v.getLsbD 1 = false →
        step (s.withEnv (.write 0x00C 4 v :: rest)) = .next { s with reply := .okay, env := rest }) ∧
      (s.status.busy = true → step (s.withEnv (.write 0x00C 4 v :: rest)) = .fault (.busError .busy))

/-- What the port answers to a read does not depend on any byte of KEY (R33, R236). -/
def Obligations.KeyBytesAreNotReadable : Prop :=
  ∀ (s : State) (m : Memory) (addr : BitVec 12) (n : Nat),
    (∀ a, ¬ (0x100 ≤ a ∧ a < 0x100 + s.cfg.keyMax) → m.read a = s.mem.read a) →
    ({ s with mem := m } : State).memRead addr n = s.memRead addr n

/-- The key is immutable while a command runs: a step from a busy state leaves KEY and KEYLEN, but where its move is a hard
reset, a write of 1 to SRST, or the engine's, which completes WIPE and leaves both zero (R257, R69, R213). -/
def Obligations.KeyImmutableWhileBusy : Prop :=
  ∀ s t : State, s.status.busy = true → step s = .next t →
    (t.keylen = s.keylen ∧ t.buf .key = s.buf .key) ∨
      (∃ rest, s.env = .reset :: rest ∧ AtResetValues t) ∨
      (∃ v rest, s.env = .write 0x008 4 v :: rest ∧ v.getLsbD 1 = true ∧ AtResetValues t) ∨
      ((s.env = [] ∨ ∃ rest, s.env = .engine :: rest) ∧ decode s.seq.cmd = .ok .wipe ∧ t.status.busy = false ∧
        t.status.done = true ∧ t.keylen = 0 ∧ IsZero t .key)

/-- No command but WIPE writes KEY or KEYLEN (R33, R27). -/
def Obligations.OnlyWipeWritesKey : Prop :=
  ∀ (i : Instr) (s t : State), exec i s = .next t → i ≠ .wipe → t.keylen = s.keylen ∧ t.buf .key = s.buf .key

/-! ## Invariants -/

/-- Every step keeps the invariant and the instance's parameters. -/
def Obligations.StepKeepsInvariant : Prop :=
  ∀ s t : State, s.Inv → step s = .next t → t.Inv ∧ t.cfg = s.cfg

/-- FATAL is a latch: a step from a fatal state leaves FATAL and ERR as they are unless its move is a hard reset or a write
of 1 to SRST, and every CMD write is refused (R229, R70). -/
def Obligations.FatalStaysUntilReset : Prop :=
  ∀ s : State, s.Inv → s.status.fatal = true →
    (∀ t, step s = .next t →
      (t.status.fatal = true ∧ t.status.err = s.status.err ∧ t.status.busy = false) ∨
        (∃ rest, s.env = .reset :: rest ∧ AtResetValues t) ∨
        ∃ v rest, s.env = .write 0x008 4 v :: rest ∧ v.getLsbD 1 = true ∧ AtResetValues t) ∧
    ∀ (w : Word) (rest : List Event), step (s.withEnv (.write 0x010 4 w :: rest)) = .fault (.busError .fatal)

/-! ## Traces (70_reset_and_hazards.md section 4) -/

/-- The micro-operations that a command's meaning performs are those of the table of R265, and its meaning is the state that
they reach. The rows' prefixes while the RNG is silent are the model's (notes/assumptions/13.md). -/
def Obligations.TraceFollowsTable : Prop :=
  (∀ (i : Instr) (s : State), exec i s = .next (runOf i s).st ∧ (runOf i s).trace = traceTable i s.facts) ∧
    ∀ s : State, (runIllegal s).trace = [.issue, .finish]

/-- Constant time: the labels performed, and so the duration under any costs, are the same for two states with the same
facts, whatever the bytes of KEY, NONCE, TAG, DEC and TOKEN; for every command but HASH `N(KEYLEN)` counts among the facts
only where the key is longer than 64 bytes; an accepting and a rejecting VFY of well-formed tokens under
legal keys of one length take the same time, and all malformed tokens take the same (R266, R200). That HASH also reads
`N(KEYLEN)` in the class `1..64` is the model's reading (notes/assumptions/14.md). -/
def Obligations.DurationHidesSecrets : Prop :=
  (∀ (i : Instr) (s s' : State) (k : Costs), s.facts = s'.facts →
    (runOf i s).trace = (runOf i s').trace ∧
      duration k (runOf i s).trace = duration k (runOf i s').trace) ∧
    (∀ (i : Instr) (s s' : State) (k : Costs), i ≠ .hash → s.decoded.2 = s'.decoded.2 →
      keyClass s.cfg s.keylen.toNat = keyClass s'.cfg s'.keylen.toNat → s.rngq.kind = s'.rngq.kind →
      (keyClass s.cfg s.keylen.toNat = .long → blockCount s.keylen.toNat = blockCount s'.keylen.toNat) →
      (runOf i s).trace = (runOf i s').trace ∧
        duration k (runOf i s).trace = duration k (runOf i s').trace) ∧
    (∀ (s s' : State) (k : Costs), s.decoded.2 = true → s'.decoded.2 = true → s.keyOk = true → s'.keyOk = true →
      s.keylen = s'.keylen → duration k (runVfy s).trace = duration k (runVfy s').trace) ∧
    ∀ (s s' : State) (k : Costs), s.decoded.2 = false → s'.decoded.2 = false →
      duration k (runVfy s).trace = duration k (runVfy s').trace

/-! ## Host scripts (30_encoding.md section 4) -/

/-- WAIT (R96): on an idle OTPE one read of STATUS is its result; on one whose completion step is enabled it ends in the state
of that step, the completion of the latched command (R211), with its STATUS as the result, BUSY clear and DONE set, however
many reads it is allowed beyond the two it makes; with a silent RNG it never ends (R169). That the engine moves once between two reads is the model's choice (notes/assumptions/18.md). -/
def Obligations.WaitEndsWhenBusyClears : Prop :=
  ∀ x : Session, x.st.Inv →
    (x.st.status.busy = false → ∀ n,
      x.poll (n + 1) = some (.data x.st.status.word, { x with st := { x.st with reply := .data x.st.status.word } })) ∧
      (x.st.status.busy = true → (x.st.seq.ph = .run ∨ ∃ a, x.st.rngq = .ans a) →
        x.poll 1 = none ∧
          ∃ t : State, engineStep x.st = .next t ∧ t.status.busy = false ∧ t.status.done = true ∧
            t.status.word.getLsbD 0 = false ∧
            (∀ i, decode x.st.seq.cmd = .ok i → exec i x.st = .next t) ∧
            ∀ n, x.poll (n + 2) =
              some (.data t.status.word, { x with st := { t with reply := .data t.status.word } })) ∧
      (x.st.rngq = .pending → ∀ n, x.poll n = none)

/-- READ (R96): on an idle OTPE the statement reads every word of the buffer, its result is the buffer's byte array, or as
many zero bytes for KEY (R65, R33), and nothing but the model's own reply field changes. -/
def Obligations.ReadStatementReturnsBuffer : Prop :=
  ∀ (x : Session) (b : Buf) (polls : Nat), x.st.cfg.wf = true → x.st.status.busy = false →
    ∃ rs y, x.runStatement polls (.readBuf b) = some (rs, y) ∧ rs.length = b.size x.st.cfg / 4 ∧
      readResult rs = (if b = .key then zeros x.st.cfg.keyMax else x.st.buf b) ∧
      y = { x with st := { x.st with reply := y.st.reply } }
end

