-- ==== Sys2Proof/Laws/Memory.lean ====
section
/-!
SUPPORT. The laws of the buffers' bytes: a read after a write, the canonical form, whole arrays of bytes, and that two
memories in canonical form with the same bytes are equal.
-/

namespace Sys2Proof.Machine

/-! ## One byte -/

theorem cellsRead_filter_ne (a b : Nat) (cs : List Host.Cell) :
    cellsRead b (cs.filter fun c => c.1 != a) = if b = a then Memory.blank else cellsRead b cs := by
  induction cs with
  | nil => simp [cellsRead]
  | cons c cs ih =>
    by_cases hca : c.1 = a
    · by_cases hba : b = a
      · simpa [List.filter_cons, hca, hba] using ih
      · simp only [List.filter_cons, hca, bne_self_eq_false, Bool.false_eq_true, if_false, ih, cellsRead]
        rw [if_neg (Ne.symm hba), if_neg hba]
    · simp only [List.filter_cons, bne_iff_ne, ne_eq, hca, not_false_eq_true, if_true, cellsRead, ih]
      by_cases hcb : c.1 = b
      · have : b ≠ a := fun h => hca (hcb.trans h)
        simp [hcb, this]
      · simp [hcb]

theorem cellsRead_insert (c : Host.Cell) (b : Nat) (cs : List Host.Cell) (h : ∀ d ∈ cs, d.1 ≠ c.1) :
    cellsRead b (cellsInsert c cs) = if b = c.1 then c.2 else cellsRead b cs := by
  induction cs with
  | nil => simp [cellsInsert, cellsRead, eq_comm]
  | cons d ds ih =>
    have hd : d.1 ≠ c.1 := h d (by simp)
    have ih' := ih fun e he => h e (by simp [he])
    unfold cellsInsert
    split
    · simp only [cellsRead, ih']
      by_cases hdb : d.1 = b
      · simp [hdb, show b ≠ c.1 from hdb ▸ hd]
      · simp [hdb]
    · simp [cellsRead, eq_comm]

/-- A byte read after one write. -/
theorem Memory.read_write (m : Memory) (a b : Nat) (v : Byte) :
    (m.write a v).read b = if b = a then v else m.read b := by
  unfold Memory.read Memory.write cellsWrite
  dsimp only
  split
  · rename_i hv
    rw [cellsRead_filter_ne]
    split <;> simp [hv]
  · rw [cellsRead_insert _ _ _ (by simp), cellsRead_filter_ne]
    by_cases h : b = a <;> simp [h]

/-! ## The canonical form -/

theorem cellsInsert_mem (c e : Host.Cell) (cs : List Host.Cell) : e ∈ cellsInsert c cs ↔ e = c ∨ e ∈ cs := by
  induction cs with
  | nil => simp [cellsInsert]
  | cons d ds ih =>
    unfold cellsInsert
    split
    · simp only [List.mem_cons, ih]; tauto
    · simp

theorem cellsInsert_sorted (c : Host.Cell) (cs : List Host.Cell) (hs : cs.Pairwise fun c d => c.1 < d.1)
    (h : ∀ d ∈ cs, d.1 ≠ c.1) : (cellsInsert c cs).Pairwise fun c d => c.1 < d.1 := by
  induction cs with
  | nil => simp [cellsInsert]
  | cons d ds ih =>
    have hd : d.1 ≠ c.1 := h d (by simp)
    rw [List.pairwise_cons] at hs
    unfold cellsInsert
    split
    · rename_i hlt
      refine List.pairwise_cons.2 ⟨fun e he => ?_, ih hs.2 fun e he => h e (by simp [he])⟩
      rcases (cellsInsert_mem c e ds).1 he with rfl | he
      · exact hlt
      · exact hs.1 e he
    · rename_i hlt
      refine List.pairwise_cons.2 ⟨fun e he => ?_, List.pairwise_cons.2 hs⟩
      rcases List.mem_cons.1 he with rfl | he
      · omega
      · have := hs.1 e he
        omega

/-- Every byte write keeps the canonical form. -/
theorem Memory.write_wf (m : Memory) (a : Nat) (v : Byte) (h : m.wf) : (m.write a v).wf := by
  have hf : (m.cells.filter fun c => c.1 != a).Pairwise fun c d => c.1 < d.1 := h.1.sublist List.filter_sublist
  have hb : ∀ c ∈ m.cells.filter fun c => c.1 != a, c.2 ≠ Memory.blank := fun c hc =>
    h.2 c (List.mem_of_mem_filter hc)
  unfold Memory.write cellsWrite
  dsimp only
  split
  · exact ⟨hf, hb⟩
  · rename_i hv
    refine ⟨cellsInsert_sorted _ _ hf (by simp), fun c hc => ?_⟩
    rcases (cellsInsert_mem _ c _).1 hc with rfl | hc
    · exact hv
    · exact hb c hc

/-- The cells a byte write can add. -/
theorem Memory.write_mem (m : Memory) (a : Nat) (v : Byte) (c : Host.Cell) (h : c ∈ (m.write a v).cells) :
    c.1 = a ∨ c ∈ m.cells := by
  unfold Memory.write cellsWrite at h
  dsimp only at h
  split at h
  · exact .inr (List.mem_of_mem_filter h)
  · rcases (cellsInsert_mem _ c _).1 h with rfl | h
    · exact .inl rfl
    · exact .inr (List.mem_of_mem_filter h)

theorem cellsRead_of_lt (a : Nat) (cs : List Host.Cell) (h : ∀ c ∈ cs, a < c.1) : cellsRead a cs = Memory.blank := by
  induction cs with
  | nil => rfl
  | cons c cs ih =>
    have := h c (by simp)
    rw [cellsRead, if_neg (by omega)]
    exact ih fun d hd => h d (by simp [hd])

theorem cells_ext (cs ds : List Host.Cell) (hc : cs.Pairwise fun c d => c.1 < d.1)
    (hcb : ∀ c ∈ cs, c.2 ≠ Memory.blank) (hd : ds.Pairwise fun c d => c.1 < d.1)
    (hdb : ∀ c ∈ ds, c.2 ≠ Memory.blank) (h : ∀ a, cellsRead a cs = cellsRead a ds) : cs = ds := by
  induction cs generalizing ds with
  | nil =>
    cases ds with
    | nil => rfl
    | cons d ds =>
      have := h d.1
      simp only [cellsRead, if_true] at this
      exact absurd this.symm (hdb d (by simp))
  | cons c cs ih =>
    cases ds with
    | nil =>
      have := h c.1
      simp only [cellsRead, if_true] at this
      exact absurd this (hcb c (by simp))
    | cons d ds =>
      rw [List.pairwise_cons] at hc hd
      have key : c.1 = d.1 := by
        rcases Nat.lt_trichotomy c.1 d.1 with hlt | heq | hgt
        · have h1 := h c.1
          rw [cellsRead_of_lt c.1 (d :: ds) (by
            intro e he
            rcases List.mem_cons.1 he with rfl | he
            · exact hlt
            · exact hlt.trans (hd.1 e he))] at h1
          simp only [cellsRead, if_true] at h1
          exact absurd h1 (hcb c (by simp))
        · exact heq
        · have h1 := h d.1
          rw [cellsRead_of_lt d.1 (c :: cs) (by
            intro e he
            rcases List.mem_cons.1 he with rfl | he
            · exact hgt
            · exact hgt.trans (hc.1 e he))] at h1
          simp only [cellsRead, if_true] at h1
          exact absurd h1.symm (hdb d (by simp))
      have hv : c.2 = d.2 := by
        have h1 := h c.1
        simpa [cellsRead, key] using h1
      have htail : cs = ds := by
        refine ih ds hc.2 (fun e he => hcb e (by simp [he])) hd.2 (fun e he => hdb e (by simp [he])) fun a => ?_
        have h1 := h a
        simp only [cellsRead, ← key, hv] at h1
        by_cases ha : c.1 = a
        · rw [cellsRead_of_lt a cs fun e he => ha ▸ hc.1 e he,
            cellsRead_of_lt a ds fun e he => ha ▸ key ▸ hd.1 e he]
        · simpa [ha] using h1
      rw [htail, show c = d from Prod.ext key hv]

/-- Two memories in canonical form with the same bytes are equal. -/
theorem Memory.ext_read (m n : Memory) (hm : m.wf) (hn : n.wf) (h : ∀ a, m.read a = n.read a) : m = n := by
  cases m; cases n
  exact congrArg Memory.mk (cells_ext _ _ hm.1 hm.2 hn.1 hn.2 h)

/-! ## Arrays of bytes -/

/-- A byte read after a write of an array. -/
theorem Memory.read_writeBytes (m : Memory) (a b : Nat) (bs : List Byte) :
    (m.writeBytes a bs).read b = if a ≤ b ∧ b < a + bs.length then bs.getD (b - a) 0 else m.read b := by
  induction bs generalizing m a with
  | nil =>
    rw [Memory.writeBytes, if_neg]
    simp only [List.length_nil]
    omega
  | cons x xs ih =>
    rw [Memory.writeBytes, ih, Memory.read_write]
    simp only [List.length_cons]
    by_cases h1 : b = a
    · subst h1
      rw [if_neg (by omega), if_pos rfl, if_pos (by omega)]
      simp
    · by_cases h2 : a + 1 ≤ b ∧ b < a + 1 + xs.length
      · rw [if_pos h2, if_pos (by omega)]
        obtain ⟨k, rfl⟩ : ∃ k, b = a + 1 + k := ⟨b - (a + 1), by omega⟩
        simp [show a + 1 + k - a = k + 1 from by omega]
      · rw [if_neg h2, if_neg h1, if_neg (by omega)]

theorem Memory.writeBytes_wf (m : Memory) (a : Nat) (bs : List Byte) (h : m.wf) : (m.writeBytes a bs).wf := by
  induction bs generalizing m a with
  | nil => rwa [Memory.writeBytes]
  | cons x xs ih =>
    rw [Memory.writeBytes]
    exact ih _ _ (m.write_wf a x h)

/-- The cells a write of an array can add. -/
theorem Memory.writeBytes_mem (m : Memory) (a : Nat) (bs : List Byte) (c : Host.Cell)
    (h : c ∈ (m.writeBytes a bs).cells) : (a ≤ c.1 ∧ c.1 < a + bs.length) ∨ c ∈ m.cells := by
  induction bs generalizing m a with
  | nil =>
    rw [Memory.writeBytes] at h
    exact .inr h
  | cons x xs ih =>
    rw [Memory.writeBytes] at h
    rcases ih _ _ h with h1 | h1
    · simp only [List.length_cons]; omega
    · rcases m.write_mem a x c h1 with h2 | h2
      · simp only [List.length_cons]; omega
      · exact .inr h2

@[simp] theorem Memory.readBytes_length (m : Memory) (a n : Nat) : (m.readBytes a n).length = n := by
  simp [Memory.readBytes]

theorem Memory.readBytes_getD (m : Memory) (a n i : Nat) (h : i < n) : (m.readBytes a n).getD i 0 = m.read (a + i) := by
  simp [Memory.readBytes, h]

/-- Reading back the array just written. -/
theorem Memory.readBytes_writeBytes_same (m : Memory) (a : Nat) (bs : List Byte) :
    (m.writeBytes a bs).readBytes a bs.length = bs := by
  apply List.ext_getElem (by simp)
  intro i h1 h2
  simp [Memory.readBytes, Memory.read_writeBytes, h2]

/-- Reading bytes that a write of an array does not touch. -/
theorem Memory.readBytes_writeBytes_other (m : Memory) (a b n : Nat) (bs : List Byte)
    (h : b + n ≤ a ∨ a + bs.length ≤ b) : (m.writeBytes a bs).readBytes b n = m.readBytes b n := by
  apply List.ext_getElem (by simp)
  intro i h1 h2
  simp only [Memory.readBytes_length] at h1
  simp only [Memory.readBytes, List.getElem_map, List.getElem_range, Memory.read_writeBytes]
  rw [if_neg (by omega)]

/-- Two reads of the same bytes. -/
theorem Memory.readBytes_congr (m n : Memory) (a k : Nat) (h : ∀ i < k, m.read (a + i) = n.read (a + i)) :
    m.readBytes a k = n.readBytes a k := by
  simp only [Memory.readBytes]
  exact List.map_congr_left fun i hi => h i (List.mem_range.1 hi)

/-- A shorter read is the start of a longer one. -/
theorem Memory.readBytes_take (m : Memory) (a n k : Nat) (h : k ≤ n) : (m.readBytes a n).take k = m.readBytes a k := by
  apply List.ext_getElem (by simp [h])
  intro i h1 h2
  simp [Memory.readBytes]

end Sys2Proof.Machine
end

