-- ==== Sys2Proof/Laws/State.lean ====
section
/-!
SUPPORT. One lemma per field per update of `State`, and the projections of the run operations. Each is true by unfolding
the update once, so that no later proof unfolds a record update.
-/

namespace Sys2Proof.Machine


/-! ## `State.setBuf` -/

@[simp] theorem State.setBuf_ie (s : State) (b : Buf) (l : List Byte) : (s.setBuf b l).ie = s.ie := rfl
@[simp] theorem State.setBuf_status (s : State) (b : Buf) (l : List Byte) : (s.setBuf b l).status = s.status := rfl
@[simp] theorem State.setBuf_keylen (s : State) (b : Buf) (l : List Byte) : (s.setBuf b l).keylen = s.keylen := rfl
@[simp] theorem State.setBuf_toklen (s : State) (b : Buf) (l : List Byte) : (s.setBuf b l).toklen = s.toklen := rfl
@[simp] theorem State.setBuf_mem (s : State) (b : Buf) (l : List Byte) :
    (s.setBuf b l).mem = s.mem.writeBytes b.base l := rfl
@[simp] theorem State.setBuf_scratch (s : State) (b : Buf) (l : List Byte) : (s.setBuf b l).scratch = s.scratch := rfl
@[simp] theorem State.setBuf_seq (s : State) (b : Buf) (l : List Byte) : (s.setBuf b l).seq = s.seq := rfl
@[simp] theorem State.setBuf_rngq (s : State) (b : Buf) (l : List Byte) : (s.setBuf b l).rngq = s.rngq := rfl
@[simp] theorem State.setBuf_cfg (s : State) (b : Buf) (l : List Byte) : (s.setBuf b l).cfg = s.cfg := rfl
@[simp] theorem State.setBuf_reply (s : State) (b : Buf) (l : List Byte) : (s.setBuf b l).reply = s.reply := rfl
@[simp] theorem State.setBuf_env (s : State) (b : Buf) (l : List Byte) : (s.setBuf b l).env = s.env := rfl

/-! ## `State.wipe` -/

@[simp] theorem State.wipe_ie (s : State) (b : Buf) : (s.wipe b).ie = s.ie := rfl
@[simp] theorem State.wipe_status (s : State) (b : Buf) : (s.wipe b).status = s.status := rfl
@[simp] theorem State.wipe_keylen (s : State) (b : Buf) : (s.wipe b).keylen = s.keylen := rfl
@[simp] theorem State.wipe_toklen (s : State) (b : Buf) : (s.wipe b).toklen = s.toklen := rfl
@[simp] theorem State.wipe_mem (s : State) (b : Buf) :
    (s.wipe b).mem = s.mem.writeBytes b.base (zeros (b.size s.cfg)) := rfl
@[simp] theorem State.wipe_scratch (s : State) (b : Buf) : (s.wipe b).scratch = s.scratch := rfl
@[simp] theorem State.wipe_seq (s : State) (b : Buf) : (s.wipe b).seq = s.seq := rfl
@[simp] theorem State.wipe_rngq (s : State) (b : Buf) : (s.wipe b).rngq = s.rngq := rfl
@[simp] theorem State.wipe_cfg (s : State) (b : Buf) : (s.wipe b).cfg = s.cfg := rfl
@[simp] theorem State.wipe_reply (s : State) (b : Buf) : (s.wipe b).reply = s.reply := rfl
@[simp] theorem State.wipe_env (s : State) (b : Buf) : (s.wipe b).env = s.env := rfl

/-! ## `State.setToklen` -/

@[simp] theorem State.setToklen_ie (s : State) (v : Word) : (s.setToklen v).ie = s.ie := rfl
@[simp] theorem State.setToklen_status (s : State) (v : Word) : (s.setToklen v).status = s.status := rfl
@[simp] theorem State.setToklen_keylen (s : State) (v : Word) : (s.setToklen v).keylen = s.keylen := rfl
@[simp] theorem State.setToklen_toklen (s : State) (v : Word) : (s.setToklen v).toklen = v := rfl
@[simp] theorem State.setToklen_mem (s : State) (v : Word) : (s.setToklen v).mem = s.mem := rfl
@[simp] theorem State.setToklen_scratch (s : State) (v : Word) : (s.setToklen v).scratch = s.scratch := rfl
@[simp] theorem State.setToklen_seq (s : State) (v : Word) : (s.setToklen v).seq = s.seq := rfl
@[simp] theorem State.setToklen_rngq (s : State) (v : Word) : (s.setToklen v).rngq = s.rngq := rfl
@[simp] theorem State.setToklen_cfg (s : State) (v : Word) : (s.setToklen v).cfg = s.cfg := rfl
@[simp] theorem State.setToklen_reply (s : State) (v : Word) : (s.setToklen v).reply = s.reply := rfl
@[simp] theorem State.setToklen_env (s : State) (v : Word) : (s.setToklen v).env = s.env := rfl

/-! ## `State.setKeylen` -/

@[simp] theorem State.setKeylen_ie (s : State) (v : BitVec 16) : (s.setKeylen v).ie = s.ie := rfl
@[simp] theorem State.setKeylen_status (s : State) (v : BitVec 16) : (s.setKeylen v).status = s.status := rfl
@[simp] theorem State.setKeylen_keylen (s : State) (v : BitVec 16) : (s.setKeylen v).keylen = v := rfl
@[simp] theorem State.setKeylen_toklen (s : State) (v : BitVec 16) : (s.setKeylen v).toklen = s.toklen := rfl
@[simp] theorem State.setKeylen_mem (s : State) (v : BitVec 16) : (s.setKeylen v).mem = s.mem := rfl
@[simp] theorem State.setKeylen_scratch (s : State) (v : BitVec 16) : (s.setKeylen v).scratch = s.scratch := rfl
@[simp] theorem State.setKeylen_seq (s : State) (v : BitVec 16) : (s.setKeylen v).seq = s.seq := rfl
@[simp] theorem State.setKeylen_rngq (s : State) (v : BitVec 16) : (s.setKeylen v).rngq = s.rngq := rfl
@[simp] theorem State.setKeylen_cfg (s : State) (v : BitVec 16) : (s.setKeylen v).cfg = s.cfg := rfl
@[simp] theorem State.setKeylen_reply (s : State) (v : BitVec 16) : (s.setKeylen v).reply = s.reply := rfl
@[simp] theorem State.setKeylen_env (s : State) (v : BitVec 16) : (s.setKeylen v).env = s.env := rfl

/-! ## `State.setScratch` -/

@[simp] theorem State.setScratch_ie (s : State) (sc : Scratch) : (s.setScratch sc).ie = s.ie := rfl
@[simp] theorem State.setScratch_status (s : State) (sc : Scratch) : (s.setScratch sc).status = s.status := rfl
@[simp] theorem State.setScratch_keylen (s : State) (sc : Scratch) : (s.setScratch sc).keylen = s.keylen := rfl
@[simp] theorem State.setScratch_toklen (s : State) (sc : Scratch) : (s.setScratch sc).toklen = s.toklen := rfl
@[simp] theorem State.setScratch_mem (s : State) (sc : Scratch) : (s.setScratch sc).mem = s.mem := rfl
@[simp] theorem State.setScratch_scratch (s : State) (sc : Scratch) : (s.setScratch sc).scratch = sc := rfl
@[simp] theorem State.setScratch_seq (s : State) (sc : Scratch) : (s.setScratch sc).seq = s.seq := rfl
@[simp] theorem State.setScratch_rngq (s : State) (sc : Scratch) : (s.setScratch sc).rngq = s.rngq := rfl
@[simp] theorem State.setScratch_cfg (s : State) (sc : Scratch) : (s.setScratch sc).cfg = s.cfg := rfl
@[simp] theorem State.setScratch_reply (s : State) (sc : Scratch) : (s.setScratch sc).reply = s.reply := rfl
@[simp] theorem State.setScratch_env (s : State) (sc : Scratch) : (s.setScratch sc).env = s.env := rfl

/-! ## `State.takeAnswer` -/

@[simp] theorem State.takeAnswer_ie (s : State) : (s.takeAnswer).ie = s.ie := rfl
@[simp] theorem State.takeAnswer_status (s : State) : (s.takeAnswer).status = s.status := rfl
@[simp] theorem State.takeAnswer_keylen (s : State) : (s.takeAnswer).keylen = s.keylen := rfl
@[simp] theorem State.takeAnswer_toklen (s : State) : (s.takeAnswer).toklen = s.toklen := rfl
@[simp] theorem State.takeAnswer_mem (s : State) : (s.takeAnswer).mem = s.mem := rfl
@[simp] theorem State.takeAnswer_scratch (s : State) : (s.takeAnswer).scratch = s.scratch := rfl
@[simp] theorem State.takeAnswer_seq (s : State) : (s.takeAnswer).seq = { s.seq with ph := .run } := rfl
@[simp] theorem State.takeAnswer_rngq (s : State) : (s.takeAnswer).rngq = .none := rfl
@[simp] theorem State.takeAnswer_cfg (s : State) : (s.takeAnswer).cfg = s.cfg := rfl
@[simp] theorem State.takeAnswer_reply (s : State) : (s.takeAnswer).reply = s.reply := rfl
@[simp] theorem State.takeAnswer_env (s : State) : (s.takeAnswer).env = s.env := rfl

/-! ## `State.complete` -/

@[simp] theorem State.complete_ie (s : State) (ok : Bool) : (s.complete ok).ie = s.ie := rfl
@[simp] theorem State.complete_status (s : State) (ok : Bool) :
    (s.complete ok).status = s.status.completed ok errNone := rfl
@[simp] theorem State.complete_keylen (s : State) (ok : Bool) : (s.complete ok).keylen = s.keylen := rfl
@[simp] theorem State.complete_toklen (s : State) (ok : Bool) : (s.complete ok).toklen = s.toklen := rfl
@[simp] theorem State.complete_mem (s : State) (ok : Bool) : (s.complete ok).mem = s.mem := rfl
@[simp] theorem State.complete_scratch (s : State) (ok : Bool) : (s.complete ok).scratch = Scratch.zero := rfl
@[simp] theorem State.complete_seq (s : State) (ok : Bool) : (s.complete ok).seq = { s.seq with ph := .idle } := rfl
@[simp] theorem State.complete_rngq (s : State) (ok : Bool) : (s.complete ok).rngq = .none := rfl
@[simp] theorem State.complete_cfg (s : State) (ok : Bool) : (s.complete ok).cfg = s.cfg := rfl
@[simp] theorem State.complete_reply (s : State) (ok : Bool) : (s.complete ok).reply = s.reply := rfl
@[simp] theorem State.complete_env (s : State) (ok : Bool) : (s.complete ok).env = s.env := rfl

/-! ## `State.raiseErr` -/

@[simp] theorem State.raiseErr_ie (s : State) (code : BitVec 4) : (s.raiseErr code).ie = s.ie := rfl
@[simp] theorem State.raiseErr_status (s : State) (code : BitVec 4) :
    (s.raiseErr code).status = s.status.completed false code := rfl
@[simp] theorem State.raiseErr_keylen (s : State) (code : BitVec 4) : (s.raiseErr code).keylen = s.keylen := rfl
@[simp] theorem State.raiseErr_toklen (s : State) (code : BitVec 4) : (s.raiseErr code).toklen = s.toklen := rfl
@[simp] theorem State.raiseErr_mem (s : State) (code : BitVec 4) : (s.raiseErr code).mem = s.mem := rfl
@[simp] theorem State.raiseErr_scratch (s : State) (code : BitVec 4) : (s.raiseErr code).scratch = Scratch.zero := rfl
@[simp] theorem State.raiseErr_seq (s : State) (code : BitVec 4) :
    (s.raiseErr code).seq = { s.seq with ph := .idle } := rfl
@[simp] theorem State.raiseErr_rngq (s : State) (code : BitVec 4) : (s.raiseErr code).rngq = .none := rfl
@[simp] theorem State.raiseErr_cfg (s : State) (code : BitVec 4) : (s.raiseErr code).cfg = s.cfg := rfl
@[simp] theorem State.raiseErr_reply (s : State) (code : BitVec 4) : (s.raiseErr code).reply = s.reply := rfl
@[simp] theorem State.raiseErr_env (s : State) (code : BitVec 4) : (s.raiseErr code).env = s.env := rfl

/-! ## `State.issue` -/

@[simp] theorem State.issue_ie (s : State) (w : Word) : (s.issue w).ie = s.ie := rfl
@[simp] theorem State.issue_status (s : State) (w : Word) : (s.issue w).status = s.status.issued := rfl
@[simp] theorem State.issue_keylen (s : State) (w : Word) : (s.issue w).keylen = s.keylen := rfl
@[simp] theorem State.issue_toklen (s : State) (w : Word) : (s.issue w).toklen = s.toklen := rfl
@[simp] theorem State.issue_mem (s : State) (w : Word) : (s.issue w).mem = s.mem := rfl
@[simp] theorem State.issue_scratch (s : State) (w : Word) : (s.issue w).scratch = s.scratch := rfl
@[simp] theorem State.issue_seq (s : State) (w : Word) :
    (s.issue w).seq = { cmd := w, ph := if drawsRng w then .rngwait else .run } := rfl
@[simp] theorem State.issue_rngq (s : State) (w : Word) :
    (s.issue w).rngq = if drawsRng w then .pending else s.rngq := rfl
@[simp] theorem State.issue_cfg (s : State) (w : Word) : (s.issue w).cfg = s.cfg := rfl
@[simp] theorem State.issue_reply (s : State) (w : Word) : (s.issue w).reply = s.reply := rfl
@[simp] theorem State.issue_env (s : State) (w : Word) : (s.issue w).env = s.env := rfl

/-! ## `State.resetAll` -/

@[simp] theorem State.resetAll_ie (s : State) : (s.resetAll).ie = false := rfl
@[simp] theorem State.resetAll_status (s : State) : (s.resetAll).status = Status.reset := rfl
@[simp] theorem State.resetAll_keylen (s : State) : (s.resetAll).keylen = 0 := rfl
@[simp] theorem State.resetAll_toklen (s : State) : (s.resetAll).toklen = 0 := rfl
@[simp] theorem State.resetAll_mem (s : State) : (s.resetAll).mem = { cells := [] } := rfl
@[simp] theorem State.resetAll_scratch (s : State) : (s.resetAll).scratch = Scratch.zero := rfl
@[simp] theorem State.resetAll_seq (s : State) : (s.resetAll).seq = { cmd := 0, ph := .idle } := rfl
@[simp] theorem State.resetAll_rngq (s : State) : (s.resetAll).rngq = .none := rfl
@[simp] theorem State.resetAll_cfg (s : State) : (s.resetAll).cfg = s.cfg := rfl
@[simp] theorem State.resetAll_reply (s : State) : (s.resetAll).reply = s.reply := rfl
@[simp] theorem State.resetAll_env (s : State) : (s.resetAll).env = s.env := rfl

/-! ## `State.keypad` -/

@[simp] theorem State.keypad_ie (s : State) : (s.keypad).ie = s.ie := rfl
@[simp] theorem State.keypad_status (s : State) : (s.keypad).status = s.status := rfl
@[simp] theorem State.keypad_keylen (s : State) : (s.keypad).keylen = s.keylen := rfl
@[simp] theorem State.keypad_toklen (s : State) : (s.keypad).toklen = s.toklen := rfl
@[simp] theorem State.keypad_mem (s : State) : (s.keypad).mem = s.mem := rfl
@[simp] theorem State.keypad_seq (s : State) : (s.keypad).seq = s.seq := rfl
@[simp] theorem State.keypad_rngq (s : State) : (s.keypad).rngq = s.rngq := rfl
@[simp] theorem State.keypad_cfg (s : State) : (s.keypad).cfg = s.cfg := rfl
@[simp] theorem State.keypad_reply (s : State) : (s.keypad).reply = s.reply := rfl
@[simp] theorem State.keypad_env (s : State) : (s.keypad).env = s.env := rfl

/-! ## `State.storeInner` -/

@[simp] theorem State.storeInner_ie (s : State) : (s.storeInner).ie = s.ie := rfl
@[simp] theorem State.storeInner_status (s : State) : (s.storeInner).status = s.status := rfl
@[simp] theorem State.storeInner_keylen (s : State) : (s.storeInner).keylen = s.keylen := rfl
@[simp] theorem State.storeInner_toklen (s : State) : (s.storeInner).toklen = s.toklen := rfl
@[simp] theorem State.storeInner_mem (s : State) : (s.storeInner).mem = s.mem := rfl
@[simp] theorem State.storeInner_seq (s : State) : (s.storeInner).seq = s.seq := rfl
@[simp] theorem State.storeInner_rngq (s : State) : (s.storeInner).rngq = s.rngq := rfl
@[simp] theorem State.storeInner_cfg (s : State) : (s.storeInner).cfg = s.cfg := rfl
@[simp] theorem State.storeInner_reply (s : State) : (s.storeInner).reply = s.reply := rfl
@[simp] theorem State.storeInner_env (s : State) : (s.storeInner).env = s.env := rfl

/-! ## `State.cmp48` -/

@[simp] theorem State.cmp48_ie (s : State) : (s.cmp48).ie = s.ie := rfl
@[simp] theorem State.cmp48_status (s : State) : (s.cmp48).status = s.status := rfl
@[simp] theorem State.cmp48_keylen (s : State) : (s.cmp48).keylen = s.keylen := rfl
@[simp] theorem State.cmp48_toklen (s : State) : (s.cmp48).toklen = s.toklen := rfl
@[simp] theorem State.cmp48_mem (s : State) : (s.cmp48).mem = s.mem := rfl
@[simp] theorem State.cmp48_scratch (s : State) :
    (s.cmp48).scratch = { s.scratch with acc := lanesOr s.dec s.btok } := rfl
@[simp] theorem State.cmp48_seq (s : State) : (s.cmp48).seq = s.seq := rfl
@[simp] theorem State.cmp48_rngq (s : State) : (s.cmp48).rngq = s.rngq := rfl
@[simp] theorem State.cmp48_cfg (s : State) : (s.cmp48).cfg = s.cfg := rfl
@[simp] theorem State.cmp48_reply (s : State) : (s.cmp48).reply = s.reply := rfl
@[simp] theorem State.cmp48_env (s : State) : (s.cmp48).env = s.env := rfl

/-! ## `State.hexdec` -/

@[simp] theorem State.hexdec_ie (s : State) : (s.hexdec).ie = s.ie := rfl
@[simp] theorem State.hexdec_status (s : State) : (s.hexdec).status = s.status := rfl
@[simp] theorem State.hexdec_keylen (s : State) : (s.hexdec).keylen = s.keylen := rfl
@[simp] theorem State.hexdec_toklen (s : State) : (s.hexdec).toklen = s.toklen := rfl
@[simp] theorem State.hexdec_mem (s : State) : (s.hexdec).mem = s.mem := rfl
@[simp] theorem State.hexdec_scratch (s : State) : (s.hexdec).scratch = { s.scratch with valid := s.decoded.2 } := rfl
@[simp] theorem State.hexdec_seq (s : State) : (s.hexdec).seq = s.seq := rfl
@[simp] theorem State.hexdec_rngq (s : State) : (s.hexdec).rngq = s.rngq := rfl
@[simp] theorem State.hexdec_cfg (s : State) : (s.hexdec).cfg = s.cfg := rfl
@[simp] theorem State.hexdec_reply (s : State) : (s.hexdec).reply = s.reply := rfl
@[simp] theorem State.hexdec_env (s : State) : (s.hexdec).env = s.env := rfl

/-! ## `State.hexenc` -/

@[simp] theorem State.hexenc_ie (s : State) : (s.hexenc).ie = s.ie := rfl
@[simp] theorem State.hexenc_status (s : State) : (s.hexenc).status = s.status := rfl
@[simp] theorem State.hexenc_keylen (s : State) : (s.hexenc).keylen = s.keylen := rfl
@[simp] theorem State.hexenc_toklen (s : State) : (s.hexenc).toklen = 96 := rfl
@[simp] theorem State.hexenc_mem (s : State) :
    (s.hexenc).mem = s.mem.writeBytes Buf.token.base (hexEncode s.btok) := rfl
@[simp] theorem State.hexenc_scratch (s : State) : (s.hexenc).scratch = s.scratch := rfl
@[simp] theorem State.hexenc_seq (s : State) : (s.hexenc).seq = s.seq := rfl
@[simp] theorem State.hexenc_rngq (s : State) : (s.hexenc).rngq = s.rngq := rfl
@[simp] theorem State.hexenc_cfg (s : State) : (s.hexenc).cfg = s.cfg := rfl
@[simp] theorem State.hexenc_reply (s : State) : (s.hexenc).reply = s.reply := rfl
@[simp] theorem State.hexenc_env (s : State) : (s.hexenc).env = s.env := rfl

/-! ## `State.wipeGen` -/

@[simp] theorem State.wipeGen_ie (s : State) : (s.wipeGen).ie = s.ie := by simp [State.wipeGen]
@[simp] theorem State.wipeGen_status (s : State) : (s.wipeGen).status = s.status := by simp [State.wipeGen]
@[simp] theorem State.wipeGen_keylen (s : State) : (s.wipeGen).keylen = s.keylen := by simp [State.wipeGen]
@[simp] theorem State.wipeGen_toklen (s : State) : (s.wipeGen).toklen = 0 := by simp [State.wipeGen]
@[simp] theorem State.wipeGen_scratch (s : State) : (s.wipeGen).scratch = s.scratch := by simp [State.wipeGen]
@[simp] theorem State.wipeGen_seq (s : State) : (s.wipeGen).seq = s.seq := by simp [State.wipeGen]
@[simp] theorem State.wipeGen_rngq (s : State) : (s.wipeGen).rngq = s.rngq := by simp [State.wipeGen]
@[simp] theorem State.wipeGen_cfg (s : State) : (s.wipeGen).cfg = s.cfg := by simp [State.wipeGen]
@[simp] theorem State.wipeGen_reply (s : State) : (s.wipeGen).reply = s.reply := by simp [State.wipeGen]
@[simp] theorem State.wipeGen_env (s : State) : (s.wipeGen).env = s.env := by simp [State.wipeGen]

/-! ## `State.wipeVfy` -/

@[simp] theorem State.wipeVfy_ie (s : State) : (s.wipeVfy).ie = s.ie := by simp [State.wipeVfy]
@[simp] theorem State.wipeVfy_status (s : State) : (s.wipeVfy).status = s.status := by simp [State.wipeVfy]
@[simp] theorem State.wipeVfy_keylen (s : State) : (s.wipeVfy).keylen = s.keylen := by simp [State.wipeVfy]
@[simp] theorem State.wipeVfy_toklen (s : State) : (s.wipeVfy).toklen = s.toklen := by simp [State.wipeVfy]
@[simp] theorem State.wipeVfy_scratch (s : State) : (s.wipeVfy).scratch = s.scratch := by simp [State.wipeVfy]
@[simp] theorem State.wipeVfy_seq (s : State) : (s.wipeVfy).seq = s.seq := by simp [State.wipeVfy]
@[simp] theorem State.wipeVfy_rngq (s : State) : (s.wipeVfy).rngq = s.rngq := by simp [State.wipeVfy]
@[simp] theorem State.wipeVfy_cfg (s : State) : (s.wipeVfy).cfg = s.cfg := by simp [State.wipeVfy]
@[simp] theorem State.wipeVfy_reply (s : State) : (s.wipeVfy).reply = s.reply := by simp [State.wipeVfy]
@[simp] theorem State.wipeVfy_env (s : State) : (s.wipeVfy).env = s.env := by simp [State.wipeVfy]

/-! ## `State.wipeAll` -/

@[simp] theorem State.wipeAll_ie (s : State) : (s.wipeAll).ie = s.ie := by simp [State.wipeAll]
@[simp] theorem State.wipeAll_status (s : State) : (s.wipeAll).status = s.status := by simp [State.wipeAll]
@[simp] theorem State.wipeAll_keylen (s : State) : (s.wipeAll).keylen = 0 := by simp [State.wipeAll]
@[simp] theorem State.wipeAll_toklen (s : State) : (s.wipeAll).toklen = 0 := by simp [State.wipeAll]
@[simp] theorem State.wipeAll_scratch (s : State) : (s.wipeAll).scratch = s.scratch := by simp [State.wipeAll]
@[simp] theorem State.wipeAll_seq (s : State) : (s.wipeAll).seq = s.seq := by simp [State.wipeAll]
@[simp] theorem State.wipeAll_rngq (s : State) : (s.wipeAll).rngq = s.rngq := by simp [State.wipeAll]
@[simp] theorem State.wipeAll_cfg (s : State) : (s.wipeAll).cfg = s.cfg := by simp [State.wipeAll]
@[simp] theorem State.wipeAll_reply (s : State) : (s.wipeAll).reply = s.reply := by simp [State.wipeAll]
@[simp] theorem State.wipeAll_env (s : State) : (s.wipeAll).env = s.env := by simp [State.wipeAll]

/-! ## `State.loadCandidate` -/

@[simp] theorem State.loadCandidate_ie (s : State) (x : List Byte) :
    (s.loadCandidate x).ie = s.ie := by simp [State.loadCandidate]
@[simp] theorem State.loadCandidate_status (s : State) (x : List Byte) :
    (s.loadCandidate x).status = s.status := by simp [State.loadCandidate]
@[simp] theorem State.loadCandidate_keylen (s : State) (x : List Byte) :
    (s.loadCandidate x).keylen = s.keylen := by simp [State.loadCandidate]
@[simp] theorem State.loadCandidate_toklen (s : State) (x : List Byte) :
    (s.loadCandidate x).toklen = s.toklen := by simp [State.loadCandidate]
@[simp] theorem State.loadCandidate_scratch (s : State) (x : List Byte) :
    (s.loadCandidate x).scratch = s.scratch := by simp [State.loadCandidate]
@[simp] theorem State.loadCandidate_seq (s : State) (x : List Byte) :
    (s.loadCandidate x).seq = s.seq := by simp [State.loadCandidate]
@[simp] theorem State.loadCandidate_rngq (s : State) (x : List Byte) :
    (s.loadCandidate x).rngq = s.rngq := by simp [State.loadCandidate]
@[simp] theorem State.loadCandidate_cfg (s : State) (x : List Byte) :
    (s.loadCandidate x).cfg = s.cfg := by simp [State.loadCandidate]
@[simp] theorem State.loadCandidate_reply (s : State) (x : List Byte) :
    (s.loadCandidate x).reply = s.reply := by simp [State.loadCandidate]
@[simp] theorem State.loadCandidate_env (s : State) (x : List Byte) :
    (s.loadCandidate x).env = s.env := by simp [State.loadCandidate]

/-! ## `State.writeWord` -/

@[simp] theorem State.writeWord_ie (s : State) (a : Nat) (v : Word) : (s.writeWord a v).ie = s.ie := rfl
@[simp] theorem State.writeWord_status (s : State) (a : Nat) (v : Word) : (s.writeWord a v).status = s.status := rfl
@[simp] theorem State.writeWord_keylen (s : State) (a : Nat) (v : Word) : (s.writeWord a v).keylen = s.keylen := rfl
@[simp] theorem State.writeWord_toklen (s : State) (a : Nat) (v : Word) : (s.writeWord a v).toklen = s.toklen := rfl
@[simp] theorem State.writeWord_mem (s : State) (a : Nat) (v : Word) :
    (s.writeWord a v).mem = s.mem.writeBytes a (bytes32 v) := rfl
@[simp] theorem State.writeWord_scratch (s : State) (a : Nat) (v : Word) :
    (s.writeWord a v).scratch = s.scratch := rfl
@[simp] theorem State.writeWord_seq (s : State) (a : Nat) (v : Word) : (s.writeWord a v).seq = s.seq := rfl
@[simp] theorem State.writeWord_rngq (s : State) (a : Nat) (v : Word) : (s.writeWord a v).rngq = s.rngq := rfl
@[simp] theorem State.writeWord_cfg (s : State) (a : Nat) (v : Word) : (s.writeWord a v).cfg = s.cfg := rfl
@[simp] theorem State.writeWord_reply (s : State) (a : Nat) (v : Word) : (s.writeWord a v).reply = s.reply := rfl
@[simp] theorem State.writeWord_env (s : State) (a : Nat) (v : Word) : (s.writeWord a v).env = s.env := rfl

/-! ## Runs -/

@[simp] theorem Run.start_st (s : State) : (Run.start s).st = s := rfl
@[simp] theorem Run.start_trace (s : State) : (Run.start s).trace = [.issue] := rfl
@[simp] theorem Run.op_st (r : Run) (l : Label) (f : State → State) : (r.op l f).st = f r.st := rfl
@[simp] theorem Run.op_trace (r : Run) (l : Label) (f : State → State) : (r.op l f).trace = r.trace ++ [l] := rfl
@[simp] theorem Run.move_st (r : Run) (f : State → State) : (r.move f).st = f r.st := rfl
@[simp] theorem Run.move_trace (r : Run) (f : State → State) : (r.move f).trace = r.trace := rfl
@[simp] theorem Run.complete_st (r : Run) (ok : Bool) : (r.complete ok).st = r.st.complete ok := rfl
@[simp] theorem Run.complete_trace (r : Run) (ok : Bool) : (r.complete ok).trace = r.trace ++ [.finish] := rfl
@[simp] theorem Run.raiseErr_st (r : Run) (code : BitVec 4) : (r.raiseErr code).st = r.st.raiseErr code := rfl
@[simp] theorem Run.raiseErr_trace (r : Run) (code : BitVec 4) : (r.raiseErr code).trace = r.trace ++ [.finish] := rfl

/-! ## STATUS -/

@[simp] theorem Status.issued_busy (st : Status) : st.issued.busy = true := rfl
@[simp] theorem Status.issued_done (st : Status) : st.issued.done = false := rfl
@[simp] theorem Status.issued_ok (st : Status) : st.issued.ok = false := rfl
@[simp] theorem Status.issued_fatal (st : Status) : st.issued.fatal = st.fatal := rfl
@[simp] theorem Status.issued_err (st : Status) : st.issued.err = 0 := rfl
@[simp] theorem Status.completed_busy (st : Status) (ok : Bool) (e : BitVec 4) : (st.completed ok e).busy = false := rfl
@[simp] theorem Status.completed_done (st : Status) (ok : Bool) (e : BitVec 4) : (st.completed ok e).done = true := rfl
@[simp] theorem Status.completed_ok (st : Status) (ok : Bool) (e : BitVec 4) : (st.completed ok e).ok = ok := rfl
@[simp] theorem Status.completed_err (st : Status) (ok : Bool) (e : BitVec 4) : (st.completed ok e).err = e := rfl
@[simp] theorem Status.completed_fatal (st : Status) (ok : Bool) (e : BitVec 4) :
    (st.completed ok e).fatal = (st.fatal || isFatal e) := rfl

end Sys2Proof.Machine
end

