-- ==== Sys2Proof/Laws/Buffers.lean ====
section
/-!
SUPPORT. The buffers as whole arrays: what is read after one of them is written, that they do not overlap, and the sizes
of the byte arrays that are written into them.
-/

namespace Sys2Proof.Machine

@[simp] theorem zeros_length (n : Nat) : (zeros n).length = n := by simp [zeros]

@[simp] theorem bytes32_length (w : Word) : (bytes32 w).length = 4 := rfl

@[simp] theorem be64_length (n : BitVec 64) : (be64 n).length = 8 := rfl

@[simp] theorem digest_length (v : Words8) : (digest v).length = 32 := rfl

@[simp] theorem sha256_length (m : List Byte) : (sha256 m).length = 32 := rfl

@[simp] theorem hmac_length (k n : List Byte) : (hmac k n).length = 32 := rfl

theorem toRegister_toList (n : Nat) (l : List Byte) (h : l.length = n) : (toRegister n l).toList = l := by
  subst h
  apply List.ext_getElem (by simp)
  intro i h1 h2
  simp [toRegister, h2]

@[simp] theorem toRegister_length (n : Nat) (l : List Byte) : (toRegister n l).toList.length = n := by simp

@[simp] theorem hexEncode_length (x : List Byte) : (hexEncode x).length = 2 * x.length := by
  induction x with
  | nil => rfl
  | cons b bs ih =>
    simp only [hexEncode, List.flatMap_cons, List.length_append, hexPair, List.length_cons, List.length_nil] at ih ⊢
    omega

@[simp] theorem hexDecode_length (u : Bool) (y : List Byte) : (hexDecode u y).length = 48 := by simp [hexDecode]

@[simp] theorem State.buf_length (s : State) (b : Buf) : (s.buf b).length = b.size s.cfg := by simp [State.buf]

theorem State.nonce_length (s : State) : s.nonce.length = 16 := by simp [State.nonce, Buf.size]
theorem State.tag_length (s : State) : s.tag.length = 32 := by simp [State.tag, Buf.size]
theorem State.dec_length (s : State) : s.dec.length = 48 := by simp [State.dec, Buf.size]
theorem State.token_length (s : State) : s.token.length = 96 := by simp [State.token, Buf.size]

theorem State.btok_length (s : State) : s.btok.length = 48 := by
  simp [State.btok, State.nonce_length, State.tag_length]

theorem State.keyBytes_length (s : State) : s.keyBytes.length = s.keylen.toNat := by simp [State.keyBytes]

/-- The byte at an offset after a buffer is written. -/
theorem State.read_setBuf (s : State) (b : Buf) (l : List Byte) (a : Nat) :
    (s.setBuf b l).mem.read a = if b.base ≤ a ∧ a < b.base + l.length then l.getD (a - b.base) 0 else s.mem.read a := by
  rw [State.setBuf_mem, Memory.read_writeBytes]

/-- A buffer reads back what was written into it. -/
theorem State.buf_setBuf_same (s : State) (b : Buf) (l : List Byte) (h : l.length = b.size s.cfg) :
    (s.setBuf b l).buf b = l := by
  simp only [State.buf, State.setBuf_mem, State.setBuf_cfg, ← h]
  exact Memory.readBytes_writeBytes_same _ _ _

/-- Writing one buffer leaves every other as it was. -/
theorem State.buf_setBuf_other (s : State) (b c : Buf) (l : List Byte) (hl : l.length ≤ b.size s.cfg) (h : b ≠ c) :
    (s.setBuf b l).buf c = s.buf c := by
  simp only [State.buf, State.setBuf_mem, State.setBuf_cfg]
  apply Memory.readBytes_writeBytes_other
  cases b <;> cases c <;> simp_all [Buf.base, Buf.size] <;> omega

/-- Writing a buffer other than KEY leaves the key as it was. -/
theorem State.keyBytes_setBuf (s : State) (b : Buf) (l : List Byte) (hl : l.length ≤ b.size s.cfg) (h : b ≠ .key) :
    (s.setBuf b l).keyBytes = s.keyBytes := by
  simp only [State.keyBytes, State.setBuf_mem, State.setBuf_keylen]
  apply Memory.readBytes_writeBytes_other
  cases b <;> simp_all [Buf.base, Buf.size] <;> omega

/-- A wiped buffer is zero. -/
theorem State.buf_wipe_same (s : State) (b : Buf) : (s.wipe b).buf b = zeros (b.size s.cfg) :=
  State.buf_setBuf_same _ _ _ (by simp)

/-- Wiping one buffer leaves every other as it was. -/
theorem State.buf_wipe_other (s : State) (b c : Buf) (h : b ≠ c) : (s.wipe b).buf c = s.buf c :=
  State.buf_setBuf_other _ _ _ _ (by simp) h

/-- The byte at an offset after a wipe. -/
theorem State.read_wipe (s : State) (b : Buf) (a : Nat) :
    (s.wipe b).mem.read a = if b.base ≤ a ∧ a < b.base + b.size s.cfg then 0 else s.mem.read a := by
  rw [State.wipe, State.read_setBuf]
  simp only [zeros_length]
  split
  · rename_i h
    simp only [zeros, List.getD_eq_getElem?_getD, List.getElem?_replicate]
    split <;> rfl
  · rfl

/-- What a buffer holds depends on the bytes and the instance alone. -/
theorem State.buf_congr (s t : State) (b : Buf) (hm : t.mem = s.mem) (hc : t.cfg = s.cfg) : t.buf b = s.buf b := by
  simp [State.buf, hm, hc]

end Sys2Proof.Machine
end

