-- ==== Sys2Proof/Laws/Sha256.lean ====
section
/-!
SUPPORT. The hash datapath computes the hash function: the sliding window holds the schedule (40_sha256.md R123), 64 rounds
and the feed-forward are `compress` (R117), the padder fills BLK with the blocks of the padded message (R118), and a
whole pass leaves the chaining value of the message in HREG (R119).
-/

namespace Sys2Proof.Machine

/-! ## The schedule (R115) -/

theorem growSchedule_length (ws : List Word) (n : Nat) : (growSchedule ws n).length = ws.length + n := by
  induction n generalizing ws with
  | zero => rfl
  | succ n ih => simp only [growSchedule, ih, List.length_append, List.length_singleton]; omega

theorem growSchedule_old (ws : List Word) (n j : Nat) (h : j < ws.length) :
    (growSchedule ws n).getD j 0 = ws.getD j 0 := by
  induction n generalizing ws with
  | zero => rfl
  | succ n ih =>
    rw [growSchedule, ih _ (by simp; omega)]
    simp [List.getD_eq_getElem?_getD, List.getElem?_append_left h]

theorem growSchedule_new (ws : List Word) (n t : Nat) (hw : 16 ≤ ws.length) (h1 : ws.length ≤ t)
    (h2 : t < ws.length + n) :
    (growSchedule ws n).getD t 0 =
      scheduleWord ((growSchedule ws n).getD (t - 2) 0) ((growSchedule ws n).getD (t - 7) 0)
        ((growSchedule ws n).getD (t - 15) 0) ((growSchedule ws n).getD (t - 16) 0) := by
  induction n generalizing ws with
  | zero => omega
  | succ n ih =>
    rw [growSchedule]
    by_cases ht : t = ws.length
    · subst ht
      rw [growSchedule_old _ _ _ (by simp), growSchedule_old _ _ (ws.length - 2) (by simp),
        growSchedule_old _ _ (ws.length - 7) (by simp), growSchedule_old _ _ (ws.length - 15) (by simp),
        growSchedule_old _ _ (ws.length - 16) (by simp)]
      have old : ∀ k (x : List Word), 0 < k → k ≤ 16 → (ws ++ x).getD (ws.length - k) 0 = ws.getD (ws.length - k) 0 := by
        intro k x hk _
        simp [List.getD_eq_getElem?_getD, List.getElem?_append_left (show ws.length - k < ws.length by omega)]
      rw [old 2 _ (by omega) (by omega), old 7 _ (by omega) (by omega), old 15 _ (by omega) (by omega),
        old 16 _ (by omega) (by omega)]
      simp
    · exact ih _ (by simp; omega) (by simp; omega) (by simp; omega)

theorem messageWords_length (blk : List Byte) : (messageWords blk).length = 16 := by simp [messageWords]

theorem messageWords_getD (blk : List Byte) (t : Nat) (h : t < 16) :
    (messageWords blk).getD t 0 = messageWord blk t := by
  simp [messageWords, h]

theorem schedule_length (blk : List Byte) : (schedule blk).length = 64 := by
  simp [schedule, growSchedule_length, messageWords_length]

/-- `W[t] = M[t]` for the first sixteen words (R115). -/
theorem schedule_message (blk : List Byte) (t : Nat) (h : t < 16) : (schedule blk).getD t 0 = messageWord blk t := by
  rw [schedule, growSchedule_old _ _ _ (by simpa [messageWords_length] using h), messageWords_getD _ _ h]

/-- The recurrence for the others (R115). -/
theorem schedule_grown (blk : List Byte) (t : Nat) (h1 : 16 ≤ t) (h2 : t < 64) :
    (schedule blk).getD t 0 =
      scheduleWord ((schedule blk).getD (t - 2) 0) ((schedule blk).getD (t - 7) 0) ((schedule blk).getD (t - 15) 0)
        ((schedule blk).getD (t - 16) 0) :=
  growSchedule_new _ _ _ (by simp [messageWords_length]) (by simpa [messageWords_length] using h1)
    (by simpa [messageWords_length] using h2)

theorem roundsTo_succ (ws : List Word) (v : Words8) (n : Nat) :
    roundsTo ws v (n + 1) = round (roundsTo ws v n) (kTable.getD n 0) (ws.getD n 0) := by
  simp [roundsTo, List.range_succ]

/-! ## Rounds on the registers -/

/-- What a round leaves alone. -/
structure SameButRounds (sc sc' : Scratch) : Prop where
  hreg : sc'.hreg = sc.hreg
  blkcnt : sc'.blkcnt = sc.blkcnt
  k0 : sc'.k0 = sc.k0
  ih : sc'.ih = sc.ih
  blk : sc'.blk = sc.blk
  mlen : sc'.mlen = sc.mlen
  acc : sc'.acc = sc.acc
  valid : sc'.valid = sc.valid

theorem Scratch.window_set (sc : Scratch) (n j : Nat) (w : Word) (v : Words8) (t : BitVec 7) :
    ({ sc with wwin := sc.wwin.set (n % 16) w (Nat.mod_lt n (by decide)), wv := v, t := t } : Scratch).window j =
      if n % 16 = j % 16 then w else sc.window j := by
  simp only [Scratch.window, Vector.getElem_set]

/-- The registers after `n` rounds of a loaded block: the working words are those of `roundsTo`, and the window holds
the sixteen schedule words that later rounds need (R123). -/
theorem Scratch.rounds_spec (sc : Scratch) (n : Nat) (hn : n ≤ 64) :
    let sc' := Scratch.roundStep^[n] sc.compressInit
    let ws := schedule sc.blk.toList
    sc'.t.toNat = n ∧ sc'.wv = roundsTo ws sc.hreg n ∧
      (∀ j, j < max n 16 → n ≤ j + 16 → sc'.window j = ws.getD j 0) ∧ SameButRounds sc sc' := by
  induction n with
  | zero =>
    refine ⟨rfl, rfl, fun j hj _ => ?_, ⟨rfl, rfl, rfl, rfl, rfl, rfl, rfl, rfl⟩⟩
    have hj : j < 16 := by omega
    rw [schedule_message _ _ hj]
    simp [Scratch.window, Scratch.compressInit, messageWords, Nat.mod_eq_of_lt hj]
  | succ n ih =>
    obtain ⟨ht, hv, hw, hs⟩ := ih (by omega)
    simp only [Function.iterate_succ_apply']
    generalize Scratch.roundStep^[n] sc.compressInit = sc' at ht hv hw hs
    have hnext : sc'.nextW n = (schedule sc.blk.toList).getD n 0 := by
      unfold Scratch.nextW
      split
      · exact hw n (by omega) (by omega)
      · rw [hw (n - 2) (by omega) (by omega), hw (n - 7) (by omega) (by omega), hw (n - 15) (by omega) (by omega),
          hw (n - 16) (by omega) (by omega), ← schedule_grown _ n (by omega) (by omega)]
    refine ⟨?_, ?_, fun j hj hj' => ?_, ?_⟩
    · simp only [Scratch.roundStep, BitVec.toNat_add, ht]
      simp
      omega
    · simp only [Scratch.roundStep, ht, hnext, hv, roundsTo_succ]
    · simp only [Scratch.roundStep, ht, hnext]
      rw [Scratch.window_set]
      split
      · rename_i h
        have : j = n := by omega
        rw [this]
      · exact hw j (by omega) (by omega)
    · exact ⟨hs.hreg, hs.blkcnt, hs.k0, hs.ih, hs.blk, hs.mlen, hs.acc, hs.valid⟩

/-! ## The padder (R118) -/

theorem pad_length (m : List Byte) : (pad m).length = 64 * blockCount m.length := by
  simp only [pad, List.length_append, List.length_singleton, zeros_length, be64_length, padZeros, blockCount]
  omega

theorem padZeros_spec (len : Nat) : len + 1 + padZeros len + 8 = 64 * blockCount len := by
  simp only [padZeros, blockCount]
  omega

/-- Byte `i` of a padded message is what the padder forms from the source and the full count. -/
theorem pad_getD (m : List Byte) (i : Nat) (h : i < 64 * blockCount m.length) :
    (pad m).getD i 0 = padByte m (BitVec.ofNat 64 m.length) i := by
  have hk := padZeros_spec m.length
  have h8 : BitVec.ofNat 64 (8 * m.length) = BitVec.ofNat 64 m.length <<< 3 := by
    apply BitVec.eq_of_toNat_eq
    simp only [BitVec.toNat_ofNat, BitVec.toNat_shiftLeft, Nat.shiftLeft_eq]
    omega
  unfold pad padByte
  simp only [List.getD_eq_getElem?_getD, List.append_assoc]
  split
  · rename_i h1
    rw [List.getElem?_append_left h1]
  · rename_i h1
    rw [List.getElem?_append_right (by omega)]
    split
    · rename_i h2
      simp [h2]
    · rename_i h2
      rw [List.getElem?_append_right (by simp; omega)]
      split
      · rename_i h3
        rw [List.getElem?_append_left (by simp; omega)]
        simp only [zeros, List.getElem?_replicate]
        split <;> rfl
      · rename_i h3
        rw [List.getElem?_append_right (by simp; omega), h8]
        congr 2
        simp
        omega

theorem blockAt_eq (p : List Byte) (j : Nat) (h : 64 * j + 64 ≤ p.length) :
    blockAt p j = (List.range 64).map fun i => p.getD (64 * j + i) 0 := by
  apply List.ext_getElem
  · simp [blockAt]
    omega
  · intro i h1 h2
    simp only [blockAt, List.length_take, List.length_drop] at h1
    simp only [blockAt, List.getElem_take, List.getElem_drop, List.getElem_map, List.getElem_range]
    simp [List.getD_eq_getElem?_getD, List.getElem?_eq_getElem (show 64 * j + i < p.length by omega)]

/-- MLEN before block `j`: the bytes of the earlier blocks. -/
def absorbed (m : List Byte) (j : Nat) : Nat := min m.length (64 * j)

theorem absorbed_succ (m : List Byte) (j : Nat) : absorbed m j + (chunk m j).length = absorbed m (j + 1) := by
  simp only [absorbed, chunk, List.length_take, List.length_drop]
  omega

theorem padByte_absorbed (m : List Byte) (j i : Nat) (hi : i < 64) (hj : j < blockCount m.length) :
    padByte m (BitVec.ofNat 64 (absorbed m (j + 1))) (64 * j + i) =
      padByte m (BitVec.ofNat 64 m.length) (64 * j + i) := by
  by_cases hl : j + 1 = blockCount m.length
  · have : absorbed m (j + 1) = m.length := by
      have := padZeros_spec m.length
      simp only [absorbed, hl]
      omega
    rw [this]
  · have : 64 * j + i < 64 * blockCount m.length - 8 := by omega
    simp [padByte, this]

/-- The padder fills BLK with the block of the padded message that BLKCNT names, and counts its bytes in MLEN. -/
theorem Scratch.loadBlock_blk (sc : Scratch) (m : List Byte) (hj : sc.blkcnt < blockCount m.length)
    (hm : sc.mlen = BitVec.ofNat 64 (absorbed m sc.blkcnt)) :
    (sc.loadBlock m).blk.toList = blockAt (pad m) sc.blkcnt ∧
      (sc.loadBlock m).mlen = BitVec.ofNat 64 (absorbed m (sc.blkcnt + 1)) := by
  have hml : sc.mlen + BitVec.ofNat 64 (chunk m sc.blkcnt).length =
      BitVec.ofNat 64 (absorbed m (sc.blkcnt + 1)) := by
    rw [hm, ← absorbed_succ, BitVec.ofNat_add]
  refine ⟨?_, hml⟩
  rw [blockAt_eq _ _ (by rw [pad_length]; omega)]
  simp only [Scratch.loadBlock, hml]
  rw [toRegister_toList _ _ (by simp)]
  apply List.map_congr_left
  intro i hi
  have hi : i < 64 := List.mem_range.1 hi
  rw [padByte_absorbed _ _ _ hi hj, ← pad_getD _ _ (by omega)]

/-! ## A block and a whole pass (R117, R119) -/

/-- What the datapath does with the block BLKCNT names: one `compress`; BLKCNT and MLEN count, the others are kept. -/
structure BlockDone (m : List Byte) (sc sc' : Scratch) : Prop where
  hreg : sc'.hreg = compress sc.hreg (blockAt (pad m) sc.blkcnt)
  blkcnt : sc'.blkcnt = sc.blkcnt + 1
  mlen : sc'.mlen = BitVec.ofNat 64 (absorbed m (sc.blkcnt + 1))
  k0 : sc'.k0 = sc.k0
  ih : sc'.ih = sc.ih
  acc : sc'.acc = sc.acc
  valid : sc'.valid = sc.valid

theorem Scratch.compressEnd_spec (sc sc' : Scratch) (m : List Byte) (hj : sc.blkcnt < blockCount m.length)
    (hm : sc.mlen = BitVec.ofNat 64 (absorbed m sc.blkcnt))
    (hv : sc'.wv = roundsTo (schedule (sc.loadBlock m).blk.toList) (sc.loadBlock m).hreg 64)
    (hs : SameButRounds (sc.loadBlock m) sc') : BlockDone m sc sc'.compressEnd := by
  obtain ⟨hb, hl⟩ := sc.loadBlock_blk m hj hm
  have hr : (sc.loadBlock m).hreg = sc.hreg := rfl
  have hc : (sc.loadBlock m).blkcnt = sc.blkcnt := rfl
  rw [hb, hr] at hv
  refine ⟨?_, ?_, ?_, hs.k0, hs.ih, hs.acc, hs.valid⟩
  · simp only [Scratch.compressEnd, hv, hs.hreg, hr, compress]
  · simp only [Scratch.compressEnd, hs.blkcnt, hc]
  · simp only [Scratch.compressEnd, hs.mlen, hl]

theorem Scratch.hashBlock_spec (sc : Scratch) (m : List Byte) (hj : sc.blkcnt < blockCount m.length)
    (hm : sc.mlen = BitVec.ofNat 64 (absorbed m sc.blkcnt)) : BlockDone m sc (sc.hashBlock m) := by
  have h := (sc.loadBlock m).rounds_spec 64 le_rfl
  exact Scratch.compressEnd_spec sc _ m hj hm h.2.1 h.2.2.2

theorem chain_succ (p : List Byte) (n : Nat) : chain p (n + 1) = compress (chain p n) (blockAt p n) := by
  simp [chain, List.range_succ]

theorem sha256_eq (m : List Byte) : sha256 m = digest (chain (pad m) (blockCount m.length)) := by
  rw [sha256, pad_length, Nat.mul_div_cancel_left _ (by decide)]

/-- The scratch registers in the middle of the hash of `m`, `j` blocks done. -/
structure Hashing (m : List Byte) (j : Nat) (start sc : Scratch) : Prop where
  hreg : sc.hreg = chain (pad m) j
  blkcnt : sc.blkcnt = j
  mlen : sc.mlen = BitVec.ofNat 64 (absorbed m j)
  k0 : sc.k0 = start.k0
  ih : sc.ih = start.ih
  acc : sc.acc = start.acc
  valid : sc.valid = start.valid

theorem Hashing.step {m : List Byte} {j : Nat} {start sc : Scratch} (h : Hashing m j start sc)
    (hj : j < blockCount m.length) : Hashing m (j + 1) start (sc.hashBlock m) := by
  have d := sc.hashBlock_spec m (h.blkcnt ▸ hj) (h.blkcnt ▸ h.mlen)
  refine ⟨?_, ?_, ?_, d.k0.trans h.k0, d.ih.trans h.ih, d.acc.trans h.acc, d.valid.trans h.valid⟩
  · rw [d.hreg, h.hreg, h.blkcnt, chain_succ]
  · rw [d.blkcnt, h.blkcnt]
  · rw [d.mlen, h.blkcnt]

theorem Run.repeatOp_hash (m : List Byte) (n : Nat) (start : Scratch) (r : Run) (hn : n ≤ blockCount m.length)
    (h : Hashing m 0 start r.st.scratch) :
    ∃ sc, r.repeatOp .block (State.hashBlock m) n =
        { st := r.st.setScratch sc, trace := r.trace ++ List.replicate n .block } ∧ Hashing m n start sc := by
  induction n with
  | zero => exact ⟨r.st.scratch, by simp [Run.repeatOp, State.setScratch], h⟩
  | succ n ih =>
    obtain ⟨sc, h1, h2⟩ := ih (by omega)
    refine ⟨sc.hashBlock m, ?_, h2.step (by omega)⟩
    rw [Run.repeatOp, h1]
    simp [Run.op, State.hashBlock, State.setScratch, List.replicate_succ']

/-- THE ITERATIVE PROCESSOR: a pass over `m` changes nothing but the scratch registers, performs `N` compressions, and
leaves the chaining value of the whole message in HREG; K0, IH, ACC and VALID are kept. -/
theorem Run.hashPass_spec (r : Run) (m : List Byte) :
    ∃ sc, r.hashPass m =
        { st := r.st.setScratch sc, trace := r.trace ++ List.replicate (blockCount m.length) .block } ∧
      digest sc.hreg = sha256 m ∧ sc.k0 = r.st.scratch.k0 ∧ sc.ih = r.st.scratch.ih ∧
      sc.acc = r.st.scratch.acc ∧ sc.valid = r.st.scratch.valid := by
  obtain ⟨sc, h1, h2⟩ := Run.repeatOp_hash m (blockCount m.length) r.st.scratch
    (r.move fun s => s.setScratch s.scratch.hashInit) le_rfl
    ⟨rfl, rfl, by simp [absorbed, Scratch.hashInit], rfl, rfl, rfl, rfl⟩
  refine ⟨sc, ?_, ?_, h2.k0, h2.ih, h2.acc, h2.valid⟩
  · rw [Run.hashPass, h1]
    rfl
  · rw [h2.hreg, sha256_eq]

end Sys2Proof.Machine
end

