-- ==== Sys2Proof/Laws/Hmac.lean ====
section
/-!
SUPPORT. The HMAC engine on the registers computes the HMAC function (41_hmac.md R141 to R145).
-/

namespace Sys2Proof.Machine

theorem prepareKey_length (k : List Byte) : (prepareKey k).length = 64 := by
  unfold prepareKey
  split
  · simp
  · simp only [List.length_append, zeros_length]
    omega

theorem mask_length (p : Byte) (k0 : List Byte) (h : k0.length = 64) : (mask p k0).length = 64 := by
  simp [mask, xorBytes, h]

/-- The labels of `HMACTR(KEYLEN)` (70_reset_and_hazards.md R265). -/
def hmacLabels (keylen : Nat) : List Label :=
  (if 64 < keylen then List.replicate (blockCount keylen) .block else []) ++ [.keypad, .block, .block, .block, .block]

/-- The key hash runs exactly for a long key, and then HREG holds its digest. -/
theorem Run.keyHash_spec (r : Run) :
    ∃ sc, r.keyHash =
        { st := r.st.setScratch sc
          trace := r.trace ++ (if 64 < r.st.keylen.toNat then List.replicate (blockCount r.st.keylen.toNat) .block else []) } ∧
      (64 < r.st.keylen.toNat → digest sc.hreg = sha256 r.st.keyBytes) ∧
      sc.acc = r.st.scratch.acc ∧ sc.valid = r.st.scratch.valid := by
  unfold Run.keyHash
  split
  · obtain ⟨sc, h1, h2, -, -, h5, h6⟩ := r.hashPass_spec r.st.keyBytes
    exact ⟨sc, by rw [h1, State.keyBytes_length], fun _ => h2, h5, h6⟩
  · rename_i h
    exact ⟨r.st.scratch, by simp [State.setScratch], fun h' => absurd h' h, rfl, rfl⟩

/-- KEYPAD leaves the prepared key in K0. -/
theorem State.keypad_k0 (s : State)
    (h : 64 < s.keylen.toNat → digest s.scratch.hreg = sha256 s.keyBytes) :
    s.keypad.scratch.k0.toList = prepareKey s.keyBytes := by
  unfold State.keypad prepareKey
  rw [State.setScratch_scratch, State.keyBytes_length]
  split
  · rename_i hl
    rw [h hl, toRegister_toList]
    simp
  · rename_i hl
    apply List.ext_getElem
    · simp [State.keyBytes_length]
      omega
    · intro i h1 h2
      simp only [toRegister, Vector.toList_mk, List.getElem_map, List.getElem_range]
      by_cases hi : i < s.keyBytes.length
      · simp [List.getElem_append_left hi, hi]
      · simp [List.getElem_append_right (Nat.le_of_not_lt hi), Nat.le_of_not_lt hi, zeros]

/-- The inner pass leaves the inner hash in IH. -/
theorem Run.innerPass_spec (r : Run) :
    ∃ sc, r.innerPass = { st := r.st.setScratch sc, trace := r.trace ++ [.block, .block] } ∧
      sc.ih.toList = innerHash r.st.scratch.k0.toList r.st.nonce ∧ sc.k0 = r.st.scratch.k0 ∧
      sc.acc = r.st.scratch.acc ∧ sc.valid = r.st.scratch.valid := by
  obtain ⟨sc, h1, h2, h3, -, h5, h6⟩ := r.hashPass_spec (mask ipad r.st.scratch.k0.toList ++ r.st.nonce)
  refine ⟨{ sc with ih := toRegister 32 (digest sc.hreg) }, ?_, ?_, h3, h5, h6⟩
  · have hl : (mask ipad r.st.scratch.k0.toList ++ r.st.nonce).length = 80 := by
      rw [List.length_append, mask_length _ _ (by simp), State.nonce_length]
    rw [Run.innerPass, h1, hl]
    rfl
  · rw [toRegister_toList _ _ (by simp), h2, innerHash]

/-- The outer pass leaves the outer hash in TAG. -/
theorem Run.outerPass_spec (r : Run) :
    ∃ sc, r.outerPass =
        { st := (r.st.setBuf .tag (outerHash r.st.scratch.k0.toList r.st.scratch.ih.toList)).setScratch sc
          trace := r.trace ++ [.block, .block] } ∧
      sc.acc = r.st.scratch.acc ∧ sc.valid = r.st.scratch.valid := by
  obtain ⟨sc, h1, h2, -, -, h5, h6⟩ :=
    r.hashPass_spec (mask opad r.st.scratch.k0.toList ++ r.st.scratch.ih.toList)
  refine ⟨sc, ?_, h5, h6⟩
  have hl : (mask opad r.st.scratch.k0.toList ++ r.st.scratch.ih.toList).length = 96 := by
    rw [List.length_append, mask_length _ _ (by simp)]
    simp
  rw [Run.outerPass, h1, hl, outerHash, ← h2]
  rfl

/-- THE HMAC ENGINE: from any state, it writes the HMAC of NONCE under `KEY[0 ..< KEYLEN]` into TAG, changes nothing
else but scratch registers, keeps ACC and VALID, and performs `HMACTR(KEYLEN)`. -/
theorem Run.hmac_spec (r : Run) :
    ∃ sc, r.hmac =
        { st := (r.st.setBuf .tag (Machine.hmac r.st.keyBytes r.st.nonce)).setScratch sc
          trace := r.trace ++ hmacLabels r.st.keylen.toNat } ∧
      sc.acc = r.st.scratch.acc ∧ sc.valid = r.st.scratch.valid := by
  obtain ⟨sk, hk1, hk2, hk3, hk4⟩ := r.keyHash_spec
  obtain ⟨si, hi1, hi2, hi3, hi4, hi5⟩ := (r.keyHash.op .keypad State.keypad).innerPass_spec
  obtain ⟨so, ho1, ho2, ho3⟩ := (r.keyHash.op .keypad State.keypad).innerPass.outerPass_spec
  have hk0 : (r.keyHash.op .keypad State.keypad).st.scratch.k0.toList = prepareKey r.st.keyBytes := by
    have hkb : (r.st.setScratch sk).keyBytes = r.st.keyBytes := rfl
    rw [Run.op_st, State.keypad_k0]
    · rw [hk1, hkb]
    · intro hl
      rw [hk1] at hl ⊢
      rw [hkb]
      exact hk2 hl
  have hn : (r.keyHash.op .keypad State.keypad).st.nonce = r.st.nonce := by rw [hk1]; rfl
  have hsame : (r.keyHash.op .keypad State.keypad).innerPass.st = r.st.setScratch si := by
    rw [hi1, hk1]
    rfl
  refine ⟨so, ?_, ?_, ?_⟩
  · unfold Run.hmac
    rw [ho1, hsame]
    simp only [State.setScratch_scratch, hi2, hi3, hk0, hn]
    rw [hi1, hk1]
    simp only [Run.op_trace, List.append_assoc, hmacLabels, Machine.hmac]
    rfl
  · rw [ho2, hsame]
    simp only [State.setScratch_scratch, hi4]
    rw [hk1]
    exact hk3
  · rw [ho3, hsame]
    simp only [State.setScratch_scratch, hi5]
    rw [hk1]
    exact hk4

end Sys2Proof.Machine
end

