-- ==== Sys2Proof/Laws/Commands.lean ====
section
/-!
SUPPORT. One equation per command and outcome: the state its run ends in, with the datapath's residue gone (the scratch wipe
of 46_system.md R216 takes it), and the labels it performed.
-/

namespace Sys2Proof.Machine

/-! ## A completion forgets the scratch registers -/

theorem State.complete_setScratch (s : State) (sc : Scratch) (ok : Bool) :
    (s.setScratch sc).complete ok = s.complete ok := rfl

theorem State.raiseErr_setScratch (s : State) (sc : Scratch) (e : BitVec 4) :
    (s.setScratch sc).raiseErr e = s.raiseErr e := rfl

/-- A completion depends on nothing that it overwrites: the scratch registers, the phase, RNGQ. -/
theorem State.complete_congr {t u : State} (ok : Bool) (hie : t.ie = u.ie) (hst : t.status = u.status)
    (hk : t.keylen = u.keylen) (ht : t.toklen = u.toklen) (hm : t.mem = u.mem) (hc : t.seq.cmd = u.seq.cmd)
    (hcfg : t.cfg = u.cfg) (hr : t.reply = u.reply) (he : t.env = u.env) : t.complete ok = u.complete ok := by
  simp only [State.complete, State.finish, hie, hst, hk, ht, hm, hc, hcfg, hr, he]

/-- The same of an error entry. -/
theorem State.raiseErr_congr {t u : State} (e : BitVec 4) (hie : t.ie = u.ie) (hst : t.status = u.status)
    (hk : t.keylen = u.keylen) (ht : t.toklen = u.toklen) (hm : t.mem = u.mem) (hc : t.seq.cmd = u.seq.cmd)
    (hcfg : t.cfg = u.cfg) (hr : t.reply = u.reply) (he : t.env = u.env) : t.raiseErr e = u.raiseErr e := by
  simp only [State.raiseErr, State.finish, hie, hst, hk, ht, hm, hc, hcfg, hr, he]

/-- Taking the RNG's answer first makes no difference to a completion: it sets phase and RNGQ anyway. -/
theorem State.complete_takeAnswer (s : State) (ok : Bool) : s.takeAnswer.complete ok = s.complete ok := rfl

theorem State.raiseErr_takeAnswer (s : State) (e : BitVec 4) : s.takeAnswer.raiseErr e = s.raiseErr e := rfl

/-- A completion in the claims' words. -/
theorem State.complete_ended (s t : State) (ok : Bool) (hst : t.status = s.status) (hcmd : t.seq.cmd = s.seq.cmd) :
    Ended s (t.complete ok) ok 0 := by
  refine ⟨?_, rfl, ?_, rfl⟩
  · simp [hst, Status.completed, isFatal, errNone, errKey, errRng]
  · simp [hcmd]

/-- An error entry in the claims' words. -/
theorem State.raiseErr_ended (s t : State) (e : BitVec 4) (hst : t.status = s.status) (hcmd : t.seq.cmd = s.seq.cmd) :
    Ended s (t.raiseErr e) false e := by
  refine ⟨?_, rfl, ?_, rfl⟩
  · simp [hst, Status.completed, isFatal, errKey, errRng]
  · simp [hcmd]

/-! ## Frames of the buffer writes -/

/-- A write of one buffer keeps every byte outside it. -/
theorem State.setBuf_keepsBytes (s : State) (b : Buf) (l : List Byte) (hl : l.length ≤ b.size s.cfg) :
    KeepsBytesOutside s (s.setBuf b l) [b] := by
  intro a ha
  rw [State.read_setBuf, if_neg]
  have := ha b (by simp)
  omega

/-- Frames compose. -/
theorem KeepsBytesOutside.trans {s t u : State} {bs cs : List Buf} (h1 : KeepsBytesOutside s t bs)
    (h2 : KeepsBytesOutside t u cs) (hc : t.cfg = s.cfg) : KeepsBytesOutside s u (bs ++ cs) := by
  intro a ha
  rw [h2 a fun b hb => by rw [hc]; exact ha b (by simp [hb]), h1 a fun b hb => ha b (by simp [hb])]

/-! ## The operands after a write -/

theorem State.nonce_setBuf_tag (s : State) (l : List Byte) (h : l.length = 32) : (s.setBuf .tag l).nonce = s.nonce :=
  s.buf_setBuf_other .tag .nonce l (by simp [Buf.size, h]) (by decide)

theorem State.tag_setBuf_tag (s : State) (l : List Byte) (h : l.length = 32) : (s.setBuf .tag l).tag = l :=
  s.buf_setBuf_same .tag l (by simp [Buf.size, h])

theorem State.nonce_setBuf_nonce (s : State) (l : List Byte) (h : l.length = 16) : (s.setBuf .nonce l).nonce = l :=
  s.buf_setBuf_same .nonce l (by simp [Buf.size, h])

theorem State.dec_setBuf_dec (s : State) (l : List Byte) (h : l.length = 48) : (s.setBuf .dec l).dec = l :=
  s.buf_setBuf_same .dec l (by simp [Buf.size, h])

theorem State.dec_setBuf_nonce (s : State) (l : List Byte) (h : l.length = 16) : (s.setBuf .nonce l).dec = s.dec :=
  s.buf_setBuf_other .nonce .dec l (by simp [Buf.size, h]) (by decide)

theorem State.dec_setBuf_tag (s : State) (l : List Byte) (h : l.length = 32) : (s.setBuf .tag l).dec = s.dec :=
  s.buf_setBuf_other .tag .dec l (by simp [Buf.size, h]) (by decide)

theorem State.keyBytes_setBuf_nonce (s : State) (l : List Byte) (h : l.length = 16) :
    (s.setBuf .nonce l).keyBytes = s.keyBytes :=
  s.keyBytes_setBuf .nonce l (by simp [Buf.size, h]) (by decide)

theorem State.keyBytes_setBuf_dec (s : State) (l : List Byte) (h : l.length = 48) :
    (s.setBuf .dec l).keyBytes = s.keyBytes :=
  s.keyBytes_setBuf .dec l (by simp [Buf.size, h]) (by decide)

/-- BTOK reads memory only. -/
theorem State.btok_congr {t u : State} (hm : t.mem = u.mem) (hc : t.cfg = u.cfg) : t.btok = u.btok := by
  simp only [State.btok, State.nonce, State.tag, State.buf, hm, hc]

/-! ## The runs -/

theorem runMac_ok (s : State) (h : s.keyOk = true) :
    runMac s =
      { st := (s.setBuf .tag (hmac s.keyBytes s.nonce)).complete true
        trace := [.issue, .keychk] ++ hmacLabels s.keylen.toNat ++ [.finish] } := by
  obtain ⟨sc, h1, -, -⟩ := ((Run.start s).op .keychk id).hmac_spec
  unfold runMac
  simp only [Run.op_st, Run.start_st, id, h, if_true, h1]
  rfl

theorem runMac_bad (s : State) (h : s.keyOk = false) :
    runMac s = { st := (s.wipe .tag).raiseErr errKey, trace := [.issue, .keychk, .wipeout, .finish] } := by
  unfold runMac
  simp only [h, Bool.false_eq_true, if_false]
  rfl

theorem runHash_ok (s : State) (h : s.keyTooLong = false) :
    runHash s =
      { st := (s.setBuf .tag (sha256 s.keyBytes)).complete true
        trace := [.issue, .keychk] ++ List.replicate (blockCount s.keylen.toNat) .block ++ [.finish] } := by
  obtain ⟨sc, h1, h2, -⟩ := ((Run.start s).op .keychk id).hashPass_spec s.keyBytes
  unfold runHash
  simp only [h, Bool.false_eq_true, if_false, h1, State.keyBytes_length, ← h2]
  rfl

theorem runHash_bad (s : State) (h : s.keyTooLong = true) :
    runHash s = { st := (s.wipe .tag).raiseErr errKey, trace := [.issue, .keychk, .wipeout, .finish] } := by
  unfold runHash
  simp only [h, if_true]
  rfl

theorem runDraw_ok (s : State) (r : Vector Byte 16) (h : s.rngq = .ans (.ok r)) :
    runDraw s = { st := (s.setBuf .nonce r.toList).complete true, trace := [.issue, .rngreq, .finish] } := by
  unfold runDraw
  simp only [h]
  rfl

theorem runDraw_fail (s : State) (h : s.rngq = .ans .fail) :
    runDraw s = { st := (s.wipe .nonce).raiseErr errRng, trace := [.issue, .rngreq, .wipeout, .finish] } := by
  unfold runDraw
  simp only [h]
  rfl

theorem runDraw_wait (s : State) (h : s.rngq.kind = .waiting) :
    runDraw s = { st := s, trace := [.issue, .rngreq] } := by
  unfold runDraw
  split
  · rename_i h'; simp [h', RngQ.kind] at h
  · rename_i h'; simp [h', RngQ.kind] at h
  · rfl
  · rfl

theorem runHexe_eq (s : State) :
    runHexe s = { st := s.hexenc.complete true, trace := [.issue, .hexenc48, .finish] } := rfl

theorem runHexd_eq (s : State) :
    runHexd s =
      { st := (s.setBuf .dec s.decoded.1).complete s.decoded.2, trace := [.issue, .hexdec96, .finish] } := rfl

/-- The comparator's verdict on the registers (42_compare.md R155). -/
theorem State.cmp48_accZero (s : State) : s.cmp48.accZero = cteq48 s.dec s.btok := rfl

theorem runCmp_eq (s : State) :
    runCmp s = { st := s.complete (cteq48 s.dec s.btok), trace := [.issue, .cmp48, .finish] } := by
  rw [← State.cmp48_accZero]
  rfl

theorem runWipe_eq (s : State) :
    runWipe s = { st := s.wipeAll.complete true, trace := [.issue, .wipeall, .finish] } := by
  with_unfolding_all rfl

/-- The state of a successful GEN before its completion. -/
def genOutputs (s : State) (r : List Byte) : State :=
  ((s.setBuf .nonce r).setBuf .tag (hmac s.keyBytes r)).hexenc

theorem runGen_ok (s : State) (r : Vector Byte 16) (h : s.rngq = .ans (.ok r)) (hk : s.keyOk = true) :
    runGen s =
      { st := (genOutputs s r.toList).complete true
        trace := [.issue, .rngreq, .keychk] ++ hmacLabels s.keylen.toNat ++ [.hexenc48, .finish] } := by
  have hr : r.toList.length = 16 := by simp
  obtain ⟨sc, h1, -, -⟩ :=
    ((((Run.awaitRng s).move State.takeAnswer).move fun s => s.setBuf .nonce r.toList).op .keychk id).hmac_spec
  unfold runGen Run.genFromKey
  simp only [h]
  have hk' : ((((Run.awaitRng s).move State.takeAnswer).move fun s => s.setBuf .nonce r.toList).op
      .keychk id).st.keyOk = true := hk
  have hn : ((((Run.awaitRng s).move State.takeAnswer).move fun s => s.setBuf .nonce r.toList).op
      .keychk id).st.nonce = r.toList := State.nonce_setBuf_nonce _ _ hr
  have hkb : ((((Run.awaitRng s).move State.takeAnswer).move fun s => s.setBuf .nonce r.toList).op
      .keychk id).st.keyBytes = s.keyBytes := State.keyBytes_setBuf_nonce _ _ hr
  rw [hn, hkb] at h1
  rw [if_pos hk', h1]
  simp only [Run.complete, Run.op, Run.move, Run.start, Run.awaitRng, Run.mk.injEq]
  constructor
  · apply State.complete_congr <;> simp [genOutputs, State.hexenc]
    rw [State.btok_congr (u := (s.setBuf Buf.nonce r.toList).setBuf Buf.tag (hmac s.keyBytes r.toList))] <;> simp
  · simp

theorem runGen_badKey (s : State) (r : Vector Byte 16) (h : s.rngq = .ans (.ok r)) (hk : s.keyOk = false) :
    runGen s =
      { st := ((s.setBuf .nonce r.toList).wipeGen).raiseErr errKey
        trace := [.issue, .rngreq, .keychk, .wipeout, .finish] } := by
  unfold runGen Run.genFromKey
  simp only [h]
  have hk' : ((((Run.awaitRng s).move State.takeAnswer).move fun s => s.setBuf .nonce r.toList).op
      .keychk id).st.keyOk = false := hk
  rw [if_neg (by rw [hk']; decide)]
  rfl

theorem runGen_fail (s : State) (h : s.rngq = .ans .fail) :
    runGen s = { st := s.wipeGen.raiseErr errRng, trace := [.issue, .rngreq, .wipeout, .finish] } := by
  unfold runGen
  simp only [h]
  rfl

theorem runGen_wait (s : State) (h : s.rngq.kind = .waiting) :
    runGen s = { st := s, trace := [.issue, .rngreq] } := by
  unfold runGen
  split
  · rename_i h'; simp [h', RngQ.kind] at h
  · rename_i h'; simp [h', RngQ.kind] at h
  · rfl
  · rfl

theorem runVfy_malformed (s : State) (h : s.decoded.2 = false) :
    runVfy s = { st := s.wipeVfy.complete false, trace := [.issue, .hexdec96, .wipeout, .finish] } := by
  unfold runVfy
  have hv : ((Run.start s).op .hexdec96 State.hexdec).st.scratch.valid = false := h
  rw [if_neg (by rw [hv]; decide)]
  rfl

theorem runVfy_badKey (s : State) (h : s.decoded.2 = true) (hk : s.keyOk = false) :
    runVfy s =
      { st := ((s.loadCandidate s.decoded.1).wipeVfy).raiseErr errKey
        trace := [.issue, .hexdec96, .keychk, .wipeout, .finish] } := by
  unfold runVfy
  have hv : ((Run.start s).op .hexdec96 State.hexdec).st.scratch.valid = true := h
  rw [if_pos hv]
  unfold Run.vfyFromKey
  have hk' : ((((Run.start s).op .hexdec96 State.hexdec).move fun t => t.loadCandidate s.decoded.1).op
      .keychk id).st.keyOk = false := by
    simpa [State.keyOk] using hk
  rw [if_neg (by rw [hk']; decide)]
  rfl

/-- The state of a VFY that has recomputed the tag. -/
def vfyCandidate (s : State) : State :=
  (s.loadCandidate s.decoded.1).setBuf .tag (hmac s.keyBytes (s.decoded.1.take 16))

theorem State.decoded_length (s : State) : s.decoded.1.length = 48 := by simp [State.decoded, hexdec96]

theorem State.loadCandidate_eq (s : State) (x : List Byte) (hx : x.length = 48) :
    s.loadCandidate x = (s.setBuf .dec x).setBuf .nonce (x.take 16) := by
  show (s.setBuf .dec x).setBuf .nonce ((s.setBuf .dec x).dec.take 16) = _
  rw [State.dec_setBuf_dec _ _ hx]

theorem vfyCandidate_dec (s : State) : (vfyCandidate s).dec = s.decoded.1 := by
  have hx := s.decoded_length
  rw [vfyCandidate, State.dec_setBuf_tag _ _ (by simp), State.loadCandidate_eq _ _ hx,
    State.dec_setBuf_nonce _ _ (by simp [hx]), State.dec_setBuf_dec _ _ hx]

theorem vfyCandidate_btok (s : State) :
    (vfyCandidate s).btok = s.decoded.1.take 16 ++ hmac s.keyBytes (s.decoded.1.take 16) := by
  have hx := s.decoded_length
  rw [State.btok, vfyCandidate, State.tag_setBuf_tag _ _ (by simp), State.nonce_setBuf_tag _ _ (by simp),
    State.loadCandidate_eq _ _ hx, State.nonce_setBuf_nonce _ _ (by simp [hx])]

theorem runVfy_full (s : State) (h : s.decoded.2 = true) (hk : s.keyOk = true) :
    runVfy s =
      { st := (vfyCandidate s).wipeVfy.complete
          (cteq48 s.decoded.1 (s.decoded.1.take 16 ++ hmac s.keyBytes (s.decoded.1.take 16)))
        trace := [.issue, .hexdec96, .keychk] ++ hmacLabels s.keylen.toNat ++ [.cmp48, .wipeout, .finish] } := by
  have hx := s.decoded_length
  unfold runVfy
  have hv : ((Run.start s).op .hexdec96 State.hexdec).st.scratch.valid = true := h
  rw [if_pos hv]
  unfold Run.vfyFromKey
  have hk' : ((((Run.start s).op .hexdec96 State.hexdec).move fun t => t.loadCandidate s.decoded.1).op
      .keychk id).st.keyOk = true := by
    simpa [State.keyOk] using hk
  rw [if_pos hk']
  obtain ⟨sc, h1, -, -⟩ := ((((Run.start s).op .hexdec96 State.hexdec).move fun t =>
    t.loadCandidate s.decoded.1).op .keychk id).hmac_spec
  have hst : ((((Run.start s).op .hexdec96 State.hexdec).move fun t => t.loadCandidate s.decoded.1).op
      .keychk id).st = (s.loadCandidate s.decoded.1).setScratch { s.scratch with valid := s.decoded.2 } := rfl
  have hkb : ((s.loadCandidate s.decoded.1).setScratch { s.scratch with valid := s.decoded.2 }).keyBytes =
      s.keyBytes := by
    have : ((s.loadCandidate s.decoded.1).setScratch { s.scratch with valid := s.decoded.2 }).keyBytes =
        (s.loadCandidate s.decoded.1).keyBytes := rfl
    rw [this, State.loadCandidate_eq _ _ hx, State.keyBytes_setBuf_nonce _ _ (by simp [hx]),
      State.keyBytes_setBuf_dec _ _ hx]
  have hn : ((s.loadCandidate s.decoded.1).setScratch { s.scratch with valid := s.decoded.2 }).nonce =
      s.decoded.1.take 16 := by
    have : ((s.loadCandidate s.decoded.1).setScratch { s.scratch with valid := s.decoded.2 }).nonce =
        (s.loadCandidate s.decoded.1).nonce := rfl
    rw [this, State.loadCandidate_eq _ _ hx, State.nonce_setBuf_nonce _ _ (by simp [hx])]
  rw [hst, hkb, hn] at h1
  rw [h1]
  have hv' : (((s.loadCandidate s.decoded.1).setScratch { s.scratch with valid := s.decoded.2 }).setBuf .tag
      (hmac s.keyBytes (s.decoded.1.take 16))).setScratch sc = (vfyCandidate s).setScratch sc := rfl
  have hc : ((vfyCandidate s).setScratch sc).cmp48.accZero =
      cteq48 s.decoded.1 (s.decoded.1.take 16 ++ hmac s.keyBytes (s.decoded.1.take 16)) := by
    rw [← vfyCandidate_btok, ← vfyCandidate_dec]
    rfl
  rw [hv']
  simp only [Run.endVfy, Run.complete, Run.op, Run.move, Run.start, Run.mk.injEq, hc]
  constructor
  · apply State.complete_congr <;> simp [State.wipeVfy]
  · simp

end Sys2Proof.Machine
end

