-- ==== Sys2Proof/Laws/Effects.lean ====
section
/-!
SUPPORT. What any command can do: an inversion of `exec`. A command waits in the same state, or writes output buffers and
lengths and finishes.
-/

namespace Sys2Proof.Machine

/-! ## Memory stays in form -/

theorem inBuffer_of_buf (c : Config) (b : Buf) (a : Nat) (h : b.base ≤ a ∧ a < b.base + b.size c) :
    inBuffer c a = true := by
  simp only [inBuffer, List.any_eq_true, Bool.and_eq_true, decide_eq_true_eq]
  exact ⟨b, by cases b <;> simp, h⟩

theorem State.reset_memInv (c : Config) : State.MemInv { State.reset with cfg := c } := by
  refine ⟨⟨List.Pairwise.nil, ?_⟩, ?_⟩ <;> intro c hc <;> cases hc

/-- A write inside a buffer keeps the memory's form (20_memory.md R62). -/
theorem State.MemInv_writeBytes (s : State) (a : Nat) (b : Buf) (l : List Byte) (h : s.MemInv) (h1 : b.base ≤ a)
    (h2 : a + l.length ≤ b.base + b.size s.cfg) :
    State.MemInv { s with mem := s.mem.writeBytes a l } := by
  refine ⟨s.mem.writeBytes_wf _ _ h.1, fun c hc => ?_⟩
  rcases s.mem.writeBytes_mem _ _ c hc with hc | hc
  · exact inBuffer_of_buf _ b _ ⟨by omega, by dsimp only; omega⟩
  · exact h.2 c hc

theorem State.MemInv_setBuf (s : State) (b : Buf) (l : List Byte) (h : s.MemInv) (hl : l.length ≤ b.size s.cfg) :
    (s.setBuf b l).MemInv :=
  s.MemInv_writeBytes b.base b l h le_rfl (by omega)

/-! ## What is written before the end -/

/-- `u` is `s` after writes of a command's output buffers, TOKLEN, and scratch registers. -/
structure Outputs (s u : State) : Prop where
  ie : u.ie = s.ie
  status : u.status = s.status
  cmd : u.seq.cmd = s.seq.cmd
  cfg : u.cfg = s.cfg
  reply : u.reply = s.reply
  env : u.env = s.env
  mem : s.MemInv → u.MemInv

/-- `u` has the key of `s`. -/
structure KeepsKey (s u : State) : Prop where
  keylen : u.keylen = s.keylen
  key : u.buf .key = s.buf .key

theorem Outputs.refl (s : State) : Outputs s s := ⟨rfl, rfl, rfl, rfl, rfl, rfl, id⟩

theorem Outputs.trans {s t u : State} (h : Outputs s t) (g : Outputs t u) : Outputs s u :=
  ⟨g.ie.trans h.ie, g.status.trans h.status, g.cmd.trans h.cmd, g.cfg.trans h.cfg, g.reply.trans h.reply,
    g.env.trans h.env, g.mem ∘ h.mem⟩

theorem Outputs.setBuf {s u : State} (h : Outputs s u) (b : Buf) (l : List Byte) (hl : l.length = b.size s.cfg) :
    Outputs s (u.setBuf b l) :=
  h.trans ⟨rfl, rfl, rfl, rfl, rfl, rfl, fun hm => u.MemInv_setBuf b l hm (by rw [h.cfg, hl])⟩

theorem Outputs.wipe {s u : State} (h : Outputs s u) (b : Buf) : Outputs s (u.wipe b) :=
  h.setBuf b _ (by rw [zeros_length, h.cfg])

theorem Outputs.setToklen {s u : State} (h : Outputs s u) (v : Word) : Outputs s (u.setToklen v) :=
  h.trans ⟨rfl, rfl, rfl, rfl, rfl, rfl, id⟩

theorem Outputs.setKeylen {s u : State} (h : Outputs s u) (v : BitVec 16) : Outputs s (u.setKeylen v) :=
  h.trans ⟨rfl, rfl, rfl, rfl, rfl, rfl, id⟩

theorem Outputs.hexenc {s u : State} (h : Outputs s u) : Outputs s u.hexenc :=
  (h.setBuf .token (hexEncode u.btok) (by simp [State.btok_length, Buf.size])).setToklen 96

theorem Outputs.wipeGen {s u : State} (h : Outputs s u) : Outputs s u.wipeGen :=
  (((h.wipe .nonce).wipe .tag).wipe .token).setToklen 0

theorem Outputs.wipeVfy {s u : State} (h : Outputs s u) : Outputs s u.wipeVfy :=
  ((h.wipe .nonce).wipe .tag).wipe .dec

theorem Outputs.wipeAll {s u : State} (h : Outputs s u) : Outputs s u.wipeAll :=
  ((((((h.wipe .nonce).wipe .tag).wipe .dec).wipe .token).wipe .key).setKeylen 0).setToklen 0

theorem Outputs.loadCandidate {s u : State} (h : Outputs s u) (x : List Byte) (hx : x.length = 48) :
    Outputs s (u.loadCandidate x) := by
  rw [State.loadCandidate_eq _ _ hx]
  exact (h.setBuf .dec x hx).setBuf .nonce _ (by simp [hx, Buf.size])

theorem KeepsKey.refl (s : State) : KeepsKey s s := ⟨rfl, rfl⟩

theorem KeepsKey.setBuf {s u : State} (h : KeepsKey s u) (b : Buf) (l : List Byte) (hb : b ≠ .key)
    (hl : l.length ≤ b.size u.cfg) : KeepsKey s (u.setBuf b l) :=
  ⟨h.keylen, (u.buf_setBuf_other b .key l hl hb).trans h.key⟩

theorem KeepsKey.wipe {s u : State} (h : KeepsKey s u) (b : Buf) (hb : b ≠ .key) : KeepsKey s (u.wipe b) :=
  h.setBuf b _ hb (by simp)

theorem KeepsKey.setToklen {s u : State} (h : KeepsKey s u) (v : Word) : KeepsKey s (u.setToklen v) :=
  ⟨h.keylen, h.key⟩

theorem KeepsKey.hexenc {s u : State} (h : KeepsKey s u) : KeepsKey s u.hexenc :=
  (h.setBuf .token (hexEncode u.btok) (by decide) (by simp [State.btok_length, Buf.size])).setToklen 96

theorem KeepsKey.wipeGen {s u : State} (h : KeepsKey s u) : KeepsKey s u.wipeGen :=
  (((h.wipe .nonce (by decide)).wipe .tag (by decide)).wipe .token (by decide)).setToklen 0

theorem KeepsKey.wipeVfy {s u : State} (h : KeepsKey s u) : KeepsKey s u.wipeVfy :=
  ((h.wipe .nonce (by decide)).wipe .tag (by decide)).wipe .dec (by decide)

theorem KeepsKey.loadCandidate {s u : State} (h : KeepsKey s u) (x : List Byte) (hx : x.length = 48) :
    KeepsKey s (u.loadCandidate x) := by
  rw [State.loadCandidate_eq _ _ hx]
  exact (h.setBuf .dec x (by decide) hx.le).setBuf .nonce _ (by decide) (by simp [hx, Buf.size])

/-! ## The inversion -/

/-- The end of a run, and whether it keeps the key. -/
def Ends (s t : State) (keepsKey : Prop) : Prop :=
  ∃ (u : State) (ok : Bool) (e : BitVec 4), Outputs s u ∧ (keepsKey → KeepsKey s u) ∧ t = u.finish ok e ∧
    (e = errNone ∨ (ok = false ∧ (e = errKey ∨ e = errRng)))

theorem Ends.complete {s u : State} {p : Prop} (ho : Outputs s u) (hk : p → KeepsKey s u) (ok : Bool) :
    Ends s (u.complete ok) p := ⟨u, ok, errNone, ho, hk, rfl, .inl rfl⟩

theorem Ends.raiseErr {s u : State} {p : Prop} (ho : Outputs s u) (hk : p → KeepsKey s u) (e : BitVec 4)
    (he : e = errKey ∨ e = errRng) : Ends s (u.raiseErr e) p := ⟨u, false, e, ho, hk, rfl, .inr ⟨rfl, he⟩⟩

/-- What a command's run can do: GEN and DRAW without an answer wait; every other run writes outputs and finishes; only
WIPE may write the key (20_memory.md R72). -/
theorem runOf_cases (i : Instr) (s : State) :
    ((i = .gen ∨ i = .draw) ∧ s.rngq.kind = .waiting ∧ (runOf i s).st = s) ∨ Ends s (runOf i s).st (i ≠ .wipe) := by
  have o := Outputs.refl s
  have k := KeepsKey.refl s
  have hx := s.decoded_length
  cases i <;> simp only [runOf, reduceCtorEq, or_true, true_or, or_self, false_and, false_or, true_and]
  · exact .complete o (fun _ => k) _
  · rcases hq : s.rngq with _ | _ | ⟨⟨r⟩ | _⟩
    · exact .inl ⟨rfl, by rw [runGen_wait s (by rw [hq]; rfl)]⟩
    · exact .inl ⟨rfl, by rw [runGen_wait s (by rw [hq]; rfl)]⟩
    · right
      have o1 := o.setBuf .nonce r.toList (by simp [Buf.size])
      have k1 := k.setBuf .nonce r.toList (by decide) (by simp [Buf.size])
      cases hk : s.keyOk
      · rw [runGen_badKey s r hq hk]
        exact .raiseErr o1.wipeGen (fun _ => k1.wipeGen) _ (.inl rfl)
      · rw [runGen_ok s r hq hk]
        exact .complete (o1.setBuf .tag _ (by simp [Buf.size])).hexenc
          (fun _ => (k1.setBuf .tag _ (by decide) (by simp [Buf.size])).hexenc) _
    · right
      rw [runGen_fail s hq]
      exact .raiseErr o.wipeGen (fun _ => k.wipeGen) _ (.inr rfl)
  · cases hv : s.decoded.2
    · rw [runVfy_malformed s hv]
      exact .complete o.wipeVfy (fun _ => k.wipeVfy) _
    · have o1 := o.loadCandidate _ hx
      have k1 := k.loadCandidate _ hx
      cases hk : s.keyOk
      · rw [runVfy_badKey s hv hk]
        exact .raiseErr o1.wipeVfy (fun _ => k1.wipeVfy) _ (.inl rfl)
      · rw [runVfy_full s hv hk]
        exact .complete (o1.setBuf .tag _ (by simp [Buf.size])).wipeVfy
          (fun _ => (k1.setBuf .tag _ (by decide) (by simp [Buf.size])).wipeVfy) _
  · cases hk : s.keyOk
    · rw [runMac_bad s hk]
      exact .raiseErr (o.wipe .tag) (fun _ => k.wipe .tag (by decide)) _ (.inl rfl)
    · rw [runMac_ok s hk]
      exact .complete (o.setBuf .tag _ (by simp [Buf.size])) (fun _ => k.setBuf .tag _ (by decide) (by simp [Buf.size])) _
  · cases hk : s.keyTooLong
    · rw [runHash_ok s hk]
      exact .complete (o.setBuf .tag _ (by simp [Buf.size])) (fun _ => k.setBuf .tag _ (by decide) (by simp [Buf.size])) _
    · rw [runHash_bad s hk]
      exact .raiseErr (o.wipe .tag) (fun _ => k.wipe .tag (by decide)) _ (.inl rfl)
  · rcases hq : s.rngq with _ | _ | ⟨⟨r⟩ | _⟩
    · exact .inl ⟨rfl, by rw [runDraw_wait s (by rw [hq]; rfl)]⟩
    · exact .inl ⟨rfl, by rw [runDraw_wait s (by rw [hq]; rfl)]⟩
    · right
      rw [runDraw_ok s r hq]
      exact .complete (o.setBuf .nonce _ (by simp [Buf.size]))
        (fun _ => k.setBuf .nonce _ (by decide) (by simp [Buf.size])) _
    · right
      rw [runDraw_fail s hq]
      exact .raiseErr (o.wipe .nonce) (fun _ => k.wipe .nonce (by decide)) _ (.inr rfl)
  · rw [runHexe_eq]
    exact .complete o.hexenc (fun _ => k.hexenc) _
  · rw [runHexd_eq]
    exact .complete (o.setBuf .dec _ hx) (fun _ => k.setBuf .dec _ (by decide) hx.le) _
  · rw [runCmp_eq]
    exact .complete o (fun _ => k) _
  · rw [runWipe_eq]
    exact .complete o.wipeAll (fun h => absurd rfl h) _

end Sys2Proof.Machine
end

