-- ==== Sys2Proof/Laws/Claims.lean ====
section
/-!
SUPPORT. Small laws of the claims' vocabulary (Safety.lean): how they pass through buffer writes, wipes and completions.
-/

namespace Sys2Proof.Machine

/-! ## Completions -/

theorem Ended.complete {s u : State} (h : Outputs s u) (ok : Bool) : Ended s (u.complete ok) ok 0 :=
  s.complete_ended u ok h.status h.cmd

theorem Ended.raiseErr {s u : State} (h : Outputs s u) (e : BitVec 4) : Ended s (u.raiseErr e) false e :=
  s.raiseErr_ended u e h.status h.cmd

theorem KeepsCtrl.finish {s u : State} (h : Outputs s u) (ok : Bool) (e : BitVec 4) : KeepsCtrl s (u.finish ok e) :=
  ⟨h.ie, h.cfg, h.reply, h.env⟩

theorem IsZero.finish {u : State} {b : Buf} (h : IsZero u b) (ok : Bool) (e : BitVec 4) : IsZero (u.finish ok e) b := h

theorem KeepsBytesOutside.finish {s u : State} {l : List Buf} (h : KeepsBytesOutside s u l) (ok : Bool) (e : BitVec 4) :
    KeepsBytesOutside s (u.finish ok e) l := h

theorem State.raiseErr_fatal (s : State) (e : BitVec 4) (h : e = errKey ∨ e = errRng) :
    (s.raiseErr e).status.fatal = true := by
  rcases h with rfl | rfl <;> simp [Status.completed, isFatal, errKey, errRng]

@[simp] theorem State.finish_buf (s : State) (ok : Bool) (e : BitVec 4) (b : Buf) : (s.finish ok e).buf b = s.buf b := rfl
@[simp] theorem State.complete_nonce (s : State) (ok : Bool) : (s.complete ok).nonce = s.nonce := rfl
@[simp] theorem State.complete_tag (s : State) (ok : Bool) : (s.complete ok).tag = s.tag := rfl
@[simp] theorem State.complete_dec (s : State) (ok : Bool) : (s.complete ok).dec = s.dec := rfl
@[simp] theorem State.complete_token (s : State) (ok : Bool) : (s.complete ok).token = s.token := rfl
@[simp] theorem State.complete_btok (s : State) (ok : Bool) : (s.complete ok).btok = s.btok := rfl
@[simp] theorem State.complete_keyBytes (s : State) (ok : Bool) : (s.complete ok).keyBytes = s.keyBytes := rfl

/-! ## Zero buffers -/

theorem IsZero.wipe_same (s : State) (b : Buf) : IsZero (s.wipe b) b := s.buf_wipe_same b

theorem IsZero.wipe {s : State} {c : Buf} (h : IsZero s c) (b : Buf) : IsZero (s.wipe b) c := by
  by_cases hb : b = c
  · subst hb; exact IsZero.wipe_same s b
  · exact (s.buf_wipe_other b c hb).trans h

theorem IsZero.setToklen {s : State} {c : Buf} (h : IsZero s c) (v : Word) : IsZero (s.setToklen v) c := h

theorem IsZero.setKeylen {s : State} {c : Buf} (h : IsZero s c) (v : BitVec 16) : IsZero (s.setKeylen v) c := h

/-! ## Bytes outside -/

theorem KeepsBytesOutside.refl (s : State) (l : List Buf) : KeepsBytesOutside s s l := fun _ _ => rfl

theorem KeepsBytesOutside.setBuf {s u : State} {l : List Buf} (h : KeepsBytesOutside s u l) (b : Buf) (x : List Byte)
    (hx : x.length ≤ b.size s.cfg) (hb : b ∈ l) : KeepsBytesOutside s (u.setBuf b x) l := by
  intro a ha
  rw [State.read_setBuf, if_neg, h a ha]
  have := ha b hb
  omega

theorem KeepsBytesOutside.wipe {s u : State} {l : List Buf} (h : KeepsBytesOutside s u l) (b : Buf)
    (hc : u.cfg = s.cfg) (hb : b ∈ l) : KeepsBytesOutside s (u.wipe b) l :=
  h.setBuf b _ (by simp [hc]) hb

theorem KeepsBytesOutside.setToklen {s u : State} {l : List Buf} (h : KeepsBytesOutside s u l) (v : Word) :
    KeepsBytesOutside s (u.setToklen v) l := h

theorem KeepsBytesOutside.setKeylen {s u : State} {l : List Buf} (h : KeepsBytesOutside s u l) (v : BitVec 16) :
    KeepsBytesOutside s (u.setKeylen v) l := h

/-- A buffer that stands outside the written ones is as it was. -/
theorem KeepsBytesOutside.buf {s u : State} {l : List Buf} (h : KeepsBytesOutside s u l) (hc : u.cfg = s.cfg) (b : Buf)
    (hb : b ∉ l) : u.buf b = s.buf b := by
  simp only [State.buf, hc]
  apply Memory.readBytes_congr
  intro i hi
  apply h
  intro c hcl hr
  have hne : b ≠ c := fun h => hb (h ▸ hcl)
  cases b <;> cases c <;> simp_all [Buf.base, Buf.size] <;> omega

/-! ## The operands of a keyed command -/

theorem State.keyOk_true {s : State} (h1 : 1 ≤ s.keylen.toNat) (h2 : s.keylen.toNat ≤ s.cfg.keyMax) :
    s.keyOk = true := by
  simp [State.keyOk, h1, h2]

theorem State.keyOk_false {s : State} (h : s.keylen.toNat = 0 ∨ s.cfg.keyMax < s.keylen.toNat) : s.keyOk = false := by
  simp [State.keyOk]
  omega

/-! ## The encoder's output -/

theorem State.hexenc_token (s : State) : s.hexenc.token = hexEncode s.btok :=
  s.buf_setBuf_same .token _ (by simp [State.btok_length, Buf.size])

theorem State.hexenc_nonce (s : State) : s.hexenc.nonce = s.nonce :=
  s.buf_setBuf_other .token .nonce _ (by simp [State.btok_length, Buf.size]) (by decide)

theorem State.hexenc_tag (s : State) : s.hexenc.tag = s.tag :=
  s.buf_setBuf_other .token .tag _ (by simp [State.btok_length, Buf.size]) (by decide)

theorem State.hexenc_btok (s : State) : s.hexenc.btok = s.btok := by
  rw [State.btok, State.hexenc_nonce, State.hexenc_tag, State.btok]

theorem State.hexenc_keyBytes (s : State) : s.hexenc.keyBytes = s.keyBytes :=
  s.keyBytes_setBuf .token _ (by simp [State.btok_length, Buf.size]) (by decide)

end Sys2Proof.Machine
end

