-- ==== Sys2Proof/Laws/PerInstr.lean ====
section
/-!
SUPPORT. A statement about every instruction as syntax, one lemma per constructor.
-/

namespace Sys2Proof.Laws.Fields

/-- The command's word has the format CMD32 with the reserved field zero and an assigned opcode (30_encoding.md R90, R91,
R93), the decoder's field split gives back the encoder's fields, and the command is well-formed. -/
def Statement (i : Instr) : Prop :=
  (encodeFields i).wf = true ∧ Cmd32.ofWord (encode i) = encodeFields i ∧ encode i = (opcode i).setWidth 32 ∧
    i.wf = true

theorem nop : Statement .nop := by unfold Statement; decide
theorem gen : Statement .gen := by unfold Statement; decide
theorem vfy : Statement .vfy := by unfold Statement; decide
theorem mac : Statement .mac := by unfold Statement; decide
theorem hash : Statement .hash := by unfold Statement; decide
theorem draw : Statement .draw := by unfold Statement; decide
theorem hexe : Statement .hexe := by unfold Statement; decide
theorem hexd : Statement .hexd := by unfold Statement; decide
theorem cmp : Statement .cmp := by unfold Statement; decide
theorem wipe : Statement .wipe := by unfold Statement; decide

end Sys2Proof.Laws.Fields
end

