-- ==== Sys2Proof/Laws/Port.lean ====
section
/-!
SUPPORT. The register port: when a transaction is accepted and what it does, the map at the fixed registers and the
buffers, and the two writes that act (CTRL and CMD).
-/

namespace Sys2Proof.Machine

/-! ## The map -/

/-- When a row holds an offset. -/
theorem Region.holds_true (r : Region) (a : Nat) : r.holds a = true ↔ r.base ≤ a ∧ a < r.base + r.size := by
  simp [Region.holds]

theorem Region.holds_false (r : Region) (a : Nat) : r.holds a = false ↔ ¬ (r.base ≤ a ∧ a < r.base + r.size) := by
  simp [Region.holds]

/-- A buffer found by the map is really there (20_memory.md R62). -/
theorem target_buf_range (c : Config) (a : Nat) (b : Buf) (h : target c a = some (.buf b)) :
    b.base ≤ a ∧ a < b.base + b.size c := by
  unfold target at h
  split at h
  · rename_i r hr
    have hm := List.mem_of_find?_eq_some hr
    have hh := List.find?_some hr
    simp only [addressMap, List.mem_cons, List.not_mem_nil, or_false] at hm
    rcases hm with rfl | rfl | rfl | rfl | rfl | rfl | rfl | rfl | rfl | rfl | rfl | rfl | rfl | rfl | rfl | rfl <;>
      simp_all [Region.holds] <;> subst h <;> simp [Buf.base, Buf.size] <;> omega
  · cases h

/-- The first row that holds an offset decides. -/
theorem target_row (c : Config) (a : Nat) (r : Region) (above below : List Region)
    (hmap : addressMap c = above ++ r :: below) (ha : ∀ q ∈ above, q.holds a = false) (hr : r.holds a = true) :
    target c a = r.target := by
  have h : (addressMap c).find? (fun q => q.holds a) = some r := by
    rw [hmap, List.find?_append, List.find?_eq_none.2 (by simpa using ha), Option.none_or]
    exact List.find?_cons_of_pos hr
  rw [target, h]

/-- The row of a buffer. -/
def bufRow (c : Config) (b : Buf) : Region := { base := b.base, size := b.size c, target := some (.buf b) }

/-- Every byte of a buffer is found by the map. -/
theorem target_buf (c : Config) (b : Buf) (i : Nat) (h : i < b.size c) : target c (b.base + i) = some (.buf b) := by
  cases b <;> simp only [Buf.size] at h
  · exact target_row c _ (bufRow c .nonce) ((addressMap c).take 8)
      ((addressMap c).drop 9) rfl
      (by simp [addressMap, Region.holds_false, Buf.base]; omega) (by simp [bufRow, Region.holds_true, Buf.base, Buf.size]; omega)
  · exact target_row c _ (bufRow c .tag) ((addressMap c).take 10)
      ((addressMap c).drop 11) rfl
      (by simp [addressMap, Region.holds_false, Buf.base]; omega) (by simp [bufRow, Region.holds_true, Buf.base, Buf.size]; omega)
  · exact target_row c _ (bufRow c .dec) ((addressMap c).take 11)
      ((addressMap c).drop 12) rfl
      (by simp [addressMap, Region.holds_false, Buf.base]; omega) (by simp [bufRow, Region.holds_true, Buf.base, Buf.size]; omega)
  · exact target_row c _ (bufRow c .token) ((addressMap c).take 13)
      ((addressMap c).drop 14) rfl
      (by simp [addressMap, Region.holds_false, Buf.base]; omega) (by simp [bufRow, Region.holds_true, Buf.base, Buf.size]; omega)
  · exact target_row c _ (bufRow c .key) ((addressMap c).take 14)
      ((addressMap c).drop 15) rfl
      (by simp [addressMap, Region.holds_false, Buf.base]; omega) (by simp [bufRow, Region.holds_true, Buf.base, Buf.size]; omega)

/-- The scalar registers, at their offsets. -/
theorem target_scalar (c : Config) :
    target c 0x000 = some .id ∧ target c 0x004 = some .param ∧ target c 0x008 = some .ctrl ∧
      target c 0x00C = some .status ∧ target c 0x010 = some .cmd ∧ target c 0x014 = some .keylen ∧
      target c 0x018 = some .toklen := by
  refine ⟨rfl, rfl, rfl, rfl, rfl, rfl, rfl⟩

/-! ## Acceptance -/

/-- When a read is answered, and with what (60_exceptions.md R227, 20_memory.md R67). -/
theorem State.memRead_ok (s : State) (addr : BitVec 12) (n : Nat) (w : Word) :
    s.memRead addr n = .ok w ↔
      widthOk addr n = true ∧ ∃ t, target s.cfg addr.toNat = some t ∧
        (s.status.busy = true → t.readableBusy = true) ∧ w = s.readTarget t addr.toNat := by
  unfold State.memRead
  cases hw : widthOk addr n
  · simp
  · cases ht : target s.cfg addr.toNat with
    | none => simp
    | some t => cases hb : s.status.busy <;> cases hr : t.readableBusy <;> simp [hr] <;> exact eq_comm

/-- When a write is accepted, and what it does (60_exceptions.md R227, 20_memory.md R68). -/
theorem State.memWrite_ok (s : State) (addr : BitVec 12) (n : Nat) (v : Word) (u : State) :
    s.memWrite addr n v = .ok u ↔
      widthOk addr n = true ∧ ∃ t, target s.cfg addr.toNat = some t ∧
        (s.status.busy = true → t = .ctrl) ∧ t.readOnly = false ∧ (t = .cmd → s.status.fatal = false) ∧
        u = s.writeTarget t addr.toNat v := by
  unfold State.memWrite
  cases hw : widthOk addr n
  · simp
  · cases ht : target s.cfg addr.toNat with
    | none => simp
    | some t =>
      cases hb : s.status.busy <;> cases hf : s.status.fatal <;> cases t <;>
        simp [Target.writableBusy, Target.readOnly] <;> exact eq_comm

/-- A write to CTRL is accepted in every state (20_memory.md R68, R69). -/
theorem State.memWrite_ctrl (s : State) (v : Word) : s.memWrite 0x008 4 v = .ok (s.writeCtrl v) :=
  (s.memWrite_ok _ _ _ _).2 ⟨rfl, .ctrl, rfl, fun _ => rfl, rfl, nofun, rfl⟩

/-- A write to CMD is accepted while neither busy nor fatal (46_system.md R210). -/
theorem State.memWrite_cmd (s : State) (v : Word) (hb : s.status.busy = false) (hf : s.status.fatal = false) :
    s.memWrite 0x010 4 v = .ok (s.issue v) :=
  (s.memWrite_ok _ _ _ _).2 ⟨rfl, .cmd, rfl, by simp [hb], rfl, fun _ => hf, rfl⟩

/-- A write that the map finds, its checks in their order (60_exceptions.md R227). -/
theorem State.memWrite_found (s : State) (addr : BitVec 12) (n : Nat) (v : Word) (t : Target)
    (hw : widthOk addr n = true) (ht : target s.cfg addr.toNat = some t) :
    s.memWrite addr n v =
      if s.status.busy && !t.writableBusy then .error .busy
      else if t.readOnly then .error .readOnly
      else if t == .cmd && s.status.fatal then .error .fatal
      else .ok (s.writeTarget t addr.toNat v) := by
  unfold State.memWrite
  rw [if_neg (by simp [hw]), ht]

/-- A read that the map finds. -/
theorem State.memRead_found (s : State) (addr : BitVec 12) (n : Nat) (t : Target)
    (hw : widthOk addr n = true) (ht : target s.cfg addr.toNat = some t) :
    s.memRead addr n =
      if s.status.busy && !t.readableBusy then .error .busy else .ok (s.readTarget t addr.toNat) := by
  unfold State.memRead
  rw [if_neg (by simp [hw]), ht]

/-- A write to CMD while busy. -/
theorem State.memWrite_cmd_busy (s : State) (v : Word) (hb : s.status.busy = true) :
    s.memWrite 0x010 4 v = .error .busy := by
  rw [s.memWrite_found _ _ _ .cmd rfl rfl, hb]
  rfl

/-- A write to CMD while fatal (20_memory.md R70). -/
theorem State.memWrite_cmd_fatal (s : State) (v : Word) (hb : s.status.busy = false) (hf : s.status.fatal = true) :
    s.memWrite 0x010 4 v = .error .fatal := by
  rw [s.memWrite_found _ _ _ .cmd rfl rfl, hb, hf]
  rfl

end Sys2Proof.Machine
end

