-- ==== Sys2Proof/Laws/Step.lean ====
section
/-!
SUPPORT. What one step can do: an inversion of `step`, one case per kind of move, and the moves it makes from states given
with their list of moves.
-/

namespace Sys2Proof.Machine

/-! ## The step from a given list -/

@[simp] theorem State.withEnv_ie (s : State) (l : List Event) : (s.withEnv l).ie = s.ie := rfl
@[simp] theorem State.withEnv_status (s : State) (l : List Event) : (s.withEnv l).status = s.status := rfl
@[simp] theorem State.withEnv_keylen (s : State) (l : List Event) : (s.withEnv l).keylen = s.keylen := rfl
@[simp] theorem State.withEnv_toklen (s : State) (l : List Event) : (s.withEnv l).toklen = s.toklen := rfl
@[simp] theorem State.withEnv_mem (s : State) (l : List Event) : (s.withEnv l).mem = s.mem := rfl
@[simp] theorem State.withEnv_scratch (s : State) (l : List Event) : (s.withEnv l).scratch = s.scratch := rfl
@[simp] theorem State.withEnv_seq (s : State) (l : List Event) : (s.withEnv l).seq = s.seq := rfl
@[simp] theorem State.withEnv_rngq (s : State) (l : List Event) : (s.withEnv l).rngq = s.rngq := rfl
@[simp] theorem State.withEnv_cfg (s : State) (l : List Event) : (s.withEnv l).cfg = s.cfg := rfl
@[simp] theorem State.withEnv_reply (s : State) (l : List Event) : (s.withEnv l).reply = s.reply := rfl
@[simp] theorem State.withEnv_env (s : State) (l : List Event) : (s.withEnv l).env = l := rfl

theorem step_nil (s : State) : step (s.withEnv []) = engineStep (s.withEnv []) := rfl

theorem step_cons (s : State) (e : Event) (rest : List Event) :
    step (s.withEnv (e :: rest)) = perform e (s.withEnv rest) := rfl

theorem State.withEnv_withEnv (s : State) (a b : List Event) : (s.withEnv a).withEnv b = s.withEnv b := rfl

theorem State.withEnv_self (s : State) : s.withEnv s.env = s := rfl

/-- The completion step is enabled (46_system.md R211). -/
theorem State.engineReady_iff (s : State) :
    s.engineReady = true ↔
      s.status.busy = true ∧ (s.seq.ph = .run ∨ (s.seq.ph = .rngwait ∧ ∃ a, s.rngq = .ans a)) := by
  unfold State.engineReady
  rcases s.seq.ph with _ | _ | _ <;> rcases s.rngq with _ | _ | ⟨_ | _⟩ <;> simp [RngQ.kind]

theorem engineStep_ready (s : State) (h : s.engineReady = true) : engineStep s = runLatched s := by
  rw [engineStep, if_pos h]

theorem engineStep_stays (s : State) (h : s.engineReady = false) : engineStep s = .next s := by
  rw [engineStep, if_neg (by simp [h])]

theorem exec_runOf (i : Instr) (s : State) : exec i s = .next (runOf i s).st := by cases i <;> rfl

theorem runLatched_ok (s : State) (i : Instr) (h : decode s.seq.cmd = .ok i) : runLatched s = exec i s := by
  rw [runLatched, h]

theorem runLatched_error (s : State) (e : DecodeError) (h : decode s.seq.cmd = .error e) :
    runLatched s = .next (s.raiseErr errCmd) := by
  rw [runLatched, h]
  rfl

/-- A host write that is accepted. -/
theorem hostWrite_ok (s u : State) (addr : BitVec 12) (n : Nat) (v : Word) (h : s.memWrite addr n v = .ok u) :
    hostWrite s addr n v = .next { u with reply := .okay } := by
  rw [hostWrite, h]

theorem hostWrite_error (s : State) (addr : BitVec 12) (n : Nat) (v : Word) (e : BusError)
    (h : s.memWrite addr n v = .error e) : hostWrite s addr n v = .fault (.busError e) := by
  rw [hostWrite, h]

theorem hostRead_ok (s : State) (addr : BitVec 12) (n : Nat) (w : Word) (h : s.memRead addr n = .ok w) :
    hostRead s addr n = .next { s with reply := .data w } := by
  rw [hostRead, h]

theorem hostRead_error (s : State) (addr : BitVec 12) (n : Nat) (e : BusError) (h : s.memRead addr n = .error e) :
    hostRead s addr n = .fault (.busError e) := by
  rw [hostRead, h]

/-- A step at the head of a run of several, of any machine. -/
theorem hostRun_next (M : Host.Core) (n : Nat) (s t : M.State) (h : M.step s = .next t) :
    M.run (n + 1) s = M.run n t := by
  simp only [Host.Core.run, h]

/-- A step at the head of a run of several. -/
theorem run_next (n : Nat) (s t : State) (h : step s = .next t) :
    Host.Core.run core (n + 1) s = Host.Core.run core n t := hostRun_next core n s t h

theorem run_zero (s : State) : Host.Core.run core 0 s = .next s := rfl

/-- A state that steps to itself runs on the spot. -/
theorem run_stays (s : State) (h : step s = .next s) (n : Nat) : Host.Core.run core n s = .next s := by
  induction n with
  | zero => rfl
  | succ n ih => rw [run_next n s s h, ih]

/-- The step of an accepted write. -/
theorem step_write (s u : State) (addr : BitVec 12) (n : Nat) (v : Word) (rest : List Event)
    (h : (s.withEnv rest).memWrite addr n v = .ok u) :
    step (s.withEnv (.write addr n v :: rest)) = .next { u with reply := .okay } := hostWrite_ok _ _ _ _ _ h

/-- The step of a write that gets ERROR. -/
theorem step_write_error (s : State) (addr : BitVec 12) (n : Nat) (v : Word) (rest : List Event) (e : BusError)
    (h : (s.withEnv rest).memWrite addr n v = .error e) :
    step (s.withEnv (.write addr n v :: rest)) = .fault (.busError e) := hostWrite_error _ _ _ _ _ h

/-- The step of an accepted CMD write (46_system.md R210). -/
theorem step_write_cmd (s : State) (w : Word) (rest : List Event) (hb : s.status.busy = false)
    (hf : s.status.fatal = false) :
    step (s.withEnv (.write 0x010 4 w :: rest)) = .next { (s.withEnv rest).issue w with reply := .okay } :=
  step_write _ _ _ _ _ _ (State.memWrite_cmd (s.withEnv rest) w hb hf)

/-! ## The engine's move -/

/-- The engine's step on a latched command, listed or not. -/
theorem engineStep_ok (s : State) (i : Instr) (hd : decode s.seq.cmd = .ok i) (hr : s.engineReady = true) :
    engineStep s = exec i s := by
  rw [engineStep_ready s hr, runLatched_ok s i hd]

/-- All that the engine's move can do: nothing; an illegal word's completion; or a command's. -/
theorem engineStep_cases (s t : State) (h : engineStep s = .next t) :
    (s.engineReady = false ∧ t = s) ∨
      (s.engineReady = true ∧ (∃ e, decode s.seq.cmd = .error e) ∧ t = s.raiseErr errCmd) ∨
      (s.engineReady = true ∧ ∃ i, decode s.seq.cmd = .ok i ∧ t = (runOf i s).st ∧
        (((i = .gen ∨ i = .draw) ∧ s.rngq.kind = .waiting ∧ t = s) ∨ Ends s t (i ≠ .wipe))) := by
  cases hr : s.engineReady
  · rw [engineStep_stays s hr] at h
    cases h
    simp
  · rw [engineStep_ready s hr] at h
    cases hd : decode s.seq.cmd with
    | error e =>
      rw [runLatched_error s e hd] at h
      cases h
      simp
    | ok i =>
      rw [runLatched_ok s i hd, exec_runOf] at h
      cases h
      simpa using runOf_cases i s

/-! ## The port's latest answer is no input of the engine -/

/-- The state with another latest answer of the port. -/
def State.withReply (s : State) (r : Reply) : State := { s with reply := r }

/-- No command reads the port's latest answer, and none changes it. -/
theorem runOf_withReply (i : Instr) (s : State) (r : Reply) :
    (runOf i (s.withReply r)).st = (runOf i s).st.withReply r := by
  cases i <;> simp only [runOf]
  · rfl
  · rcases hq : s.rngq with _ | _ | ⟨⟨n⟩ | _⟩
    · rw [runGen_wait s (by rw [hq]; rfl), runGen_wait (s.withReply r) (by show s.rngq.kind = _; rw [hq]; rfl)]
    · rw [runGen_wait s (by rw [hq]; rfl), runGen_wait (s.withReply r) (by show s.rngq.kind = _; rw [hq]; rfl)]
    · cases hk : s.keyOk
      · rw [runGen_badKey s n hq hk, runGen_badKey (s.withReply r) n hq hk]; rfl
      · rw [runGen_ok s n hq hk, runGen_ok (s.withReply r) n hq hk]; rfl
    · rw [runGen_fail s hq, runGen_fail (s.withReply r) hq]; rfl
  · cases hv : s.decoded.2
    · rw [runVfy_malformed s hv, runVfy_malformed (s.withReply r) hv]; rfl
    · cases hk : s.keyOk
      · rw [runVfy_badKey s hv hk, runVfy_badKey (s.withReply r) hv hk]; rfl
      · rw [runVfy_full s hv hk, runVfy_full (s.withReply r) hv hk]; rfl
  · cases hk : s.keyOk
    · rw [runMac_bad s hk, runMac_bad (s.withReply r) hk]; rfl
    · rw [runMac_ok s hk, runMac_ok (s.withReply r) hk]; rfl
  · cases hk : s.keyTooLong
    · rw [runHash_ok s hk, runHash_ok (s.withReply r) hk]; rfl
    · rw [runHash_bad s hk, runHash_bad (s.withReply r) hk]; rfl
  · rcases hq : s.rngq with _ | _ | ⟨⟨n⟩ | _⟩
    · rw [runDraw_wait s (by rw [hq]; rfl), runDraw_wait (s.withReply r) (by show s.rngq.kind = _; rw [hq]; rfl)]
    · rw [runDraw_wait s (by rw [hq]; rfl), runDraw_wait (s.withReply r) (by show s.rngq.kind = _; rw [hq]; rfl)]
    · rw [runDraw_ok s n hq, runDraw_ok (s.withReply r) n hq]; rfl
    · rw [runDraw_fail s hq, runDraw_fail (s.withReply r) hq]; rfl
  · rfl
  · rfl
  · rfl
  · rfl

/-- The engine's step from a state with another latest answer of the port. -/
theorem engineStep_withReply (s t : State) (r : Reply) (h : engineStep s = .next t) :
    engineStep (s.withReply r) = .next (t.withReply r) := by
  have hr' : (s.withReply r).engineReady = s.engineReady := rfl
  cases hr : s.engineReady
  · rw [engineStep_stays s hr] at h
    rw [engineStep_stays _ (hr'.trans hr)]
    cases h
    rfl
  · rw [engineStep_ready s hr] at h
    rw [engineStep_ready _ (hr'.trans hr)]
    cases hd : decode s.seq.cmd with
    | error e =>
      rw [runLatched_error s e hd] at h
      rw [runLatched_error (s.withReply r) e hd]
      cases h
      rfl
    | ok i =>
      rw [runLatched_ok s i hd, exec_runOf] at h
      rw [runLatched_ok (s.withReply r) i hd, exec_runOf, runOf_withReply]
      cases h
      rfl

/-! ## Any step -/

/-- All that a step can do, one case per kind of move. -/
theorem step_cases (s t : State) (h : step s = .next t) :
    (s.env = [] ∧ engineStep s = .next t) ∨
      ∃ e rest, s.env = e :: rest ∧
        ((e = .engine ∧ engineStep (s.withEnv rest) = .next t) ∨
          (∃ addr n w, e = .read addr n ∧ (s.withEnv rest).memRead addr n = .ok w ∧
            t = { s.withEnv rest with reply := .data w }) ∨
          (∃ addr n v u, e = .write addr n v ∧ (s.withEnv rest).memWrite addr n v = .ok u ∧
            t = { u with reply := .okay }) ∨
          (∃ d, e = .rng d ∧ t = (s.withEnv rest).rngDeliver d) ∨
          (∃ d, e = .rngLate d ∧ t = s.withEnv rest) ∨
          (e = .reset ∧ t = (s.withEnv rest).resetAll)) := by
  unfold step nextMove at h
  cases he : s.env with
  | nil => rw [he] at h; exact .inl ⟨rfl, h⟩
  | cons e rest =>
    rw [he] at h
    refine .inr ⟨e, rest, rfl, ?_⟩
    change perform e (s.withEnv rest) = .next t at h
    cases e with
    | read addr n =>
      cases hr : (s.withEnv rest).memRead addr n with
      | ok w =>
        rw [perform, hostRead_ok _ _ _ _ hr] at h
        cases h
        exact .inr (.inl ⟨addr, n, w, rfl, hr, rfl⟩)
      | error e => rw [perform, hostRead_error _ _ _ _ hr] at h; cases h
    | write addr n v =>
      cases hw : (s.withEnv rest).memWrite addr n v with
      | ok u =>
        rw [perform, hostWrite_ok _ _ _ _ _ hw] at h
        cases h
        exact .inr (.inr (.inl ⟨addr, n, v, u, rfl, hw, rfl⟩))
      | error e => rw [perform, hostWrite_error _ _ _ _ _ hw] at h; cases h
    | rng d => cases h; exact .inr (.inr (.inr (.inl ⟨d, rfl, rfl⟩)))
    | rngLate d => cases h; exact .inr (.inr (.inr (.inr (.inl ⟨d, rfl, rfl⟩))))
    | reset => cases h; exact .inr (.inr (.inr (.inr (.inr ⟨rfl, rfl⟩))))
    | engine => exact .inl ⟨rfl, h⟩

end Sys2Proof.Machine
end

