-- ==== Sys2Proof/Laws/Script.lean ====
section
/-!
SUPPORT. Host scripts: what each primitive statement does, that it does what a step with that move does, and the one
equation of WAIT's loop.
-/

namespace Sys2Proof.Machine

/-! ## Accesses -/

theorem Session.read_ok (x : Session) (off : BitVec 12) (w : Word) (h : x.st.memRead off 4 = .ok w) :
    x.read off = (.data w, { x with st := { x.st with reply := .data w } }) := by
  rw [Session.read, h]

theorem Session.read_error (x : Session) (off : BitVec 12) (e : BusError) (h : x.st.memRead off 4 = .error e) :
    x.read off = (.error e, x) := by
  rw [Session.read, h]

theorem Session.write_ok (x : Session) (off : BitVec 12) (v : Word) (t : State) (h : x.st.memWrite off 4 v = .ok t) :
    x.write off v = (.okay, x.afterWrite { t with reply := .okay }) := by
  rw [Session.write, h]

theorem Session.write_error (x : Session) (off : BitVec 12) (v : Word) (e : BusError)
    (h : x.st.memWrite off 4 v = .error e) : x.write off v = (.error e, x) := by
  rw [Session.write, h]

theorem Session.engine_next (x : Session) (t : State) (h : engineStep x.st = .next t) :
    x.engine = { x with st := t } := by
  rw [Session.engine, h]

/-- With nothing stated a write is the port's alone. -/
theorem Session.afterWrite_st (x : Session) (t : State) (h : x.stated = none) : (x.afterWrite t).st = t := by
  unfold Session.afterWrite
  rw [h]
  split
  · contradiction
  · rfl
  · rfl

/-! ## A script's statements are moves of the step -/

theorem Session.read_step (x : Session) (off : BitVec 12) (w : Word) (rest : List Event)
    (h : x.st.memRead off 4 = .ok w) :
    step (x.st.withEnv (.read off 4 :: rest)) = .next ((x.read off).2.st.withEnv rest) := by
  rw [x.read_ok off w h]
  exact hostRead_ok (x.st.withEnv rest) off 4 w h

theorem Session.engine_step (x : Session) (t : State) (rest : List Event)
    (h : engineStep (x.st.withEnv rest) = .next t) : step (x.st.withEnv (.engine :: rest)) = .next t := h

theorem Session.answer_step (x : Session) (a : RngAnswer) (rest : List Event) (h : x.st.rngReq = true) :
    step (x.st.withEnv (.rng a.delivery :: rest)) = .next ((x.answer a).st.withEnv rest) := by
  have hq : x.st.rngq = .pending := by simpa [State.rngReq] using h
  rw [Session.answer, if_pos h, step_cons, Machine.perform]
  simp [State.rngDeliver, hq, State.withEnv]

/-- The delivery that stands for an answer is that answer. -/
@[simp] theorem RngAnswer.delivery_answer (a : RngAnswer) : a.delivery.answer = a := by
  cases a with
  | fail => rfl
  | ok r =>
    simp only [RngAnswer.delivery, RngDelivery.answer]
    simp [← Vector.toList_inj, toRegister_toList 16 r.toList (by simp)]

/-! ## WAIT -/

theorem State.memRead_status (s : State) : s.memRead 0x00C 4 = .ok s.status.word :=
  (s.memRead_ok _ _ _).2 ⟨rfl, .status, rfl, fun _ => rfl, rfl⟩

/-- Bit 0 of STATUS is BUSY (10_state.md R24). -/
theorem Status.word_busy : ∀ st : Status, st.word.getLsbD 0 = st.busy := by
  rintro ⟨a, b, c, d, e⟩
  revert a b c d e
  decide +kernel

/-- One turn of the loop: a read of STATUS, and the engine's move while BUSY is 1. -/
theorem Session.poll_succ (x : Session) (n : Nat) :
    x.poll (n + 1) =
      if x.st.status.busy then
        ({ x with st := { x.st with reply := .data x.st.status.word } } : Session).engine.poll n
      else some (.data x.st.status.word, { x with st := { x.st with reply := .data x.st.status.word } }) := by
  rw [Session.poll, x.read_ok _ _ x.st.memRead_status]
  simp only [Status.word_busy]

end Sys2Proof.Machine
end

