-- ==== Sys2Proof/Tests/Slice0.lean ====
section
/-!
SUPPORT. The model's own tests. Expected values are from spec/95_test_vectors.md (the section is named) or from the rule
named; `test_meets_<Obligation>` shows a concrete state that meets the hypotheses of that statement.
-/

namespace Sys2Proof.Tests

set_option Elab.async false

open Sys2Proof Sys2Proof.Machine

/-! ## Helpers -/

/-- `n` bytes of a number, the most significant first. -/
def hex (n v : Nat) : List Byte := (List.range n).map fun i => BitVec.ofNat 8 (v >>> (8 * (n - 1 - i)))

/-- The key `SK` of 95_test_vectors.md, 17 bytes. -/
def keySK : List Byte := hex 17 0x73757065727365637265746b6579313233

/-- The nonce `N0`. -/
def nonceN0 : List Byte := hex 16 0x000102030405060708090a0b0c0d0e0f

/-- The tag of `N0` under `SK` (section 3.2). -/
def tagN0 : List Byte := hex 32 0xabf7b9b0aba83bd28696ccbccbc54f28a1e5707e7e4bd40365920da3068c5b1d

/-- The ASCII bytes of the token of program P1. -/
def tokenP1 : List Byte :=
  hex 48 0x303030313032303330343035303630373038303930613062306330643065306661626637623962306162613833626432 ++
    hex 48 0x383639366363626363626335346632386131653537303765376534626434303336353932306461333036386335623164

/-- Bytes from an offset on, as cells. -/
def cells (a : Nat) (l : List Byte) : List Host.Cell :=
  (l.zipIdx a).filterMap fun p => if p.1 = 0 then none else some (p.2, p.1)

/-- An idle state with the given NONCE, TAG, TOKEN, KEY and lengths. -/
def holding (nonce tag token key : List Byte) (toklen : Word) : State :=
  { State.reset with
    keylen := BitVec.ofNat 16 key.length
    toklen := toklen
    mem := { cells := cells 0x020 nonce ++ cells 0x040 tag ++ cells 0x0A0 token ++ cells 0x100 key } }

/-- LOADKEY after reset. -/
def withKey (k : List Byte) : State := holding [] [] [] k 0

/-- LOADTOK after reset, with a key. -/
def withToken (tok : List Byte) (n : Word) (k : List Byte) : State := holding [] [] tok k n

/-- A command accepted and about to complete. -/
def latched (i : Instr) (s : State) : State :=
  { s with status := s.status.issued, seq := { cmd := encode i, ph := .run } }

/-- A command accepted, its request answered. -/
def answered (i : Instr) (a : RngAnswer) (s : State) : State :=
  { s with status := s.status.issued, seq := { cmd := encode i, ph := .rngwait }, rngq := .ans a }

/-- A look at the next state. -/
def after {α : Type} (f : State → α) (o : Host.Outcome State Fault Refusal) : Option α :=
  match o with
  | .next s => some (f s)
  | .fault _ => none
  | .refused _ => none

/-- The fault of a step that has one. -/
def stop (o : Host.Outcome State Fault Refusal) : Option Fault :=
  match o with
  | .next _ => none
  | .fault f => some f
  | .refused _ => none

/-- An idle state with the key `01`. -/
def keyed : State := withKey [0x01]

/-- A fatal state, as an ERR_KEY leaves it. -/
def fatalState : State :=
  { State.reset with status := { busy := false, done := true, ok := false, fatal := true, err := 2 } }

/-- 16 zero bytes from the RNG. -/
def zeroNonce : Vector Byte 16 := Vector.replicate 16 0

/-- The state of program P1 before its VFY. -/
def presented : State := latched .vfy (withToken tokenP1 96 keySK)

/-! ## Well-formedness: an ill-formed term for each check -/

theorem test_rsv_refused : ({ rsv := 1, op := 0x01 } : Cmd32).wf = false ∧ ({ rsv := 1, op := 0x01 } : Cmd32).rsvOk = false := by
  decide
theorem test_op_refused : ({ rsv := 0, op := 0x0A } : Cmd32).wf = false ∧ ({ rsv := 0, op := 0x0A } : Cmd32).opOk = false := by
  decide
theorem test_op_accepted : ({ rsv := 0, op := 0x09 } : Cmd32).wf = true := by decide
theorem test_keyMax_unaligned : ({ keyMax := 66, hexUpperOk := false } : Config).wf = false := by decide
theorem test_keyMax_small : ({ keyMax := 60, hexUpperOk := false } : Config).wf = false := by decide
theorem test_keyMax_large : ({ keyMax := 3844, hexUpperOk := false } : Config).wf = false := by decide
theorem test_keyMax_edges : ({ keyMax := 64, hexUpperOk := true } : Config).wf = true ∧
    ({ keyMax := 3840, hexUpperOk := true } : Config).wf = true ∧ Config.reference.wf = true := by decide
theorem test_costs_zero : ({ Costs.nominal 0 with tCmp := 0 } : Costs).wf = false ∧ (Costs.nominal 0).wf = true := by decide

/-! ## Decoding: words written bit by bit from 30_encoding.md R91 -/

theorem test_decode_nop : decode 0b00000000000000000000000000000000 = .ok .nop := by decide
theorem test_decode_gen : decode 0b00000000000000000000000000000001 = .ok .gen := by decide
theorem test_decode_vfy : decode 0b00000000000000000000000000000010 = .ok .vfy := by decide
theorem test_decode_mac : decode 0b00000000000000000000000000000011 = .ok .mac := by decide
theorem test_decode_hash : decode 0b00000000000000000000000000000100 = .ok .hash := by decide
theorem test_decode_draw : decode 0b00000000000000000000000000000101 = .ok .draw := by decide
theorem test_decode_hexe : decode 0b00000000000000000000000000000110 = .ok .hexe := by decide
theorem test_decode_hexd : decode 0b00000000000000000000000000000111 = .ok .hexd := by decide
theorem test_decode_cmp : decode 0b00000000000000000000000000001000 = .ok .cmp := by decide
theorem test_decode_wipe : decode 0b00000000000000000000000000001001 = .ok .wipe := by decide
theorem test_decode_illegal : decode 0b00000000000000000000000000001010 = .error .unassignedOpcode ∧
    decode 0b00000000000000000000000100000001 = .error .reservedBits := by decide

/-! ## The units -/

/-- Section 1.1: the zero bytes and the blocks of a padded message. -/
theorem test_padding : [0, 3, 55, 56, 63, 64, 119, 120].map padZeros = [55, 52, 0, 63, 56, 55, 0, 63] ∧
    [0, 3, 55, 56, 63, 64, 119, 120].map blockCount = [1, 1, 1, 2, 2, 2, 2, 3] := by decide

/-- Section 1.2: one round from `IV`, with `W[0] = 61626380`. -/
theorem test_round : (round iv 0x428a2f98 0x61626380).a = 0x5d6aebcd ∧
    (round iv 0x428a2f98 0x61626380).e = 0xfa2a4622 := by decide

/-- Section 1.2: `W[17]` of the block of `abc`. -/
theorem test_schedule : (schedule (pad [0x61, 0x62, 0x63])).getD 17 0 = 0x000f0000 := by decide +kernel

/-- Section 4: the decode table. -/
theorem test_hexValue : hexValue false 0x39 = (9, true) ∧ hexValue false 0x3A = (0, false) ∧
    hexValue false 0x46 = (0, false) ∧ hexValue true 0x46 = (15, true) ∧ hexValue false 0x66 = (15, true) ∧
    hexValue true 0x67 = (0, false) := by decide

/-- Section 4: `ff 00 a5` encodes to `ff00a5`. -/
theorem test_hexEncode : hexEncode [0xff, 0x00, 0xa5] = [0x66, 0x66, 0x30, 0x30, 0x61, 0x35] := by decide

/-- 43_rng.md R170: the first byte is bits 127:120. -/
theorem test_rng_parallel : (RngDelivery.parallel 0x000102030405060708090a0b0c0d0e0f false).answer =
    .ok (toRegister 16 nonceN0) := by decide +kernel

/-- 43_rng.md R165: a short delivery is a failure. -/
theorem test_rng_short : (RngDelivery.serial (hex 15 0) false).answer = .fail := by decide +kernel

/-! ## The commands, one step each -/

/-- Section 8: NOP ends with STATUS 0x00000006. -/
theorem test_nop : after (fun t => t.status.word) (step (latched .nop State.reset)) = some 0x00000006 := by decide +kernel

/-- Section 1.5: HASH of `abc`. -/
theorem test_hash : after (fun t => (t.status.word, t.tag))
    (step (latched .hash (withKey [0x61, 0x62, 0x63]))) =
      some (0x00000006, hex 32 0xba7816bf8f01cfea414140de5dae2223b00361a396177a9cb410ff61f20015ad) := by decide +kernel

/-- Section 1.5: HASH with KEYLEN 129. -/
theorem test_hash_long : after (fun t => (t.status.word, t.tag))
    (step (latched .hash { State.reset with keylen := 129 })) = some (0x0000020A, zeros 32) := by decide +kernel

/-- Section 3.2: MAC of `N0` under `SK`. -/
theorem test_mac : after (fun t => t.tag)
    (step (latched .mac (holding nonceN0 [] [] keySK 0))) = some tagN0 := by decide +kernel

/-- Section 3.3: MAC with KEYLEN 0; NONCE is unchanged. -/
theorem test_mac_no_key : after (fun t => (t.status.word, t.nonce))
    (step (latched .mac (holding nonceN0 [] [] [] 0))) = some (0x0000020A, nonceN0) := by decide +kernel

/-- 43_rng.md R171: DRAW stores the answer. -/
theorem test_draw : after (fun t => (t.status.word, t.nonce))
    (step (answered .draw (.ok (toRegister 16 nonceN0)) State.reset)) = some (0x00000006, nonceN0) := by decide +kernel

/-- 43_rng.md R171: DRAW on a failed source. -/
theorem test_draw_fail : after (fun t => t.status.word) (step (answered .draw .fail State.reset)) = some 0x0000030A := by
  decide +kernel

/-- Section 4: HEXE of `N0` and its tag, program P1. -/
theorem test_hexe : after (fun t => (t.toklen, t.token))
    (step (latched .hexe (holding nonceN0 tagN0 [] [] 0))) = some (96, tokenP1) := by
  decide +kernel

/-- Section 4: HEXD decodes whatever TOKLEN is. -/
theorem test_hexd : after (fun t => (t.status.word, t.dec)) (step (latched .hexd (withToken tokenP1 0 []))) =
    some (0x00000002, nonceN0 ++ tagN0) := by decide +kernel

/-- Section 4: the same token with TOKLEN 96. -/
theorem test_hexd_ok : after (fun t => t.status.word) (step (latched .hexd (withToken tokenP1 96 []))) =
    some 0x00000006 := by decide +kernel

/-- Section 5: CMP with all buffers zero. -/
theorem test_cmp : after (fun t => t.status.word) (step (latched .cmp State.reset)) = some 0x00000006 := by
  decide +kernel

/-- Section 5: CMP with the last lane's bit 0 flipped. -/
theorem test_cmp_differs : after (fun t => t.status.word)
    (step (latched .cmp (State.reset.setBuf .dec (zeros 47 ++ [0x01])))) = some 0x00000002 := by decide +kernel

/-- Section 8: WIPE after P1. -/
theorem test_wipe : after (fun t => (t.keylen, t.toklen, t.mem.cells)) (step (latched .wipe presented)) =
    some (0, 0, []) := by decide +kernel

/-- Section 7: GEN with a failed source and no key: the draw comes first. -/
theorem test_gen_fail : after (fun t => (t.status.word, t.toklen))
    (step (answered .gen .fail (withToken tokenP1 96 []))) = some (0x0000030A, 0) := by decide +kernel

/-- Section 7: GEN with KEYLEN 0 and the answer `N0`: ERR_KEY after the draw, NONCE wiped. -/
theorem test_gen_no_key : after (fun t => (t.status.word, t.nonce))
    (step (answered .gen (.ok (toRegister 16 nonceN0)) State.reset)) = some (0x0000020A, zeros 16) := by decide +kernel

/-- Section 7: VFY accepts the token of P1. -/
theorem test_vfy : (runVfy presented).st.status.ok = true := by decide +kernel

/-- Section 7: 96 times `g` with KEYLEN 0: structure is judged first, not fatal. -/
theorem test_vfy_malformed : after (fun t => t.status.word)
    (step (latched .vfy (withToken (List.replicate 96 0x67) 96 []))) = some 0x00000002 := by decide +kernel

/-- Section 8: an illegal word. -/
theorem test_illegal : after (fun t => t.status.word)
    (step { latched .nop State.reset with seq := { cmd := 0x0000000A, ph := .run } }) = some 0x00000102 := by
  decide +kernel

/-- Section 10: the nominal cycles of a malformed VFY. -/
theorem test_duration : duration (Costs.nominal 0) (runVfy State.reset).trace = 99 := by decide +kernel

/-! ## The port (section 8) -/

theorem test_read_id : State.reset.memRead 0x000 4 = .ok 0x4F545001 ∧ State.reset.memRead 0x004 4 = .ok 0x00000080 := by
  decide +kernel
theorem test_read_misaligned : State.reset.memRead 0x021 4 = .error .width ∧ State.reset.memRead 0x020 1 = .error .width := by
  decide +kernel
theorem test_read_reserved : State.reset.memRead 0x01C 4 = .error .reserved ∧
    State.reset.memRead 0x180 4 = .error .reserved := by decide +kernel
theorem test_write_readonly : State.reset.memWrite 0x004 4 1 = .error .readOnly := by decide +kernel
theorem test_read_key : (withKey keySK).memRead 0x100 4 = .ok 0 := by decide +kernel
theorem test_write_nonce : after (fun t => t.nonce.take 5)
    (step { State.reset with env := [.write 0x020 4 0x01020304] }) = some [1, 2, 3, 4, 0] := by decide +kernel
theorem test_write_keylen : after (fun t => t.memRead 0x014 4)
    (step { State.reset with env := [.write 0x014 4 0x00012345] }) = some (.ok 0x00002345) := by decide +kernel
theorem test_write_ctrl : after (fun t => t.memRead 0x008 4)
    (step { State.reset with env := [.write 0x008 4 0xFFFFFFFD] }) = some (.ok 0x00000001) := by decide +kernel
theorem test_clear_done : after (fun t => t.status.word)
    (step { fatalState with env := [.write 0x00C 4 0x00000002] }) = some 0x00000208 := by decide +kernel
theorem test_cmd_fatal : stop (step { fatalState with env := [.write 0x010 4 0] }) = some (.busError .fatal) := by
  decide +kernel
theorem test_busy_gate : (latched .nop State.reset).memRead 0x014 4 = .error .busy ∧
    (latched .nop State.reset).memRead 0x00C 4 = .ok 0x00000001 := by decide +kernel
theorem test_fetch_word : after (fun t => t.status.word) (step (State.reset.withFetchWord 32 0x05)) =
    some 0x00000006 := by decide +kernel

/-- The map where its rows meet (20_memory.md R62). -/
theorem test_map_edges :
    [0x003, 0x004, 0x01B, 0x01C, 0x01F, 0x020, 0x02F, 0x030, 0x03F, 0x040, 0x05F, 0x060, 0x08F, 0x090, 0x09F, 0x0A0,
      0x0FF, 0x100, 0x17F, 0x180].map (target Config.reference) =
    [some .id, some .param, some .toklen, none, none, some (.buf .nonce), some (.buf .nonce), none, none,
      some (.buf .tag), some (.buf .tag), some (.buf .dec), some (.buf .dec), none, none, some (.buf .token),
      some (.buf .token), some (.buf .key), some (.buf .key), none] := by decide +kernel

/-! ## Host scripts (30_encoding.md R96) -/

/-- Program P1: LOADKEY SK is six writes. -/
theorem test_loadkey : (Script.loadkey keySK).expand Config.reference =
    [.wr 0x014 0x00000011, .wr 0x100 0x73757065, .wr 0x104 0x72736563, .wr 0x108 0x7265746B, .wr 0x10C 0x65793132,
      .wr 0x110 0x33000000] := by decide +kernel

/-- Program P4: a stated `fail` answers the GEN that follows, and WAIT's result is 0x0000030A. -/
theorem test_script_stated :
    ((Session.start State.reset).runScript 2 [.rng .fail, .run .gen]).map (fun q => q.1.map waitResult) =
      some [none, some 0x0000030A] := by decide +kernel

/-- The answer `a0` to `af` of program P7. -/
def answerP7 : RngAnswer := .ok (toRegister 16 (hex 16 0xa0a1a2a3a4a5a6a7a8a9aaabacadaeaf))

/-- Program P7: the late answer is ignored, and the one after the second GEN's CMD write answers it. -/
theorem test_script_late :
    ((Session.start State.reset).runScript 2
      [.cmd .gen, .srst, .rng (.ok (toRegister 16 nonceN0)), .cmd .gen, .rng answerP7]).map
        (fun q => (q.2.st.rngq, q.2.stated, q.2.withdrawn)) = some (.ans answerP7, none, 0) := by decide +kernel

/-- Program P7: while the source is silent a WAIT does not end, and NONCE is `!ERROR`. -/
theorem test_script_silent :
    (Session.start State.reset).runScript 3 [.cmd .gen, .wait] = none ∧
      ((Session.start State.reset).runScript 3 [.cmd .gen, .rd 0x020, .rd 0x00C]).map (fun q => q.1) =
        some [[.okay], [.error .busy], [.data 0x00000001]] := by decide +kernel

/-- LOADN and READ NONCE. -/
theorem test_script_read :
    ((Session.start State.reset).runScript 1 [.loadn (toRegister 16 nonceN0), .readBuf .nonce]).map
      (fun q => (q.1.map readResult).getLast?) = some (some nonceN0) := by decide +kernel

/-! ## Every hypothesis is met -/

theorem test_meets_DecodeFollowsOpcodeMap : 0x100 ≤ (0x100 : Word).toNat ∧ 0x0A ≤ (0xFF : Word).toNat ∧
    (0xFF : Word).toNat < 0x100 ∧ 0x0A ≤ (0x0A : Word).toNat ∧ (0x09 : Word).toNat < 0x0A := by decide

theorem test_meets_ResetLeavesTable : (0x00000002 : Word).getLsbD 1 = true := by decide

theorem test_meets_SoftResetIsHardReset : (0xFFFFFFFF : Word).getLsbD 1 = true := by decide

theorem test_meets_StepRunsLatchedCommand :
    (decode (latched .wipe keyed).seq.cmd = .ok .wipe ∧ Instr.wf .wipe = true ∧ (latched .wipe keyed).status.busy = true ∧
      (latched .wipe keyed).seq.ph = .run) ∧
    (decode (answered .gen .fail keyed).seq.cmd = .ok .gen ∧ Instr.wf .gen = true ∧
      (answered .gen .fail keyed).status.busy = true ∧ (answered .gen .fail keyed).seq.ph = .rngwait ∧
      (answered .gen .fail keyed).rngq = .ans .fail) := by decide +kernel

theorem test_meets_PlacedWordRunsNext : 9 < 2 ^ 32 ∧ decode (BitVec.ofNat 32 9) = .ok .wipe := by decide

/-- A DRAW whose source is silent. -/
def silent : State := { answered .draw .fail keyed with rngq := .pending }

theorem test_meets_SilentRngHangsCommand : keyed.status.busy = false ∧ silent.status.busy = true ∧
    silent.seq.ph = .rngwait ∧ silent.rngq = .pending := by decide +kernel

theorem test_meets_IssueLatchesWord : keyed.status.busy = false ∧ keyed.status.fatal = false ∧
    keyed.rngq = .none ∧ silent.status.busy = true ∧ fatalState.status.fatal = true := by decide +kernel

theorem test_meets_CompletionClosesCommand :
    ((latched .nop keyed).Inv ∧ (latched .nop keyed).status.busy = true ∧ (latched .nop keyed).seq.ph = .run) ∧
      ((answered .draw .fail keyed).Inv ∧ (answered .draw .fail keyed).status.busy = true ∧
        (answered .draw .fail keyed).rngq = .ans .fail) :=
  ⟨⟨by decide +kernel, by decide +kernel, rfl⟩, by decide +kernel, by decide +kernel, rfl⟩

theorem test_meets_IllegalWordCompletesWithErrCmd : decode 0x0000000A = .error .unassignedOpcode ∧
    decode 0xFFFFFFFF = .error .reservedBits ∧ keyed.status.busy = false ∧ keyed.status.fatal = false := by decide +kernel

theorem test_meets_IssuedCommandCompletes : keyed.Inv ∧ keyed.status.busy = false ∧ keyed.status.fatal = false ∧
    drawsRng 0x00000002 = false ∧ drawsRng 0x00000001 = true := by decide +kernel

theorem test_meets_MacWritesTag : (1 ≤ keyed.keylen.toNat ∧ keyed.keylen.toNat ≤ keyed.cfg.keyMax) ∧
    1 ≤ ({ keyed with keylen := 128 } : State).keylen.toNat ∧
    ({ keyed with keylen := 128 } : State).keylen.toNat ≤ keyed.cfg.keyMax := by decide +kernel

theorem test_meets_MacRefusesBadKeylen : State.reset.keylen.toNat = 0 ∧
    State.reset.cfg.keyMax < ({ State.reset with keylen := 129 } : State).keylen.toNat := by decide

theorem test_meets_HashWritesDigest : State.reset.keylen.toNat ≤ State.reset.cfg.keyMax ∧
    ({ State.reset with keylen := 128 } : State).keylen.toNat ≤ State.reset.cfg.keyMax := by decide

theorem test_meets_HashRefusesLongKeylen :
    State.reset.cfg.keyMax < ({ State.reset with keylen := 129 } : State).keylen.toNat := by decide

theorem test_meets_DrawStoresAnswer : (answered .draw (.ok zeroNonce) keyed).rngq = .ans (.ok zeroNonce) := by rfl

theorem test_meets_DrawFailureIsFatal : (answered .draw .fail keyed).rngq = .ans .fail := by rfl

theorem test_meets_GenWritesToken : (answered .gen (.ok zeroNonce) keyed).rngq = .ans (.ok zeroNonce) ∧
    1 ≤ (answered .gen (.ok zeroNonce) keyed).keylen.toNat ∧
    (answered .gen (.ok zeroNonce) keyed).keylen.toNat ≤ (answered .gen (.ok zeroNonce) keyed).cfg.keyMax := by
  decide +kernel

theorem test_meets_GenFailureLeavesNothing : (answered .gen .fail keyed).rngq = .ans .fail ∧
    (answered .gen (.ok zeroNonce) State.reset).rngq = .ans (.ok zeroNonce) ∧ State.reset.keylen.toNat = 0 ∧
    State.reset.cfg.keyMax < ({ State.reset with keylen := 129 } : State).keylen.toNat := by decide +kernel

/-- A GEN about to complete, under the key `01`, with NONCE as given. -/
def generating (n : List Byte) : State := answered .gen (.ok zeroNonce) (holding n [] [] [0x01] 0)

theorem test_meets_GenTokenIsWellFormed :
    (generating nonceN0).rngq = .ans (.ok zeroNonce) ∧ (generating (zeros 16)).rngq = .ans (.ok zeroNonce) ∧
      (generating nonceN0).keyOk = true ∧ (generating (zeros 16)).keyOk = true ∧
      (generating nonceN0).keyBytes = (generating (zeros 16)).keyBytes ∧
      exec .gen (generating nonceN0) = .next (runGen (generating nonceN0)).st ∧
      exec .gen (generating (zeros 16)) = .next (runGen (generating (zeros 16))).st :=
  ⟨rfl, rfl, by decide +kernel, by decide +kernel, by decide +kernel, rfl, rfl⟩

theorem test_meets_GenIsDrawMacHexe :
    (generating nonceN0).rngq = .ans (.ok zeroNonce) ∧ (generating nonceN0).keyOk = true ∧
      exec .draw (generating nonceN0) = .next (runDraw (generating nonceN0)).st ∧
      exec .mac (runDraw (generating nonceN0)).st = .next (runMac (runDraw (generating nonceN0)).st).st ∧
      exec .hexe (runMac (runDraw (generating nonceN0)).st).st =
        .next (runHexe (runMac (runDraw (generating nonceN0)).st).st).st :=
  ⟨rfl, by decide +kernel, rfl, rfl, rfl⟩

theorem test_meets_VfyRejectsMalformedToken : State.reset.toklen ≠ 96 ∧
    ∃ c ∈ (withToken (List.replicate 96 0x67) 96 []).token, (hexValue false c).2 = false :=
  ⟨by decide, 0x67, by decide +kernel, by decide⟩

/-- A well-formed token, 96 times `a`, with no key. -/
def wellFormed : State := withToken (List.replicate 96 0x61) 96 []

/-- The same under `SK`. -/
def wellFormedSK : State := withToken (List.replicate 96 0x61) 96 keySK

/-- From the decoder's verdict to its characters. -/
theorem all_hex (s : State) (h : s.decoded.2 = true) : ∀ c ∈ s.token, (hexValue s.cfg.hexUpperOk c).2 = true := by
  simp only [State.decoded, hexdec96, Bool.and_eq_true, allHex, List.all_eq_true] at h
  exact h.2

theorem test_meets_VfyRaisesKeyError : wellFormed.toklen = 96 ∧
    (∀ c ∈ wellFormed.token, (hexValue wellFormed.cfg.hexUpperOk c).2 = true) ∧ wellFormed.keylen.toNat = 0 ∧
    wellFormed.cfg.keyMax < ({ wellFormed with keylen := 129 } : State).keylen.toNat :=
  ⟨rfl, all_hex _ (by decide +kernel), by decide +kernel, by decide +kernel⟩

theorem test_meets_VfyAnswersVerdict : presented.toklen = 96 ∧
    (∀ c ∈ presented.token, (hexValue presented.cfg.hexUpperOk c).2 = true) ∧ 1 ≤ presented.keylen.toNat ∧
    presented.keylen.toNat ≤ presented.cfg.keyMax :=
  ⟨rfl, all_hex _ (by decide +kernel), by decide +kernel, by decide +kernel⟩

/-- The state of program P1 before its VFY, with IE set and other bytes in DEC. -/
def presentedOther : State := { presented.setBuf .dec (List.replicate 48 0xFF) with ie := true }

/-- Section 7: the token of P1 is accepted whatever DEC held. -/
theorem test_vfy_other : (runVfy presentedOther).st.status.ok = true := by decide +kernel

/-- Two VFYs that answer 1. -/
theorem test_meets_VfyRevealsOneBit_accepting :
    exec .vfy presented = .next (runVfy presented).st ∧ exec .vfy presentedOther = .next (runVfy presentedOther).st ∧
      presented.status.fatal = presentedOther.status.fatal ∧ presented.seq.cmd = presentedOther.seq.cmd ∧
      (runVfy presented).st.status.ok = true ∧ (runVfy presentedOther).st.status.ok = true :=
  ⟨rfl, rfl, rfl, rfl, test_vfy, test_vfy_other⟩

/-- Two VFYs that answer 0. -/
theorem test_meets_VfyRevealsOneBit :
    exec .vfy keyed = .next (runVfy keyed).st ∧ exec .vfy State.reset = .next (runVfy State.reset).st ∧
      (runVfy keyed).st.status.err = 0 ∧ (runVfy State.reset).st.status.err = 0 ∧
      keyed.status.fatal = State.reset.status.fatal ∧ keyed.seq.cmd = State.reset.seq.cmd ∧
      (runVfy keyed).st.status.ok = (runVfy State.reset).st.status.ok :=
  ⟨rfl, rfl, by decide +kernel, by decide +kernel, rfl, rfl, by decide +kernel⟩

/-- The state after a GEN under the key `01` that was answered. -/
def generated : State := (runGen (generating nonceN0)).st

/-- A completed GEN answers OK (no hash is evaluated: the run's equation says it). -/
theorem test_gen_completes : generated.status.ok = true := by
  unfold generated
  rw [runGen_ok _ zeroNonce rfl (by decide +kernel)]
  rfl

theorem test_meets_GeneratedTokenVerifies_later : (generating nonceN0).rngq = .ans (.ok zeroNonce) ∧
    exec .gen (generating nonceN0) = .next generated ∧ generated.status.ok = true :=
  ⟨rfl, rfl, test_gen_completes⟩

theorem test_meets_GeneratedTokenVerifies : keyed.status.busy = false ∧ keyed.status.fatal = false ∧
    1 ≤ keyed.keylen.toNat ∧ keyed.keylen.toNat ≤ keyed.cfg.keyMax ∧
    (RngDelivery.parallel 0 false).answer = .ok zeroNonce := by decide +kernel

theorem test_meets_TamperedTagIsRejected :
    exec .vfy presented = .next (runVfy presented).st ∧ (runVfy presented).st.status.ok = true ∧ 95 < 96 ∧
      (32 ≤ 32 ∧ hexValue false 0x30 ≠ hexValue presented.cfg.hexUpperOk (presented.token.getD 32 0)) ∧
      (32 ≤ 95 ∧ hexValue false 0x66 ≠ hexValue presented.cfg.hexUpperOk (presented.token.getD 95 0)) ∧
      (hexValue presented.cfg.hexUpperOk 0x67).2 = false :=
  ⟨rfl, test_vfy, by decide, by decide +kernel, by decide +kernel, by decide +kernel⟩

theorem test_meets_KeyTailDoesNotMatter : ([0x01] : List Byte).length + 63 ≤ 64 ∧
    0x100 + keyed.keylen.toNat ≤ 0x101 ∧ exec .mac keyed = .next (runMac keyed).st ∧
    exec .mac { keyed with mem := keyed.mem.write 0x101 0xFF } =
      .next (runMac { keyed with mem := keyed.mem.write 0x101 0xFF }).st :=
  ⟨by decide, by decide +kernel, rfl, rfl⟩

theorem test_meets_PaddingHasStatedShape : ([] : List Byte).length < 2 ^ 61 ∧ (zeros 55).length < 2 ^ 61 ∧
    (zeros 56).length < 2 ^ 61 := by decide

theorem test_meets_HmacCompressesFourBlocks : (zeros 64).length = 64 ∧ nonceN0.length = 16 ∧ tagN0.length = 32 := by
  decide

theorem test_meets_WindowOffersSchedule : 0 < 64 ∧ 15 < 64 ∧ 16 < 64 ∧ 63 < 64 := by decide

theorem test_meets_ComparatorIsEquality : (zeros 48).length = 48 ∧ (nonceN0 ++ tagN0).length = 48 := by decide

theorem test_meets_VerifyComparesTagsOnly : keyed.nonce = keyed.dec.take 16 := by decide +kernel

theorem test_meets_HexRoundTrips : (nonceN0 ++ tagN0).length = 48 ∧ tokenP1.length = 96 ∧
    hexdec96 false tokenP1 96 = (nonceN0 ++ tagN0, true) ∧ hexdec96 true tokenP1 96 = (nonceN0 ++ tagN0, true) ∧
    (List.replicate 96 (0x41 : Byte)).length = 96 ∧ (List.replicate 96 (0x61 : Byte)).length = 96 ∧
    (List.replicate 96 (0x41 : Byte)).map (fun c => if 0x41 ≤ c.toNat ∧ c.toNat ≤ 0x46 then c + 0x20 else c) =
      (List.replicate 96 (0x61 : Byte)).map (fun c => if 0x41 ≤ c.toNat ∧ c.toNat ≤ 0x46 then c + 0x20 else c) := by
  decide +kernel

theorem test_meets_RngBytesKeepTheirOrder : nonceN0.length = 16 ∧ (zeros 15).length < 16 ∧
    (answered .draw (.ok zeroNonce) keyed).rngq = .ans (.ok zeroNonce) ∧
    exec .draw (answered .draw (.ok zeroNonce) keyed) = .next (runDraw (answered .draw (.ok zeroNonce) keyed)).st :=
  ⟨by decide, by decide, rfl, rfl⟩

theorem test_meets_RngAnswersPendingRequest : silent.rngq = .pending ∧ keyed.rngq ≠ .pending := by decide +kernel

theorem test_meets_ReadsReturnRegisters_busy : silent.status.busy = true ∧ silent.cfg.wf = true ∧
    silent.memRead 0x00C 4 = .ok 0x00000001 := by decide +kernel

theorem test_meets_ReadsReturnRegisters : keyed.cfg.wf = true ∧ keyed.status.busy = false ∧ Buf.token ≠ Buf.key ∧
    4 * 23 < Buf.token.size keyed.cfg ∧ 4 * 31 < keyed.cfg.keyMax ∧ keyed.memRead 0x000 4 = .ok 0x4F545001 := by
  decide +kernel

theorem test_meets_BufferWordsReadBack : keyed.cfg.wf = true ∧ keyed.status.busy = false ∧
    4 * 3 < Buf.nonce.size keyed.cfg ∧ 4 * 31 < Buf.key.size keyed.cfg := by decide +kernel

theorem test_meets_LengthRegistersStore : keyed.status.busy = false := by decide +kernel

theorem test_meets_CtrlWriteStoresIeOrResets : (0x00000001 : Word).getLsbD 1 = false ∧
    (0x00000002 : Word).getLsbD 1 = true := by decide

theorem test_meets_StatusWriteClearsDone : keyed.status.busy = false ∧ (0x00000002 : Word).getLsbD 1 = true ∧
    (0x00000001 : Word).getLsbD 1 = false ∧ silent.status.busy = true := by decide +kernel

theorem test_meets_KeyBytesAreNotReadable (a : Nat) (h : ¬ (0x100 ≤ a ∧ a < 0x100 + keyed.cfg.keyMax)) :
    (keyed.mem.write 0x100 0xFF).read a = keyed.mem.read a := by
  have hk : keyed.cfg.keyMax = 128 := rfl
  rw [Memory.read_write, if_neg]
  omega

theorem test_meets_KeyImmutableWhileBusy : silent.status.busy = true ∧ step silent = .next silent :=
  ⟨by decide +kernel, by rfl⟩

/-- The moves that do change KEY: the two resets, and WIPE's completion. -/
theorem test_meets_KeyImmutableWhileBusy_changes :
    step { silent with env := [.reset] } = .next silent.resetAll ∧
      step { silent with env := [.write 0x008 4 0x00000002] } =
        .next { silent.resetAll with reply := .okay } ∧
      (latched .wipe keyed).status.busy = true ∧ decode (latched .wipe keyed).seq.cmd = .ok .wipe ∧
      step (latched .wipe keyed) = .next (runWipe (latched .wipe keyed)).st :=
  ⟨rfl, rfl, rfl, by decide +kernel, rfl⟩

theorem test_meets_OnlyWipeWritesKey : exec .nop keyed = .next (runNop keyed).st ∧ Instr.nop ≠ .wipe := ⟨rfl, by decide⟩

theorem test_meets_StepKeepsInvariant : keyed.Inv ∧ step keyed = .next keyed := ⟨by decide +kernel, by rfl⟩

theorem test_meets_FatalStaysUntilReset : fatalState.Inv ∧ fatalState.status.fatal = true ∧
    step fatalState = .next fatalState := ⟨by decide +kernel, rfl, by rfl⟩

theorem test_meets_DurationHidesSecrets :
    (generating nonceN0).facts = (generating (zeros 16)).facts ∧ presented.decoded.2 = true ∧
      wellFormedSK.decoded.2 = true ∧ presented.keyOk = true ∧ wellFormedSK.keyOk = true ∧
      presented.keylen = wellFormedSK.keylen ∧ keyed.decoded.2 = false ∧
      State.reset.decoded.2 = false := by decide +kernel

/-- Two states whose keys are both short, of one block and of two; and two whose keys are long, of two blocks. -/
theorem test_meets_DurationHidesSecrets_class :
    (keyClass Config.reference 1 = .short ∧ keyClass Config.reference 64 = .short ∧ blockCount 1 ≠ blockCount 64) ∧
      (keyClass Config.reference 65 = .long ∧ keyClass Config.reference 66 = .long ∧
        blockCount 65 = blockCount 66) ∧
      keyed.keylen = 1 ∧ ({ keyed with keylen := 64 } : State).cfg = Config.reference ∧
      keyed.decoded.2 = ({ keyed with keylen := 64 } : State).decoded.2 ∧ Instr.mac ≠ .hash := by decide +kernel

theorem test_meets_WaitEndsWhenBusyClears :
    ((Session.start keyed).st.Inv ∧ keyed.status.busy = false) ∧
      ((Session.start (latched .nop keyed)).st.Inv ∧ (latched .nop keyed).status.busy = true ∧
        (latched .nop keyed).seq.ph = .run) ∧
      ((Session.start silent).st.Inv ∧ silent.rngq = .pending) :=
  ⟨⟨by decide +kernel, by decide +kernel⟩, ⟨by decide +kernel, rfl, rfl⟩, by decide +kernel, rfl⟩

theorem test_meets_ReadStatementReturnsBuffer : keyed.cfg.wf = true ∧ keyed.status.busy = false := by decide +kernel

end Sys2Proof.Tests
end

section
/-!
PROOFS. The family of 00_scope.md: what a step of the enabled engine is (R10, R211).
-/

namespace Sys2Proof.Machine

/-- The engine's move listed first is the engine's step from the rest of the list (R10). -/
theorem step_engine_cons (s : State) (rest : List Event) :
    step (s.withEnv (.engine :: rest)) = engineStep (s.withEnv rest) := step_cons s .engine rest

/-- The list of moves is no input of R211's enabling condition. -/
@[simp] theorem State.withEnv_engineReady (s : State) (l : List Event) :
    (s.withEnv l).engineReady = s.engineReady := rfl

/-- Whatever moves are listed, the enabled engine's step is `exec` of the latched command (R211). -/
theorem engineStep_withEnv_ok (s : State) (i : Instr) (hd : decode s.seq.cmd = .ok i) (hr : s.engineReady = true)
    (l : List Event) : engineStep (s.withEnv l) = exec i (s.withEnv l) :=
  engineStep_ok (s.withEnv l) i hd ((s.withEnv_engineReady l).trans hr)

/-- Settles O7: `State.engineReady_iff` reads R211's condition as an enabled engine, and both steps are the engine's. -/
theorem stepRunsLatchedCommand : Obligations.StepRunsLatchedCommand := by
  intro s i hd _ hb hph
  have hr : s.engineReady = true := s.engineReady_iff.mpr ⟨hb, hph⟩
  constructor
  · rw [step_nil, engineStep_withEnv_ok s i hd hr]
  · intro rest
    rw [step_engine_cons, engineStep_withEnv_ok s i hd hr]

end Sys2Proof.Machine
end

section
/-!
PROOFS. The family of 10_state.md: reset (R43), the scalar registers behind the port (R23, R25, R27, R28), the RNG port
(R39, R40), and what protects KEY (R33).
-/

namespace Sys2Proof.Machine

/-! ## Reset (R43) -/

/-- With no cell listed every byte reads as its reset value. -/
theorem Memory.readBytes_nil (a n : Nat) : ({ cells := [] } : Memory).readBytes a n = zeros n := by
  simp [Memory.readBytes, Memory.read, cellsRead, Memory.blank, zeros]

/-- A reset zeroes every buffer, all `KEY_MAX` bytes of KEY among them. -/
@[simp] theorem State.resetAll_buf (s : State) (b : Buf) : s.resetAll.buf b = zeros (b.size s.cfg) :=
  Memory.readBytes_nil b.base (b.size s.cfg)

/-- The reset operation leaves the table of R43. -/
theorem State.resetAll_atResetValues (s : State) : AtResetValues s.resetAll := by
  simp [AtResetValues, State.nonce, State.tag, State.dec, State.token, Buf.size, State.irq, State.rngReq,
    Status.reset, Scratch.zero]

/-- The port's latest answer is no row of the table, and the step of a write records it after the reset. -/
theorem State.resetAll_withReply (s : State) (r : Reply) : s.resetAll.withReply r = (s.withReply r).resetAll := rfl

/-- The reset state is a reset of the reference parameters. -/
theorem State.reset_eq_resetAll : State.reset = State.reset.resetAll := rfl

/-! ## Writes to CTRL (R23) -/

/-- SRST wins over IE: a write with bit 1 set resets. -/
theorem State.writeCtrl_of_srst {v : Word} (s : State) (h : v.getLsbD 1 = true) : s.writeCtrl v = s.resetAll := if_pos h

/-- Without SRST a write stores IE. -/
theorem State.writeCtrl_of_not_srst {v : Word} (s : State) (h : v.getLsbD 1 = false) :
    s.writeCtrl v = { s with ie := v.getLsbD 0 } := if_neg (ne_true_of_eq_false h)

/-- The step of a CTRL write, which every state accepts. -/
theorem step_write_ctrl (s : State) (v : Word) (rest : List Event) :
    step (s.withEnv (.write 0x008 4 v :: rest)) = .next (((s.withEnv rest).writeCtrl v).withReply .okay) :=
  step_write s _ _ _ v rest ((s.withEnv rest).memWrite_ctrl v)

/-- The step of a soft reset leaves the table of R43, as reset does. -/
theorem step_srst_atResetValues {v : Word} (s : State) (rest : List Event) (h : v.getLsbD 1 = true) :
    ∃ t, step (s.withEnv (.write 0x008 4 v :: rest)) = .next t ∧ AtResetValues t := by
  refine ⟨((s.withEnv rest).withReply .okay).resetAll, ?_, State.resetAll_atResetValues _⟩
  rw [step_write_ctrl, State.writeCtrl_of_srst _ h, State.resetAll_withReply]

/-! ## Reads of ID, PARAM and CTRL -/

/-- A register that reads through the busy gate (20_memory.md R69) answers in every state. -/
theorem State.memRead_readableBusy (s : State) (addr : BitVec 12) (t : Target) (hw : widthOk addr 4 = true)
    (ht : target s.cfg addr.toNat = some t) (hr : t.readableBusy = true) :
    s.memRead addr 4 = .ok (s.readTarget t addr.toNat) :=
  (s.memRead_ok addr 4 _).2 ⟨hw, t, ht, fun _ => hr, rfl⟩

/-- PARAM's fields (R22). -/
theorem paramWord_fields (c : Config) :
    (paramWord c).extractLsb' 0 16 = BitVec.ofNat 16 c.keyMax ∧ (paramWord c).getLsbD 16 = c.hexUpperOk ∧
      (paramWord c).extractLsb' 17 15 = 0 := by
  unfold paramWord
  refine ⟨?_, ?_, ?_⟩
  · rw [BitVec.extractLsb'_append_eq_of_add_le (by decide)]
    simp
  · rw [BitVec.getLsbD_append, BitVec.getLsbD_append]
    simp
  · rw [BitVec.extractLsb'_append_eq_of_le (by decide), BitVec.extractLsb'_append_eq_of_le (by decide)]
    simp

/-- CTRL reads IE in bit 0 and 0 elsewhere (R23). -/
theorem ctrlWord_eq (s : State) : ctrlWord s = if s.ie then 1 else 0 := by
  cases h : s.ie <;> simp [ctrlWord, h]

/-- Settles O4: all three resets are `State.resetAll`, and ID and PARAM read through the busy gate. -/
theorem resetLeavesTable : Obligations.ResetLeavesTable := by
  refine ⟨?_, fun s rest => ?_, fun s v rest h => step_srst_atResetValues s rest h, fun s => ⟨?_, ?_⟩⟩
  · rw [State.reset_eq_resetAll]
    exact State.reset.resetAll_atResetValues
  · exact ⟨_, step_cons s .reset rest, (s.withEnv rest).resetAll_atResetValues⟩
  · exact s.memRead_readableBusy 0x000 .id rfl rfl rfl
  · exact ⟨paramWord s.cfg, s.memRead_readableBusy 0x004 .param rfl rfl rfl, paramWord_fields s.cfg⟩

/-- Settles O50: a CTRL write is `State.writeCtrl` in every state, split by SRST. -/
theorem ctrlWriteStoresIeOrResets : Obligations.CtrlWriteStoresIeOrResets := by
  refine fun s v rest => ⟨fun h => ?_, fun h => step_srst_atResetValues s rest h, ?_, rfl⟩
  · rw [step_write_ctrl, State.writeCtrl_of_not_srst _ h]
    rfl
  · rw [← ctrlWord_eq]
    exact s.memRead_readableBusy 0x008 .ctrl rfl rfl rfl

/-! ## Writes to KEYLEN, TOKLEN and STATUS (R25, R27, R28) -/

/-- The step of a write while idle to a register that is neither read-only nor CMD. -/
theorem step_write_idle (s : State) (addr : BitVec 12) (v : Word) (rest : List Event) (t : Target)
    (hb : s.status.busy = false) (hw : widthOk addr 4 = true) (ht : target s.cfg addr.toNat = some t)
    (hro : t.readOnly = false) (hcmd : t ≠ .cmd) :
    step (s.withEnv (.write addr 4 v :: rest)) =
      .next (((s.withEnv rest).writeTarget t addr.toNat v).withReply .okay) :=
  step_write s _ addr 4 v rest
    ((State.memWrite_ok _ addr 4 v _).2 ⟨hw, t, ht, by simp [hb], hro, fun h => absurd h hcmd, rfl⟩)

/-- The step of a write while busy to a register other than CTRL (20_memory.md R69). -/
theorem step_write_busy (s : State) (addr : BitVec 12) (v : Word) (rest : List Event) (t : Target)
    (hb : s.status.busy = true) (hw : widthOk addr 4 = true) (ht : target s.cfg addr.toNat = some t)
    (hctrl : t.writableBusy = false) :
    step (s.withEnv (.write addr 4 v :: rest)) = .fault (.busError .busy) := by
  apply step_write_error
  rw [(s.withEnv rest).memWrite_found addr 4 v t hw ht, if_pos (by simp [hb, hctrl])]

/-- A STATUS write with bit 1 set clears DONE. -/
theorem State.writeStatus_of_bit1 {v : Word} (s : State) (h : v.getLsbD 1 = true) :
    s.writeStatus v = { s with status := { s.status with done := false } } := if_pos h

/-- A STATUS write with bit 1 clear changes nothing. -/
theorem State.writeStatus_of_not_bit1 {v : Word} (s : State) (h : v.getLsbD 1 = false) : s.writeStatus v = s :=
  if_neg (ne_true_of_eq_false h)

/-- Settles O49: both are writes that an idle OTPE accepts. -/
theorem lengthRegistersStore : Obligations.LengthRegistersStore := by
  intro s v rest hb
  constructor
  · rw [step_write_idle s 0x014 v rest .keylen hb rfl rfl rfl nofun]
    rfl
  · rw [step_write_idle s 0x018 v rest .toklen hb rfl rfl rfl nofun]
    rfl

/-- Settles O51: an idle OTPE accepts the write, split by bit 1; a busy one does not. -/
theorem statusWriteClearsDone : Obligations.StatusWriteClearsDone := by
  refine fun s v rest => ⟨fun hb h => ?_, fun hb h => ?_, fun hb => ?_⟩
  · rw [step_write_idle s 0x00C v rest .status hb rfl rfl rfl nofun, State.writeTarget, State.writeStatus_of_bit1 _ h]
    rfl
  · rw [step_write_idle s 0x00C v rest .status hb rfl rfl rfl nofun, State.writeTarget,
      State.writeStatus_of_not_bit1 _ h]
    rfl
  · exact step_write_busy s 0x00C v rest .status hb rfl rfl rfl

/-! ## The RNG port (R39, R40) -/

/-- `rng_req` is the pending request (R40). -/
theorem State.rngReq_iff (s : State) : s.rngReq = true ↔ s.rngq = .pending := by simp [State.rngReq]

/-- A delivery answers the pending request. -/
theorem State.rngDeliver_of_pending {s : State} (d : RngDelivery) (h : s.rngq = .pending) :
    s.rngDeliver d = { s with rngq := .ans d.answer } := by
  rw [State.rngDeliver, h]

/-- With no request pending a delivery is ignored (70_reset_and_hazards.md R251). -/
theorem State.rngDeliver_of_not_pending {s : State} (d : RngDelivery) (h : s.rngq ≠ .pending) :
    s.rngDeliver d = s := by
  unfold State.rngDeliver
  split
  · contradiction
  · rfl

/-- Settles O44: the RNG's move is `State.rngDeliver`, split by whether a request is pending. -/
theorem rngAnswersPendingRequest : Obligations.RngAnswersPendingRequest := by
  refine fun s d rest => ⟨s.rngReq_iff, fun h => ?_, fun h => ?_⟩
  · refine ⟨{ s with rngq := .ans d.answer, env := rest }, ?_, rfl, rfl⟩
    rw [step_cons, perform, State.rngDeliver_of_pending d (s := s.withEnv rest) h]
    rfl
  · rw [step_cons, perform, State.rngDeliver_of_not_pending d (s := s.withEnv rest) h]

/-! ## What protects KEY (R33) -/

/-- Two states of the same parameters and STATUS answer an access alike when the register it reaches reads alike. -/
theorem State.memRead_congr {s t : State} (addr : BitVec 12) (n : Nat) (hc : t.cfg = s.cfg) (hst : t.status = s.status)
    (h : ∀ g, widthOk addr n = true → target s.cfg addr.toNat = some g →
      t.readTarget g addr.toNat = s.readTarget g addr.toNat) :
    t.memRead addr n = s.memRead addr n := by
  cases hw : widthOk addr n with
  | false => simp [State.memRead, hw]
  | true =>
    cases ht : target s.cfg addr.toNat with
    | none => simp [State.memRead, hw, hc, ht]
    | some g =>
      rw [s.memRead_found addr n g hw ht, t.memRead_found addr n g hw (hc ▸ ht), hst, h g hw ht]

/-- A legal access is aligned (20_memory.md R63). -/
theorem aligned_of_widthOk {addr : BitVec 12} {n : Nat} (h : widthOk addr n = true) : addr.toNat % 4 = 0 := by
  simp only [widthOk, Bool.and_eq_true, beq_iff_eq] at h
  exact h.2

/-- A word reads alike where its four bytes do. -/
theorem Memory.readWord_congr (m k : Memory) (a : Nat) (h : ∀ i < 4, m.read (a + i) = k.read (a + i)) :
    m.readWord a = k.readWord a := by
  have h0 : m.read a = k.read a := h 0 (by decide)
  simp only [Memory.readWord, h0, h 1 (by decide), h 2 (by decide), h 3 (by decide)]

/-- An aligned word of a buffer other than KEY lies below KEY (20_memory.md R62). -/
theorem word_below_key {c : Config} {b : Buf} {a i : Nat} (ht : target c a = some (.buf b)) (hb : b ≠ .key)
    (ha : a % 4 = 0) (hi : i < 4) : a + i < 0x100 := by
  have hr := target_buf_range c a b ht
  cases b <;> simp only [Buf.base, Buf.size, ne_eq, not_true_eq_false] at hr hb <;> omega

/-- Memories that agree below KEY have the same words in every other buffer. -/
theorem Memory.readWord_congr_below_key {m k : Memory} {c : Config} {b : Buf} {a : Nat}
    (ht : target c a = some (.buf b)) (hb : b ≠ .key) (ha : a % 4 = 0) (h : ∀ x < 0x100, m.read x = k.read x) :
    m.readWord a = k.readWord a :=
  m.readWord_congr k a fun _ hi => h _ (word_below_key ht hb ha hi)

/-- Settles O52: KEY reads 0, an aligned word of another buffer holds no byte of KEY, and no register holds one. -/
theorem keyBytesAreNotReadable : Obligations.KeyBytesAreNotReadable := by
  intro s m addr n hm
  refine State.memRead_congr addr n rfl rfl fun g hw ht => ?_
  have hbelow : ∀ a < 0x100, m.read a = s.mem.read a := fun a ha => hm a (by omega)
  have ha := aligned_of_widthOk hw
  cases g with
  | buf b =>
    cases b with
    | key => rfl
    | nonce => exact Memory.readWord_congr_below_key ht nofun ha hbelow
    | tag => exact Memory.readWord_congr_below_key ht nofun ha hbelow
    | dec => exact Memory.readWord_congr_below_key ht nofun ha hbelow
    | token => exact Memory.readWord_congr_below_key ht nofun ha hbelow
  | _ => rfl

/-- A command that ends without writing KEY keeps it. -/
theorem Ends.keepsKey {s t : State} {p : Prop} (h : Ends s t p) (hp : p) : KeepsKey s t := by
  obtain ⟨u, ok, e, -, hk, rfl, -⟩ := h
  exact ⟨(hk hp).keylen, (hk hp).key⟩

/-- Settles O54: a command waits in the same state or ends, and only WIPE's end may write KEY. -/
theorem onlyWipeWritesKey : Obligations.OnlyWipeWritesKey := by
  intro i s t h hi
  rw [exec_runOf] at h
  cases h
  rcases runOf_cases i s with ⟨-, -, hw⟩ | he
  · rw [hw]
    exact ⟨rfl, rfl⟩
  · obtain ⟨hlen, hkey⟩ := he.keepsKey hi
    exact ⟨hlen, hkey⟩

end Sys2Proof.Machine
end

section
/-!
PROOFS. The invariant (R24, R38, R39, R41): reset establishes it, and each move of HOST, RNG, RESET and ENGINE keeps it.
-/

namespace Sys2Proof.Machine

/-! ## The relations between the STATUS fields (R24) -/

/-- Issue with FATAL clear keeps ERR 0 and FATAL 0 together, and BUSY excludes DONE. -/
theorem Status.issued_inv (st : Status) (hf : st.fatal = false) : st.issued.Inv := by
  simp [Status.Inv, hf, errNone, errKey, errRng]

/-- A completion from a state with FATAL clear, by one of the codes 0 to 3, sets FATAL exactly for 2 and 3. -/
theorem Status.completed_inv (st : Status) (ok : Bool) (e : BitVec 4) (hf : st.fatal = false) (he : e.toNat ≤ 3) :
    (st.completed ok e).Inv := by
  simp [Status.Inv, hf, he, isFatal]

/-- Clearing DONE keeps the relations. -/
theorem Status.clearDone_inv {st : Status} (h : st.Inv) : ({ st with done := false } : Status).Inv := by
  obtain ⟨-, hrest⟩ := h
  exact ⟨by simp, hrest⟩

/-- BUSY excludes FATAL. -/
theorem Status.not_fatal_of_busy {st : Status} (h : st.Inv) (hb : st.busy = true) : st.fatal = false := by
  obtain ⟨-, hfatal, -⟩ := h
  by_contra hf
  exact Bool.false_ne_true ((hfatal (eq_true_of_ne_false hf)).symm.trans hb)

/-! ## Reset and completion -/

/-- Reset establishes the invariant for all legal parameters. -/
theorem State.resetAll_inv (s : State) (hc : s.cfg.wf = true) : s.resetAll.Inv :=
  ⟨hc, State.reset_memInv s.cfg, by simp [Status.Inv, Status.reset, errKey, errRng],
    by simp [State.SeqInv, Status.reset], fun _ => ⟨rfl, rfl⟩⟩

/-- Settles O6: `State.reset` is the state after a reset, and its parameters are legal. -/
theorem resetStateSatisfiesInvariant : Obligations.ResetStateSatisfiesInvariant := by
  rw [Obligations.ResetStateSatisfiesInvariant, State.reset_eq_resetAll]
  exact State.reset.resetAll_inv (by decide)

/-- A busy command that has written outputs and finishes with one of the codes 0 to 3 keeps the invariant. -/
theorem Outputs.finish_inv {s u : State} (ho : Outputs s u) (h : s.Inv) (hb : s.status.busy = true) (ok : Bool)
    {e : BitVec 4} (he : e.toNat ≤ 3) : (u.finish ok e).Inv := by
  obtain ⟨hcfg, hmem, hstatus, -, -⟩ := h
  have hf : u.status.fatal = false := by rw [ho.status, Status.not_fatal_of_busy hstatus hb]
  exact ⟨by rw [← hcfg, ← ho.cfg]; rfl, ho.mem hmem, u.status.completed_inv ok e hf he,
    by simp [State.SeqInv, State.finish], fun _ => ⟨rfl, rfl⟩⟩

/-- The codes a command ends with are 0, 2 and 3, so every end keeps the invariant and the parameters. -/
theorem Ends.inv {s t : State} {p : Prop} (he : Ends s t p) (h : s.Inv) (hb : s.status.busy = true) :
    t.Inv ∧ t.cfg = s.cfg := by
  obtain ⟨u, ok, e, ho, -, rfl, hcode⟩ := he
  have hle : e.toNat ≤ 3 := by
    rcases hcode with rfl | ⟨-, rfl | rfl⟩ <;> decide
  exact ⟨ho.finish_inv h hb ok hle, ho.cfg⟩

/-! ## The engine's move -/

/-- The engine waits, completes an illegal word with ERR_CMD, or runs a command that waits or ends. -/
theorem engineStep_inv {s t : State} (h : s.Inv) (hs : engineStep s = .next t) : t.Inv ∧ t.cfg = s.cfg := by
  rcases engineStep_cases s t hs with ⟨-, rfl⟩ | ⟨hr, -, rfl⟩ | ⟨hr, i, -, -, ⟨-, -, rfl⟩ | he⟩
  · exact ⟨h, rfl⟩
  · exact ⟨(Outputs.refl s).finish_inv h (s.engineReady_iff.1 hr).1 false (by decide), rfl⟩
  · exact ⟨h, rfl⟩
  · exact he.inv h (s.engineReady_iff.1 hr).1

/-! ## The RNG's move -/

/-- An answer stands where the request stood; a request exists only while BUSY, so the idle clauses do not apply. -/
theorem State.rngDeliver_inv {s : State} (h : s.Inv) (d : RngDelivery) :
    (s.rngDeliver d).Inv ∧ (s.rngDeliver d).cfg = s.cfg := by
  by_cases hq : s.rngq = .pending
  · obtain ⟨hcfg, hmem, hstatus, ⟨hidle, hreq, hdraws, hruns⟩, hscratch⟩ := h
    have hph : s.seq.ph = .rngwait := hreq.2 (by simp [hq])
    rw [State.rngDeliver_of_pending d hq]
    refine ⟨⟨hcfg, hmem, hstatus, ⟨hidle, by simp [hph], hdraws, hruns⟩, fun hb => ?_⟩, rfl⟩
    exact absurd ((hscratch hb).2.symm.trans hq) nofun
  · rw [State.rngDeliver_of_not_pending d hq]
    exact ⟨h, rfl⟩

/-! ## The host's writes -/

/-- A CTRL write stores IE, of which the invariant says nothing, or resets. -/
theorem State.writeCtrl_inv {s : State} (h : s.Inv) (v : Word) :
    (s.writeCtrl v).Inv ∧ (s.writeCtrl v).cfg = s.cfg := by
  cases hv : v.getLsbD 1 with
  | true =>
    obtain ⟨hcfg, -⟩ := h
    rw [State.writeCtrl_of_srst s hv]
    exact ⟨s.resetAll_inv hcfg, rfl⟩
  | false =>
    rw [State.writeCtrl_of_not_srst s hv]
    exact ⟨h, rfl⟩

/-- A STATUS write clears DONE or changes nothing. -/
theorem State.writeStatus_inv {s : State} (h : s.Inv) (v : Word) :
    (s.writeStatus v).Inv ∧ (s.writeStatus v).cfg = s.cfg := by
  cases hv : v.getLsbD 1 with
  | true =>
    obtain ⟨hcfg, hmem, hstatus, hseq, hscratch⟩ := h
    rw [State.writeStatus_of_bit1 s hv]
    exact ⟨⟨hcfg, hmem, Status.clearDone_inv hstatus, hseq, hscratch⟩, rfl⟩
  | false =>
    rw [State.writeStatus_of_not_bit1 s hv]
    exact ⟨h, rfl⟩

/-- Issue while idle and not fatal: GEN and DRAW go to RNGWAIT with a request, every other word to RUN with none. -/
theorem State.issue_inv {s : State} (h : s.Inv) (w : Word) (hb : s.status.busy = false)
    (hf : s.status.fatal = false) : (s.issue w).Inv := by
  obtain ⟨hcfg, hmem, -, -, hscratch⟩ := h
  have hq : s.rngq = .none := (hscratch hb).2
  refine ⟨hcfg, hmem, s.status.issued_inv hf, ?_, by simp [State.ScratchInv]⟩
  cases hd : drawsRng w <;> simp [State.SeqInv, hd, hq]

/-- The offset and the size of a buffer are multiples of 4 where `KEY_MAX` is (00_scope.md R6, 20_memory.md R62). -/
theorem Buf.aligned {c : Config} (hc : c.wf = true) (b : Buf) : b.base % 4 = 0 ∧ b.size c % 4 = 0 := by
  simp only [Config.wf, Config.keyMaxAligned, Bool.and_eq_true, beq_iff_eq] at hc
  obtain ⟨hkey, -⟩ := hc
  cases b <;> simp [Buf.base, Buf.size, hkey]

/-- An aligned word write to a buffer stays inside it. -/
theorem State.writeWord_inv {s : State} (h : s.Inv) {a : Nat} (ha : a % 4 = 0) {b : Buf}
    (ht : target s.cfg a = some (.buf b)) (v : Word) : (s.writeWord a v).Inv := by
  obtain ⟨hcfg, hmem, hstatus, hseq, hscratch⟩ := h
  obtain ⟨hlo, hhi⟩ := target_buf_range s.cfg a b ht
  obtain ⟨hbase, hsize⟩ := b.aligned hcfg
  have hfits : a + (bytes32 v).length ≤ b.base + b.size s.cfg := by
    rw [bytes32_length]
    omega
  exact ⟨hcfg, s.MemInv_writeBytes a b (bytes32 v) hmem hlo hfits, hstatus, hseq, hscratch⟩

/-- Every accepted write keeps the invariant, register by register. -/
theorem State.memWrite_inv {s u : State} (h : s.Inv) {addr : BitVec 12} {n : Nat} {v : Word}
    (hw : s.memWrite addr n v = .ok u) : u.Inv ∧ u.cfg = s.cfg := by
  obtain ⟨hwidth, g, ht, hbusy, -, hfatal, rfl⟩ := (s.memWrite_ok addr n v u).1 hw
  cases g with
  | id => exact ⟨h, rfl⟩
  | param => exact ⟨h, rfl⟩
  | ctrl => exact State.writeCtrl_inv h v
  | status => exact State.writeStatus_inv h v
  | cmd =>
    have hb : s.status.busy = false := eq_false_of_ne_true fun hb => absurd (hbusy hb) nofun
    exact ⟨State.issue_inv h v hb (hfatal rfl), rfl⟩
  | keylen => exact ⟨h, rfl⟩
  | toklen => exact ⟨h, rfl⟩
  | buf b => exact ⟨State.writeWord_inv h (aligned_of_widthOk hwidth) ht v, rfl⟩

/-! ## Any step -/

/-- The invariant says nothing of the moves still to come. -/
theorem State.inv_withEnv {s : State} (h : s.Inv) (l : List Event) : (s.withEnv l).Inv := h

/-- The invariant says nothing of the port's latest answer. -/
theorem State.inv_withReply {s : State} (h : s.Inv) (r : Reply) : (s.withReply r).Inv := h

/-- Settles O55: one case per kind of move. -/
theorem stepKeepsInvariant : Obligations.StepKeepsInvariant := by
  intro s t h hs
  rcases step_cases s t hs with ⟨-, he⟩ | ⟨e, rest, -, hmove⟩
  · exact engineStep_inv h he
  · have h' : (s.withEnv rest).Inv := State.inv_withEnv h rest
    rcases hmove with ⟨-, he⟩ | ⟨_, _, w, -, -, rfl⟩ | ⟨_, _, _, u, -, hw, rfl⟩ | ⟨d, -, rfl⟩ | ⟨_, -, rfl⟩ |
      ⟨-, rfl⟩
    · exact engineStep_inv (s := s.withEnv rest) h' he
    · exact ⟨State.inv_withReply h' (.data w), rfl⟩
    · obtain ⟨hu, hcfg⟩ := State.memWrite_inv h' hw
      exact ⟨State.inv_withReply hu .okay, hcfg⟩
    · exact State.rngDeliver_inv h' d
    · exact ⟨h', rfl⟩
    · obtain ⟨hcfg, -⟩ := h'
      exact ⟨(s.withEnv rest).resetAll_inv hcfg, rfl⟩

end Sys2Proof.Machine
end

section
/-!
PROOFS. The family of 20_memory.md: the address map (R62, R64), the reads of registers and buffer words (R67, R69), and
the writes of buffer words (R65, R68).
-/

namespace Sys2Proof.Machine

/-! ## The address map (R62) -/

/-- The rows join: the first begins at `start`, each next one where the row before it ends. -/
def Joined : Nat → List Region → Prop
  | _, [] => True
  | start, r :: rs => r.base = start ∧ Joined (start + r.size) rs

/-- What stands in the first row that ends above `a`. -/
def targetByEnd (a : Nat) : List Region → Option Target
  | [] => none
  | r :: rs => if a < r.base + r.size then r.target else targetByEnd a rs

/-- In rows that join, the row that holds an offset is the first that ends above it. -/
theorem Joined.find_holds {start a : Nat} {rows : List Region} (hj : Joined start rows) (ha : start ≤ a) :
    (rows.find? fun r => r.holds a).bind Region.target = targetByEnd a rows := by
  induction rows generalizing start with
  | nil => rfl
  | cons r rs ih =>
    obtain ⟨rfl, hrs⟩ := hj
    by_cases hlt : a < r.base + r.size
    · have hr : r.holds a = true := (r.holds_true a).2 ⟨ha, hlt⟩
      simp only [List.find?_cons, hr, targetByEnd, hlt, if_true, Option.bind_some]
    · have hr : r.holds a = false := (r.holds_false a).2 fun ⟨_, h⟩ => hlt h
      simp only [List.find?_cons, hr, targetByEnd, hlt, if_false]
      exact ih hrs (by omega)

/-- The rows of the map join from offset 0 on. -/
theorem joined_addressMap (c : Config) : Joined 0 (addressMap c) := by
  simp [addressMap, Joined, keyEnd]

/-- The map is decided by the rows' ends alone. -/
theorem target_eq_targetByEnd (c : Config) (a : Nat) : target c a = targetByEnd a (addressMap c) := by
  rw [← (joined_addressMap c).find_holds (Nat.zero_le a), target]
  cases (addressMap c).find? fun r => r.holds a <;> rfl

/-- Settles O45: the rows join, so the table is a chain of their ends; above the last row nothing stands either. -/
theorem addressMapIsStated : Obligations.AddressMapIsStated := by
  intro c a
  rw [target_eq_targetByEnd]
  simp [addressMap, targetByEnd]

/-! ## The words that registers read as (R22, R24, R27) -/

/-- The value of a concatenation. -/
theorem toNat_append_eq_add {m n : Nat} (x : BitVec m) (y : BitVec n) :
    (x ++ y).toNat = x.toNat * 2 ^ n + y.toNat := by
  rw [BitVec.toNat_append, ← Nat.shiftLeft_add_eq_or_of_lt y.isLt, Nat.shiftLeft_eq]

/-- PARAM is KEY_MAX with HEX_UPPER_OK above it (R22). -/
theorem paramWord_toNat {c : Config} (h : c.keyMax < 65536) :
    (paramWord c).toNat = c.keyMax + 65536 * c.hexUpperOk.toNat := by
  simp only [paramWord, toNat_append_eq_add, BitVec.toNat_ofBool, BitVec.toNat_ofNat]
  omega

/-- STATUS is its fields at their bits (R24). -/
theorem Status.word_toNat (st : Status) :
    st.word.toNat =
      st.busy.toNat + 2 * st.done.toNat + 4 * st.ok.toNat + 8 * st.fatal.toNat + 256 * st.err.toNat := by
  simp only [Status.word, toNat_append_eq_add, BitVec.toNat_ofBool, BitVec.toNat_ofNat]
  omega

/-- KEYLEN is zero-extended (R27). -/
theorem keylenWord_toNat (s : State) : (keylenWord s).toNat = s.keylen.toNat := by
  rw [keylenWord, toNat_append_eq_add, BitVec.toNat_zero, Nat.zero_mul, Nat.zero_add]

/-! ## Words of buffers (R65) -/

/-- `KEY_MAX` of a legal instance (00_scope.md R6). -/
theorem Config.keyMax_le {c : Config} (hc : c.wf = true) : c.keyMax ≤ 3840 := by
  simp only [Config.wf, Config.keyMaxInRange, Bool.and_eq_true, decide_eq_true_eq] at hc
  obtain ⟨-, -, hmax⟩ := hc
  exact hmax

/-- Every buffer of a legal instance lies in the register window (R60, R62). -/
theorem Buf.end_le {c : Config} (hc : c.wf = true) (b : Buf) : b.base + b.size c ≤ 4096 := by
  have hmax := Config.keyMax_le hc
  cases b <;> simp only [Buf.base, Buf.size] <;> omega

section Word
variable {c : Config} {b : Buf} {j : Nat} (hc : c.wf = true) (hj : 4 * j < b.size c)
include hc hj

/-- The offset of a buffer word fits the address. -/
theorem Buf.wordAddr_toNat : (BitVec.ofNat 12 (b.base + 4 * j)).toNat = b.base + 4 * j := by
  have hend := b.end_le hc
  rw [BitVec.toNat_ofNat, Nat.mod_eq_of_lt (by omega)]

/-- An access to a buffer word is legal (R63). -/
theorem Buf.widthOk_wordAddr : widthOk (BitVec.ofNat 12 (b.base + 4 * j)) 4 = true := by
  have hbase := (b.aligned hc).1
  have haligned : (b.base + 4 * j) % 4 = 0 := by omega
  simp [widthOk, Buf.wordAddr_toNat hc hj, haligned]

/-- The map finds the buffer at each of its words. -/
theorem Buf.target_wordAddr : target c (BitVec.ofNat 12 (b.base + 4 * j)).toNat = some (.buf b) := by
  rw [Buf.wordAddr_toNat hc hj, target_buf c b _ hj]

/-- The four bytes of a word lie in its buffer. -/
theorem Buf.word_inside : 4 * j + 3 < b.size c := by
  have hsize := (b.aligned hc).2
  omega

end Word

/-- A word of a buffer other than KEY reads from memory (R65). -/
theorem State.readTarget_buf (s : State) {b : Buf} (h : b ≠ .key) (a : Nat) :
    s.readTarget (.buf b) a = s.mem.readWord a := by
  cases b with
  | key => exact absurd rfl h
  | _ => rfl

/-- An idle OTPE answers every legal read that the map finds (R67). -/
theorem State.memRead_idle (s : State) (addr : BitVec 12) (t : Target) (hb : s.status.busy = false)
    (hw : widthOk addr 4 = true) (ht : target s.cfg addr.toNat = some t) :
    s.memRead addr 4 = .ok (s.readTarget t addr.toNat) :=
  (s.memRead_ok addr 4 _).2 ⟨hw, t, ht, by simp [hb], rfl⟩

/-- The read of a buffer word while idle (R67). -/
theorem State.memRead_bufWord (s : State) {b : Buf} {j : Nat} (hc : s.cfg.wf = true) (hb : s.status.busy = false)
    (hj : 4 * j < b.size s.cfg) :
    s.memRead (BitVec.ofNat 12 (b.base + 4 * j)) 4 = .ok (s.readTarget (.buf b) (b.base + 4 * j)) := by
  rw [s.memRead_idle _ _ hb (Buf.widthOk_wordAddr hc hj) (Buf.target_wordAddr hc hj), Buf.wordAddr_toNat hc hj]

/-- A word of memory inside a buffer is the buffer's four bytes. -/
theorem State.readWord_buf (s : State) (b : Buf) (i : Nat) (h : i + 3 < b.size s.cfg) :
    s.mem.readWord (b.base + i) =
      be32 ((s.buf b).getD i 0) ((s.buf b).getD (i + 1) 0) ((s.buf b).getD (i + 2) 0) ((s.buf b).getD (i + 3) 0) := by
  have hbyte (k : Nat) (hk : k < 4) : (s.buf b).getD (i + k) 0 = s.mem.read (b.base + i + k) := by
    rw [State.buf, Memory.readBytes_getD _ _ _ _ (by omega), Nat.add_assoc]
  rw [Memory.readWord, ← hbyte 1 (by decide), ← hbyte 2 (by decide), ← hbyte 3 (by decide)]
  exact congrArg (be32 · _ _ _) (hbyte 0 (by decide)).symm

/-! ## Reads (R67, R69) -/

/-- The step of an answered read. -/
theorem step_read (s : State) (addr : BitVec 12) (n : Nat) (w : Word) (rest : List Event)
    (h : s.memRead addr n = .ok w) :
    step (s.withEnv (.read addr n :: rest)) = .next { s with reply := .data w, env := rest } :=
  hostRead_ok (s.withEnv rest) addr n w h

/-- Settles O47: four registers read through the busy gate, the others and the buffers' words while idle. -/
theorem readsReturnRegisters : Obligations.ReadsReturnRegisters := by
  intro s
  refine ⟨?id, fun hc => ?param, ?ctrl, ?status, fun hb => ⟨?cmd, ?keylen, ?toklen⟩,
    fun hc hb => ⟨fun b j hkey hj => ?buf, fun j hj => ?key⟩, fun addr n w rest => step_read s addr n w rest⟩
  case id => exact s.memRead_readableBusy 0x000 .id rfl rfl rfl
  case param =>
    have hmax := Config.keyMax_le hc
    exact ⟨_, s.memRead_readableBusy 0x004 .param rfl rfl rfl, paramWord_toNat (by omega)⟩
  case ctrl =>
    rw [← ctrlWord_eq]
    exact s.memRead_readableBusy 0x008 .ctrl rfl rfl rfl
  case status => exact ⟨_, s.memRead_readableBusy 0x00C .status rfl rfl rfl, s.status.word_toNat⟩
  case cmd => exact s.memRead_idle 0x010 .cmd hb rfl rfl
  case keylen => exact ⟨_, s.memRead_idle 0x014 .keylen hb rfl rfl, keylenWord_toNat s⟩
  case toklen => exact s.memRead_idle 0x018 .toklen hb rfl rfl
  case buf =>
    rw [s.memRead_bufWord hc hb hj, s.readTarget_buf hkey, s.readWord_buf b (4 * j) (Buf.word_inside hc hj)]
  case key => exact s.memRead_bufWord (b := .key) hc hb hj

/-! ## Writes of buffer words (R65, R68) -/

/-- `be32` undoes `bytes32`. -/
theorem be32_bytes (v : Word) :
    be32 (v.extractLsb' 24 8) (v.extractLsb' 16 8) (v.extractLsb' 8 8) (v.extractLsb' 0 8) = v := by
  apply BitVec.eq_of_toNat_eq
  simp only [be32, toNat_append_eq_add, BitVec.extractLsb'_toNat, Nat.shiftRight_eq_div_pow]
  omega

/-- The byte at each offset after a word is stored: the word's own four, the most significant first. -/
theorem Memory.read_writeWord (m : Memory) (a x : Nat) (v : Word) :
    (m.writeBytes a (bytes32 v)).read x =
      if x = a then v.extractLsb' 24 8 else if x = a + 1 then v.extractLsb' 16 8
      else if x = a + 2 then v.extractLsb' 8 8 else if x = a + 3 then v.extractLsb' 0 8 else m.read x := by
  rw [Memory.read_writeBytes, bytes32_length]
  by_cases hin : a ≤ x ∧ x < a + 4
  · obtain ⟨k, rfl⟩ := Nat.exists_eq_add_of_le hin.1
    have hk : k < 4 := by omega
    interval_cases k <;> simp [bytes32]
  · rw [if_neg hin, if_neg (by omega), if_neg (by omega), if_neg (by omega), if_neg (by omega)]

/-- A stored word reads back. -/
theorem Memory.readWord_writeWord (m : Memory) (a : Nat) (v : Word) :
    (m.writeBytes a (bytes32 v)).readWord a = v := by
  simp [Memory.readWord, Memory.read_writeWord, be32_bytes]

/-- What a word just written reads as: itself, or 0 from KEY (R33). -/
theorem State.readTarget_writeWord (s : State) (b : Buf) (a : Nat) (v : Word) :
    (s.writeWord a v).readTarget (.buf b) a = if b = .key then 0 else v := by
  by_cases hkey : b = .key
  · rw [if_pos hkey, hkey]
    rfl
  · rw [if_neg hkey, State.readTarget_buf _ hkey, State.writeWord_mem, Memory.readWord_writeWord]

/-- The step of a buffer word's write while idle (R68). -/
theorem step_write_bufWord (s : State) {b : Buf} {j : Nat} (v : Word) (rest : List Event) (hc : s.cfg.wf = true)
    (hb : s.status.busy = false) (hj : 4 * j < b.size s.cfg) :
    step (s.withEnv (.write (BitVec.ofNat 12 (b.base + 4 * j)) 4 v :: rest)) =
      .next (((s.withEnv rest).writeWord (b.base + 4 * j) v).withReply .okay) := by
  rw [step_write_idle s _ v rest (.buf b) hb (Buf.widthOk_wordAddr hc hj) (Buf.target_wordAddr hc hj) rfl nofun,
    Buf.wordAddr_toNat hc hj]
  rfl

/-- Settles O48: the accepted write stores the word's bytes in the buffer; the word is read from the state it leaves. -/
theorem bufferWordsReadBack : Obligations.BufferWordsReadBack := by
  intro s b j v rest hc hb hj
  refine ⟨_, step_write_bufWord s v rest hc hb hj, rfl, fun a => s.mem.read_writeWord _ a v, ?_⟩
  have hread := State.memRead_bufWord (((s.withEnv rest).writeWord (b.base + 4 * j) v).withReply .okay) hc hb hj
  rw [hread]
  exact congrArg Except.ok (State.readTarget_writeWord (s.withEnv rest) b _ v)

end Sys2Proof.Machine
end

section
/-!
PROOFS. The family of 30_encoding.md, sections 1 and 2: the word and its fields (R90), the decoder and the encoder (R91,
R93, R94), and the acceptance of a CMD write (46_system.md R210).
-/

namespace Sys2Proof

/-! ## A word and its fields (R90) -/

/-- The fields of a word spell the word. -/
theorem Cmd32.toWord_ofWord (w : Word) : (Cmd32.ofWord w).toWord = w := BitVec.extractLsb'_append_extractLsb'

/-- A word spelt from fields has these fields. -/
theorem Cmd32.ofWord_toWord (f : Cmd32) : Cmd32.ofWord f.toWord = f := by
  rw [Cmd32.ofWord, Cmd32.toWord, BitVec.extractLsb'_append_eq_left, BitVec.extractLsb'_append_eq_right]

/-- A word has the fields of a command exactly when it is the command's word. -/
theorem ofWord_eq_encodeFields_iff (w : Word) (i : Instr) : Cmd32.ofWord w = encodeFields i ↔ encode i = w := by
  constructor
  · intro h
    rw [encode, ← h, Cmd32.toWord_ofWord]
  · rintro rfl
    exact Cmd32.ofWord_toWord (encodeFields i)

/-- `w[31:8]` is zero exactly in the words below `0x100`. -/
theorem Cmd32.ofWord_rsv_eq_zero_iff (w : Word) : (Cmd32.ofWord w).rsv = 0 ↔ w.toNat < 0x100 := by
  rw [Cmd32.ofWord, ← BitVec.toNat_inj, BitVec.extractLsb'_toNat, Nat.shiftRight_eq_div_pow, BitVec.ofNat_eq_ofNat,
    BitVec.toNat_zero]
  omega

/-- `w[7:0]` as a number. -/
theorem Cmd32.ofWord_op_toNat (w : Word) : (Cmd32.ofWord w).op.toNat = w.toNat % 0x100 := by
  rw [Cmd32.ofWord, BitVec.extractLsb'_toNat, Nat.shiftRight_zero]

/-! ## The opcode map (R91, R94) -/

/-- The map gives each command's opcode the command. -/
theorem decodeOp_opcode (i : Instr) : decodeOp (opcode i) = .ok i := by
  cases i <;> rfl

/-- The map gives a command to its own opcode alone. -/
theorem opcode_of_decodeOp {op : BitVec 8} {i : Instr} (h : decodeOp op = .ok i) : op = opcode i := by
  unfold decodeOp at h
  split at h <;> cases h <;> exact BitVec.eq_of_toNat_eq ‹_›

/-- The opcodes from `0x0A` on are unassigned. -/
theorem decodeOp_unassigned {op : BitVec 8} (h : 0x0A ≤ op.toNat) : decodeOp op = .error .unassignedOpcode := by
  obtain ⟨k, hk⟩ := Nat.exists_eq_add_of_le' h
  rw [decodeOp, hk]
  rfl

/-! ## The decoder (R93, R94) -/

/-- A word with a reserved bit set is illegal. -/
theorem decode_of_rsv_ne_zero {w : Word} (h : (Cmd32.ofWord w).rsv ≠ 0) : decode w = .error .reservedBits := if_neg h

/-- Any other word is decoded by its opcode. -/
theorem decode_of_rsv_eq_zero {w : Word} (h : (Cmd32.ofWord w).rsv = 0) : decode w = decodeOp (Cmd32.ofWord w).op :=
  if_pos h

/-- A word decodes to a command exactly when it has the command's fields. -/
theorem decode_ok_iff_fields (w : Word) (i : Instr) : decode w = .ok i ↔ Cmd32.ofWord w = encodeFields i := by
  constructor
  · intro h
    by_cases hrsv : (Cmd32.ofWord w).rsv = 0
    · rw [decode_of_rsv_eq_zero hrsv] at h
      exact congrArg₂ Cmd32.mk hrsv (opcode_of_decodeOp h)
    · rw [decode_of_rsv_ne_zero hrsv] at h
      cases h
  · intro h
    rw [decode_of_rsv_eq_zero (congrArg Cmd32.rsv h), h]
    exact decodeOp_opcode i

/-- A word decodes to a command exactly when it is the command's word. -/
theorem decode_ok_iff (w : Word) (i : Instr) : decode w = .ok i ↔ encode i = w :=
  (decode_ok_iff_fields w i).trans (ofWord_eq_encodeFields_iff w i)

/-- The decoder undoes the encoder. -/
@[simp] theorem decode_encode (i : Instr) : decode (encode i) = .ok i := (decode_ok_iff _ i).2 rfl

/-- The mask of R91 keeps every bit of a word. -/
theorem and_fullMask (w : Word) : w &&& 0xFFFFFFFF = w := BitVec.and_allOnes

/-- Settles O3: a word decodes to a command exactly when it has the command's fields, and these spell the word; the mask
keeps every bit. -/
theorem decodeAgreesWithEncode : Obligations.DecodeAgreesWithEncode := by
  intro w i
  refine ⟨decode_ok_iff w i, ?_, decode_encode i⟩
  rw [decode_ok_iff, and_fullMask, eq_comm]

/-! ## Decoding by the word's value (R94) -/

section ByValue
variable {w : Word}

/-- A word below `0x100` is decoded by its opcode, which has its value. -/
theorem decode_of_lt (h : w.toNat < 0x100) :
    decode w = decodeOp (Cmd32.ofWord w).op ∧ (Cmd32.ofWord w).op.toNat = w.toNat :=
  ⟨decode_of_rsv_eq_zero ((Cmd32.ofWord_rsv_eq_zero_iff w).2 h), by rw [Cmd32.ofWord_op_toNat, Nat.mod_eq_of_lt h]⟩

/-- A word from `0x100` on has a reserved bit set. -/
theorem decode_reservedBits (h : 0x100 ≤ w.toNat) : decode w = .error .reservedBits :=
  decode_of_rsv_ne_zero (mt (Cmd32.ofWord_rsv_eq_zero_iff w).1 h.not_gt)

/-- A word from `0x0A` to `0xFF` has an unassigned opcode. -/
theorem decode_unassignedOpcode (hlo : 0x0A ≤ w.toNat) (hhi : w.toNat < 0x100) :
    decode w = .error .unassignedOpcode := by
  obtain ⟨hdecode, hop⟩ := decode_of_lt hhi
  rw [hdecode, decodeOp_unassigned (by omega)]

/-- A word whose value is a command's opcode decodes to the command. -/
theorem decode_of_toNat_eq_opcode {i : Instr} (h : w.toNat = (opcode i).toNat) : decode w = .ok i := by
  obtain ⟨hdecode, hop⟩ := decode_of_lt (h.trans_lt (opcode i).isLt)
  rw [hdecode, BitVec.eq_of_toNat_eq (hop.trans h), decodeOp_opcode]

/-- No word from `0x0A` on is a command. -/
theorem decode_illegal (h : 0x0A ≤ w.toNat) : ∃ e, decode w = .error e := by
  by_cases hhi : w.toNat < 0x100
  · exact ⟨_, decode_unassignedOpcode h hhi⟩
  · exact ⟨_, decode_reservedBits (Nat.le_of_not_lt hhi)⟩

end ByValue

/-! ## The table's words (R91) -/

/-- The number of a word is decoded as the word. -/
theorem decodeTableWord_toNat (w : Word) : decodeTableWord 32 w.toNat = (decode w).toOption := by
  rw [decodeTableWord, if_pos ⟨le_rfl, w.isLt⟩, BitVec.ofNat_toNat, BitVec.setWidth_eq]

/-- The number of a command's word is decoded as the command. -/
theorem decodeTableWord_encode (i : Instr) : decodeTableWord 32 (encode i).toNat = some i := by
  rw [decodeTableWord_toNat, decode_encode]
  rfl

/-- The number of any word from `0x0A` on is decoded as none. -/
theorem decodeTableWord_illegal (w : Word) (h : 0x0A ≤ w.toNat) : decodeTableWord 32 w.toNat = none := by
  obtain ⟨e, he⟩ := decode_illegal h
  rw [decodeTableWord_toNat, he]
  rfl

/-- Settles O1: the ten are the numbers of the commands' words, and the three illegal words lie above them. -/
theorem tableWordsDecode : Obligations.TableWordsDecode :=
  ⟨decodeTableWord_encode .nop, decodeTableWord_encode .gen, decodeTableWord_encode .vfy, decodeTableWord_encode .mac,
    decodeTableWord_encode .hash, decodeTableWord_encode .draw, decodeTableWord_encode .hexe,
    decodeTableWord_encode .hexd, decodeTableWord_encode .cmp, decodeTableWord_encode .wipe,
    decodeTableWord_illegal 0x0000000A (by decide), decodeTableWord_illegal 0x00000101 (by decide),
    decodeTableWord_illegal 0xFFFFFFFF (by decide)⟩

/-! ## The acceptance of a CMD write (46_system.md R210) -/

/-- A CMD write is accepted while neither busy nor fatal, whatever its word is. -/
theorem Machine.State.memWrite_cmd_accepted_iff (s : Machine.State) (w : Word) :
    (∃ t, s.memWrite 0x010 4 w = .ok t) ↔ s.status.busy = false ∧ s.status.fatal = false := by
  cases hb : s.status.busy with
  | true =>
    rw [s.memWrite_cmd_busy w hb]
    simp
  | false =>
    cases hf : s.status.fatal with
    | true =>
      rw [s.memWrite_cmd_fatal w hb hf]
      simp
    | false =>
      rw [s.memWrite_cmd w hb hf]
      simp

/-- Settles O2: the three ranges of words, and a condition for acceptance in which the word does not stand. -/
theorem decodeFollowsOpcodeMap : Obligations.DecodeFollowsOpcodeMap := by
  refine ⟨fun w => decode_reservedBits, fun w => decode_unassignedOpcode, fun w hw => ?_, fun s v w => ?_⟩
  · apply decode_of_toNat_eq_opcode
    generalize w.toNat = n at hw
    interval_cases n <;> rfl
  · rw [s.memWrite_cmd_accepted_iff v, s.memWrite_cmd_accepted_iff w]

end Sys2Proof
end

section
/-!
PROOFS. The family of 30_encoding.md, section 4: what WAIT and READ of a host script do (R96).
-/

namespace Sys2Proof.Machine

/-! ## The completion step (46_system.md R211) -/

/-- In the invariant the completion step is enabled in RUN, and where an answer stands, which is in RNGWAIT. -/
theorem State.engineReady_of_inv {s : State} (h : s.Inv) (hb : s.status.busy = true)
    (hph : s.seq.ph = .run ∨ ∃ a, s.rngq = .ans a) : s.engineReady = true := by
  obtain ⟨-, -, -, ⟨-, hreq, -, -⟩, -⟩ := h
  refine s.engineReady_iff.2 ⟨hb, hph.imp_right fun ⟨a, ha⟩ => ⟨hreq.2 ?_, a, ha⟩⟩
  rw [ha]
  nofun

/-- In the invariant GEN and DRAW are enabled only with an answer, so that none of them waits. -/
theorem State.rngq_answered_of_draws {s : State} (h : s.Inv) (hr : s.engineReady = true) {i : Instr}
    (hd : decode s.seq.cmd = .ok i) (hi : i = .gen ∨ i = .draw) : s.rngq.kind ≠ .waiting := by
  obtain ⟨-, -, -, ⟨-, -, -, hruns⟩, -⟩ := h
  obtain ⟨-, hrun | ⟨-, a, ha⟩⟩ := s.engineReady_iff.1 hr
  · have hdraws : drawsRng s.seq.cmd = true := by
      rcases hi with rfl | rfl <;> rw [drawsRng, hd]
    exact absurd (hruns hrun) (ne_false_of_eq_true hdraws)
  · rw [ha]
    cases a <;> nofun

/-- The engine's move never stops. -/
theorem exists_engineStep (s : State) : ∃ t, engineStep s = .next t := by
  cases hr : s.engineReady with
  | false => exact ⟨s, engineStep_stays s hr⟩
  | true =>
    rw [engineStep_ready s hr]
    cases hd : decode s.seq.cmd with
    | error e => exact ⟨_, runLatched_error s e hd⟩
    | ok i => exact ⟨_, (runLatched_ok s i hd).trans (exec_runOf i s)⟩

/-- In the invariant the enabled engine's move finishes the command. -/
theorem engineStep_finishes {s t : State} (h : s.Inv) (hr : s.engineReady = true) (hs : engineStep s = .next t) :
    ∃ (u : State) (ok : Bool) (e : BitVec 4), Outputs s u ∧ t = u.finish ok e := by
  rcases engineStep_cases s t hs with ⟨hn, -⟩ | ⟨-, -, rfl⟩ | ⟨-, i, hd, -, ⟨hi, hwaits, -⟩ | he⟩
  · exact absurd hn (ne_false_of_eq_true hr)
  · exact ⟨s, false, errCmd, Outputs.refl s, rfl⟩
  · exact absurd hwaits (State.rngq_answered_of_draws h hr hd hi)
  · obtain ⟨u, ok, e, ho, -, ht, -⟩ := he
    exact ⟨u, ok, e, ho, ht⟩

/-- In the invariant a pending request keeps the engine busy and waiting (43_rng.md R169). -/
theorem State.waits_of_pending {s : State} (h : s.Inv) (hq : s.rngq = .pending) :
    s.status.busy = true ∧ s.engineReady = false := by
  obtain ⟨-, -, -, ⟨hidle, hreq, -, -⟩, -⟩ := h
  have hph : s.seq.ph = .rngwait := hreq.2 (by simp [hq])
  exact ⟨by simpa [hph] using hidle, by simp [State.engineReady, hph, hq, RngQ.kind]⟩

/-! ## WAIT (R96) -/

/-- The session after a read that OTPE has answered with `w`. -/
def Session.answeredRead (x : Session) (w : Word) : Session := { x with st := x.st.withReply (.data w) }

/-- A turn of WAIT on an idle OTPE is the last one. -/
theorem Session.poll_idle (x : Session) (n : Nat) (hb : x.st.status.busy = false) :
    x.poll (n + 1) = some (.data x.st.status.word, x.answeredRead x.st.status.word) := by
  rw [x.poll_succ n, hb]
  rfl

/-- A turn of WAIT on a busy OTPE ends with the engine's move, which does not read the port's answer. -/
theorem Session.poll_busy (x : Session) (n : Nat) (hb : x.st.status.busy = true) {t : State}
    (ht : engineStep x.st = .next t) :
    x.poll (n + 1) = ({ x with st := t.withReply (.data x.st.status.word) } : Session).poll n := by
  have hengine : (x.answeredRead x.st.status.word).engine = { x with st := t.withReply (.data x.st.status.word) } :=
    Session.engine_next _ _ (engineStep_withReply x.st t _ ht)
  rw [← hengine, x.poll_succ n, hb]
  rfl

/-- WAIT on a busy OTPE whose engine waits sees no end. -/
theorem Session.poll_waiting (n : Nat) {x : Session} (hb : x.st.status.busy = true) (hr : x.st.engineReady = false) :
    x.poll n = none := by
  induction n generalizing x with
  | zero => rfl
  | succ n ih =>
    rw [x.poll_busy n hb (engineStep_stays x.st hr)]
    exact ih hb hr

/-- Settles O59: one turn while idle; two around the engine's finishing move; no last turn while the engine waits. -/
theorem waitEndsWhenBusyClears : Obligations.WaitEndsWhenBusyClears := by
  refine fun x h => ⟨fun hb n => x.poll_idle n hb, fun hb hph => ?_, fun hq n => ?_⟩
  · obtain ⟨t, ht⟩ := exists_engineStep x.st
    have hr : x.st.engineReady = true := State.engineReady_of_inv h hb hph
    obtain ⟨u, ok, e, -, rfl⟩ := engineStep_finishes h hr ht
    refine ⟨x.poll_busy 0 hb ht, u.finish ok e, ht, rfl, rfl, Status.word_busy _, fun i hd => ?_, fun n => ?_⟩
    · rw [← engineStep_ok x.st i hd hr, ht]
    · rw [x.poll_busy (n + 1) hb ht, Session.poll_idle _ n rfl]
      rfl
  · obtain ⟨hb, hr⟩ := State.waits_of_pending h hq
    exact Session.poll_waiting n hb hr

/-! ## READ (R96) -/

/-- The port's latest answer is no input of a read. -/
theorem State.memRead_withReply (s : State) (r : Reply) (addr : BitVec 12) (n : Nat) :
    (s.withReply r).memRead addr n = s.memRead addr n :=
  State.memRead_congr addr n rfl rfl fun g _ _ => by cases g <;> rfl

/-- Reads that OTPE answers, one after another, give their words in order and change nothing but the port's latest
answer. -/
theorem Session.performAll_reads (polls : Nat) {addr : Nat → BitVec 12} {word : Nat → Word} (js : List Nat)
    (x : Session) (h : ∀ j ∈ js, x.st.memRead (addr j) 4 = .ok (word j)) :
    ∃ r, x.performAll polls (js.map fun j => .rd (addr j)) =
      some (js.map fun j => .data (word j), { x with st := x.st.withReply r }) := by
  induction js generalizing x with
  | nil => exact ⟨x.st.reply, rfl⟩
  | cons j js ih =>
    have hread : x.perform polls (.rd (addr j)) = some (.data (word j), x.answeredRead (word j)) :=
      congrArg some (x.read_ok _ _ (h j List.mem_cons_self))
    obtain ⟨r, hr⟩ := ih (x.answeredRead (word j)) fun k hk =>
      (x.st.memRead_withReply _ _ _).trans (h k (List.mem_cons_of_mem j hk))
    refine ⟨r, ?_⟩
    rw [List.map_cons, Session.performAll, hread]
    simp only [hr]
    rfl

/-- READ of a buffer while idle: the port's word of every index, in order (R67). -/
theorem Session.runStatement_readBuf (x : Session) (b : Buf) (polls : Nat) (hc : x.st.cfg.wf = true)
    (hb : x.st.status.busy = false) :
    ∃ r, x.runStatement polls (.readBuf b) =
      some ((List.range (b.size x.st.cfg / 4)).map fun j => .data (x.st.readTarget (.buf b) (b.base + 4 * j)),
        { x with st := x.st.withReply r }) := by
  refine Session.performAll_reads polls _ x fun j hj => x.st.memRead_bufWord hc hb ?_
  have hlt := List.mem_range.1 hj
  omega

/-- `bytes32` undoes `be32` (00_scope.md R8). -/
theorem bytes32_be32 (b0 b1 b2 b3 : Byte) : bytes32 (be32 b0 b1 b2 b3) = [b0, b1, b2, b3] := by
  simp only [bytes32, List.cons.injEq, and_true]
  refine ⟨?_, ?_, ?_, ?_⟩ <;> apply BitVec.eq_of_toNat_eq <;>
    simp only [be32, toNat_append_eq_add, BitVec.extractLsb'_toNat, Nat.shiftRight_eq_div_pow] <;> omega

/-- A word unpacked is its four bytes of memory (R65). -/
theorem bytes32_readWord (m : Memory) (a : Nat) : bytes32 (m.readWord a) = m.readBytes a 4 := bytes32_be32 _ _ _ _

/-- Neighbouring stretches of memory join. -/
theorem Memory.readBytes_add (m : Memory) (a n k : Nat) :
    m.readBytes a (n + k) = m.readBytes a n ++ m.readBytes (a + n) k := by
  simp [Memory.readBytes, List.range_add, Nat.add_assoc, Function.comp_def]

/-- `n` words in a row are `4n` bytes of memory. -/
theorem Memory.flatMap_words (m : Memory) (a n : Nat) :
    (List.range n).flatMap (fun j => bytes32 (m.readWord (a + 4 * j))) = m.readBytes a (4 * n) := by
  induction n with
  | zero => rfl
  | succ n ih =>
    rw [List.range_succ, List.flatMap_append, ih, List.flatMap_singleton, bytes32_readWord, ← Memory.readBytes_add,
      Nat.mul_succ]

/-- `n` zero words are `4n` zero bytes. -/
theorem flatMap_zero_words (n : Nat) : (List.range n).flatMap (fun _ => bytes32 0) = zeros (4 * n) := by
  induction n with
  | zero => rfl
  | succ n ih =>
    rw [List.range_succ, List.flatMap_append, ih, List.flatMap_singleton, Nat.mul_succ, zeros, zeros,
      List.replicate_add]
    rfl

/-- The result of reads that were answered is their words unpacked (R96). -/
theorem readResult_data (js : List Nat) (word : Nat → Word) :
    readResult (js.map fun j => .data (word j)) = js.flatMap fun j => bytes32 (word j) := List.flatMap_map ..

/-- Settles O60: one read per word; unpacked they are the buffer's memory, and KEY's words are zero. -/
theorem readStatementReturnsBuffer : Obligations.ReadStatementReturnsBuffer := by
  intro x b polls hc hb
  obtain ⟨r, hrun⟩ := x.runStatement_readBuf b polls hc hb
  refine ⟨_, _, hrun, by simp, ?_, rfl⟩
  have hsize : 4 * (b.size x.st.cfg / 4) = b.size x.st.cfg :=
    Nat.mul_div_cancel' (Nat.dvd_of_mod_eq_zero (b.aligned hc).2)
  rw [readResult_data]
  by_cases hkey : b = .key
  · subst hkey
    rw [if_pos rfl]
    exact (flatMap_zero_words _).trans (congrArg zeros hsize)
  · simp only [if_neg hkey, x.st.readTarget_buf hkey]
    rw [Memory.flatMap_words, hsize, State.buf]

end Sys2Proof.Machine
end

section
/-!
PROOFS. The family of 40_sha256.md: the padding (R118), the schedule in the sliding window (R115, R123), and the command
HASH (R122).
-/

namespace Sys2Proof.Machine

/-! ## The padding (R118) -/

/-- `0x80` stands right after the message. -/
theorem padByte_marker (m : List Byte) (mlen : BitVec 64) : padByte m mlen m.length = 0x80 := by
  simp [padByte]

/-- Between the marker and the length field every byte is zero. -/
theorem padByte_between (m : List Byte) (mlen : BitVec 64) {i : Nat} (h : m.length < i)
    (hi : i < 64 * blockCount m.length - 8) : padByte m mlen i = 0 := by
  rw [padByte, if_neg h.le.not_gt, if_neg h.ne', if_pos hi]

/-- A padded message starts with the message. -/
theorem pad_take (m : List Byte) : (pad m).take m.length = m := by
  rw [pad, List.append_assoc, List.append_assoc, List.take_left]

/-- A padded message ends with the bit length. -/
theorem pad_drop (m : List Byte) :
    (pad m).drop ((pad m).length - 8) = be64 (BitVec.ofNat 64 (8 * m.length)) := by
  rw [pad, List.length_append, be64_length, Nat.add_sub_cancel, List.drop_left]

/-- The number of zero bytes as an integer remainder. -/
theorem padZeros_eq_emod (len : Nat) : (padZeros len : Int) = (55 - (len : Int)) % 64 := by
  rw [padZeros]
  omega

/-- Every number of zero bytes that brings the length to 56 modulo 64 is at least `padZeros`. -/
theorem padZeros_le {len k : Nat} (h : (len + 1 + k) % 64 = 56) : padZeros len ≤ k := by
  rw [padZeros]
  omega

/-- The length field does not overflow for a message below `2^61` bytes. -/
theorem bitLength_toNat {len : Nat} (h : len < 2 ^ 61) : (BitVec.ofNat 64 (8 * len)).toNat = 8 * len := by
  rw [BitVec.toNat_ofNat, Nat.mod_eq_of_lt]
  omega

/-- Settles O37: the bytes behind the message are those of the padder, and `padZeros` of them are zero. -/
theorem paddingHasStatedShape : Obligations.PaddingHasStatedShape := by
  intro m hm
  have hlen := pad_length m
  have hk := padZeros_spec m.length
  refine ⟨hlen, pad_take m, ?_, fun i hlo hhi => ?_, pad_drop m, bitLength_toNat hm, padZeros m.length, ?_,
    padZeros_eq_emod m.length, ?_, fun k' => padZeros_le⟩
  · rw [pad_getD m m.length (by omega), padByte_marker]
  · rw [hlen] at hhi
    rw [pad_getD m i (by omega), padByte_between m _ hlo hhi]
  · rw [hlen, hk]
  · omega

/-! ## The schedule word of a round (R115, R123) -/

/-- In the first sixteen rounds the word offered is the window's own. -/
theorem Scratch.nextW_loaded (sc : Scratch) {t : Nat} (h : t < 16) : sc.nextW t = sc.window t := if_pos h

/-- Later the word offered is the recurrence on the window. -/
theorem Scratch.nextW_grown (sc : Scratch) {t : Nat} (h : 16 ≤ t) :
    sc.nextW t = scheduleWord (sc.window (t - 2)) (sc.window (t - 7)) (sc.window (t - 15)) (sc.window (t - 16)) :=
  if_neg h.not_gt

/-- Settles O39: the window holds the sixteen words before `W[t]`, among them the operands of the recurrence; in the
first sixteen rounds it holds `W[t]` itself. -/
theorem windowOffersSchedule : Obligations.WindowOffersSchedule := by
  intro sc t ht
  obtain ⟨hcount, -, hwin, -⟩ := sc.rounds_spec t ht.le
  refine ⟨?_, hcount⟩
  rcases Nat.lt_or_ge t 16 with hlo | hhi
  · rw [Scratch.nextW_loaded _ hlo, hwin t (by omega) (by omega)]
  · rw [Scratch.nextW_grown _ hhi, hwin (t - 2) (by omega) (by omega), hwin (t - 7) (by omega) (by omega),
      hwin (t - 15) (by omega) (by omega), hwin (t - 16) (by omega) (by omega), ← schedule_grown _ t hhi ht]

/-! ## Commands with one output buffer -/

/-- A completion after a write of one buffer keeps CTRL, the lengths, and every byte outside the buffer. -/
theorem State.setBuf_complete_frame (s : State) (b : Buf) (l : List Byte) (hl : l.length = b.size s.cfg) (ok : Bool) :
    Ended s ((s.setBuf b l).complete ok) ok 0 ∧ KeepsCtrl s ((s.setBuf b l).complete ok) ∧
      KeepsLengths s ((s.setBuf b l).complete ok) ∧ KeepsBytesOutside s ((s.setBuf b l).complete ok) [b] := by
  have ho : Outputs s (s.setBuf b l) := (Outputs.refl s).setBuf b l hl
  exact ⟨.complete ho ok, .finish ho ok errNone, ⟨rfl, rfl⟩, (s.setBuf_keepsBytes b l hl.le).finish ok errNone⟩

/-- Error entry with a fatal code after the wipe of one buffer: the buffer is zero, and CTRL, the lengths, and every
byte outside the buffer are kept (60_exceptions.md R228). -/
theorem State.wipe_raiseErr_frame (s : State) (b : Buf) {e : BitVec 4} (he : e = errKey ∨ e = errRng) :
    IsZero ((s.wipe b).raiseErr e) b ∧ Ended s ((s.wipe b).raiseErr e) false e ∧
      ((s.wipe b).raiseErr e).status.fatal = true ∧ KeepsCtrl s ((s.wipe b).raiseErr e) ∧
      KeepsLengths s ((s.wipe b).raiseErr e) ∧ KeepsBytesOutside s ((s.wipe b).raiseErr e) [b] := by
  have ho : Outputs s (s.wipe b) := (Outputs.refl s).wipe b
  have hbytes : KeepsBytesOutside s (s.wipe b) [b] :=
    (KeepsBytesOutside.refl s [b]).wipe b rfl (List.mem_singleton_self b)
  exact ⟨(IsZero.wipe_same s b).finish false e, .raiseErr ho e, (s.wipe b).raiseErr_fatal e he, .finish ho false e,
    ⟨rfl, rfl⟩, hbytes.finish false e⟩

/-! ## HASH (R122) -/

/-- HASH of a key that fits the buffer, an empty one too. -/
theorem exec_hash_ok (s : State) (h : s.keylen.toNat ≤ s.cfg.keyMax) :
    exec .hash s = .next ((s.setBuf .tag (sha256 s.keyBytes)).complete true) := by
  rw [exec_runOf, runOf, runHash_ok s (by simp [State.keyTooLong, h])]

/-- HASH of a key longer than the buffer. -/
theorem exec_hash_tooLong (s : State) (h : s.cfg.keyMax < s.keylen.toNat) :
    exec .hash s = .next ((s.wipe .tag).raiseErr errKey) := by
  rw [exec_runOf, runOf, runHash_bad s (by simp [State.keyTooLong, h])]

/-- Settles O17: HASH writes TAG alone and completes. -/
theorem hashWritesDigest : Obligations.HashWritesDigest := by
  intro s h
  exact ⟨_, exec_hash_ok s h, s.tag_setBuf_tag _ (sha256_length _),
    s.setBuf_complete_frame .tag (sha256 s.keyBytes) (sha256_length _) true⟩

/-- Settles O18: HASH wipes TAG and raises ERR_KEY, a fatal code. -/
theorem hashRefusesLongKeylen : Obligations.HashRefusesLongKeylen := by
  intro s h
  exact ⟨_, exec_hash_tooLong s h, s.wipe_raiseErr_frame .tag (.inl rfl)⟩

end Sys2Proof.Machine
end

section
/-!
PROOFS. The family of 41_hmac.md: the four blocks of an HMAC (R144), the command MAC (R146, R147), and the key bytes that
no keyed result depends on (R148).
-/

namespace Sys2Proof.Machine

/-! ## The four blocks of an HMAC (R144) -/

/-- The mask in the words of R142 and R143: each byte of the key block, exclusive or the repeated byte. -/
theorem mask_eq_map (p : Byte) {k0 : List Byte} (h : k0.length = 64) : mask p k0 = k0.map (· ^^^ p) := by
  apply List.ext_getElem (by simp [mask_length p k0 h, h])
  intro i _ _
  simp only [mask, xorBytes, List.getElem_zipWith, List.getElem_replicate, List.getElem_map]

/-- The padding of a message whose first block is full stands behind the rest of the message. -/
theorem pad_block_append (b x : List Byte) {n : Nat} (hn : b.length + x.length = n) :
    pad (b ++ x) = b ++ (x ++ [0x80] ++ zeros (padZeros n) ++ be64 (BitVec.ofNat 64 (8 * n))) := by
  simp only [pad, List.length_append, hn, List.append_assoc]

/-- The inner message: 80 bytes. -/
theorem pad_block_nonce {b r : List Byte} (hb : b.length = 64) (hr : r.length = 16) :
    pad (b ++ r) = b ++ (r ++ [0x80] ++ zeros 39 ++ [0, 0, 0, 0, 0, 0, 0x02, 0x80]) :=
  pad_block_append b r (n := 80) (by rw [hb, hr])

/-- The outer message: 96 bytes. -/
theorem pad_block_hash {b ih : List Byte} (hb : b.length = 64) (hi : ih.length = 32) :
    pad (b ++ ih) = b ++ (ih ++ [0x80] ++ zeros 23 ++ [0, 0, 0, 0, 0, 0, 0x03, 0x00]) :=
  pad_block_append b ih (n := 96) (by rw [hb, hi])

/-- A message whose padding is two blocks is hashed by two compressions from `IV` (R119). -/
theorem sha256_two_blocks {m b0 b1 : List Byte} (h : pad m = b0 ++ b1) (h0 : b0.length = 64) (h1 : b1.length = 64) :
    sha256 m = digest (compress (compress iv b0) b1) := by
  have hfirst : blockAt (b0 ++ b1) 0 = b0 := List.take_left' h0
  have hsecond : blockAt (b0 ++ b1) 1 = b1 := by
    rw [blockAt, List.drop_left' h0, List.take_of_length_le h1.le]
  have hcount : (b0 ++ b1).length / 64 = 2 := by rw [List.length_append, h0, h1]
  rw [sha256, h, hcount, chain_succ, chain_succ, hfirst, hsecond]
  rfl

/-- Settles O38: each message is one full block and a rest, so its padding is two blocks, and the hash compresses these. -/
theorem hmacCompressesFourBlocks : Obligations.HmacCompressesFourBlocks := by
  intro k0 r ih hk hr hi
  have hlen (p : Byte) : (k0.map (· ^^^ p)).length = 64 := by rw [List.length_map, hk]
  have hinner := pad_block_nonce (hlen ipad) hr
  have houter := pad_block_hash (hlen opad) hi
  refine ⟨hinner, houter, ?_, ?_⟩
  · rw [innerHash, mask_eq_map ipad hk]
    exact sha256_two_blocks hinner (hlen ipad) (by simp [hr])
  · rw [outerHash, mask_eq_map opad hk]
    exact sha256_two_blocks houter (hlen opad) (by simp [hi])

/-! ## MAC (R146, R147) -/

/-- MAC under a key of a legal length. -/
theorem exec_mac_ok {s : State} (h : s.keyOk = true) :
    exec .mac s = .next ((s.setBuf .tag (hmac s.keyBytes s.nonce)).complete true) := by
  rw [exec_runOf, runOf, runMac_ok s h]

/-- MAC with KEYLEN out of range. -/
theorem exec_mac_badKey {s : State} (h : s.keyOk = false) : exec .mac s = .next ((s.wipe .tag).raiseErr errKey) := by
  rw [exec_runOf, runOf, runMac_bad s h]

/-- Settles O15: MAC writes TAG alone and completes. -/
theorem macWritesTag : Obligations.MacWritesTag := by
  intro s h1 h2
  exact ⟨_, exec_mac_ok (State.keyOk_true h1 h2), s.tag_setBuf_tag _ (hmac_length _ _),
    s.setBuf_complete_frame .tag (hmac s.keyBytes s.nonce) (hmac_length _ _) true⟩

/-- Settles O16: MAC wipes TAG and raises ERR_KEY, a fatal code. -/
theorem macRefusesBadKeylen : Obligations.MacRefusesBadKeylen := by
  intro s h
  exact ⟨_, exec_mac_badKey (State.keyOk_false h), s.wipe_raiseErr_frame .tag (.inl rfl)⟩

/-! ## Trailing zero bytes of a key (R148) -/

/-- A key that fits the block is padded with zero bytes, so zero bytes at its end change nothing (R141). -/
theorem prepareKey_append_zeros {k : List Byte} {n : Nat} (h : k.length + n ≤ 64) :
    prepareKey (k ++ zeros n) = prepareKey k := by
  have hlen : (k ++ zeros n).length = k.length + n := by simp
  have hfill : zeros n ++ zeros (64 - (k.length + n)) = zeros (64 - k.length) := by
    rw [zeros, zeros, zeros, List.replicate_append_replicate]
    congr 1
    omega
  rw [prepareKey, prepareKey, if_neg (by omega), if_neg (by omega), List.append_assoc, hlen, hfill]

/-! ## Bytes above the key (R148)

The key buffer is the last of the five, so the bytes below `KEY[KEYLEN]` are those of the other buffers and of the key. -/

/-- `u` is `s` but for bytes at and above `KEY[KEYLEN]`, the scratch registers, and what no command reads. -/
structure SameToKeyEnd (s u : State) : Prop where
  status : u.status = s.status
  keylen : u.keylen = s.keylen
  toklen : u.toklen = s.toklen
  rngq : u.rngq = s.rngq
  cfg : u.cfg = s.cfg
  byte : ∀ a < Buf.key.base + s.keylen.toNat, u.mem.read a = s.mem.read a

namespace SameToKeyEnd

/-- A byte written at or above `KEY[KEYLEN]` is such a change. -/
theorem write (s : State) {a : Nat} (v : Byte) (h : Buf.key.base + s.keylen.toNat ≤ a) :
    SameToKeyEnd s { s with mem := s.mem.write a v } where
  status := rfl
  keylen := rfl
  toklen := rfl
  rngq := rfl
  cfg := rfl
  byte b hb := by rw [Memory.read_write, if_neg (by omega)]

variable {s u : State}

/-! What a command reads is the same in both. -/

theorem buf (h : SameToKeyEnd s u) {b : Buf} (hb : b ≠ .key) : u.buf b = s.buf b := by
  have hbelow : b.base + b.size s.cfg ≤ Buf.key.base := by
    cases b with
    | key => exact absurd rfl hb
    | nonce | tag | dec | token => simp [Buf.base, Buf.size]
  rw [State.buf, State.buf, h.cfg]
  exact Memory.readBytes_congr _ _ _ _ fun i hi => h.byte _ (by omega)

theorem nonce (h : SameToKeyEnd s u) : u.nonce = s.nonce := h.buf (by decide)

theorem tag (h : SameToKeyEnd s u) : u.tag = s.tag := h.buf (by decide)

theorem dec (h : SameToKeyEnd s u) : u.dec = s.dec := h.buf (by decide)

theorem token (h : SameToKeyEnd s u) : u.token = s.token := h.buf (by decide)

theorem btok (h : SameToKeyEnd s u) : u.btok = s.btok := by rw [State.btok, State.btok, h.nonce, h.tag]

theorem decoded (h : SameToKeyEnd s u) : u.decoded = s.decoded := by
  rw [State.decoded, State.decoded, h.cfg, h.token, h.toklen]

theorem keyBytes (h : SameToKeyEnd s u) : u.keyBytes = s.keyBytes := by
  rw [State.keyBytes, State.keyBytes, h.keylen]
  exact Memory.readBytes_congr _ _ _ _ fun i hi => h.byte _ (by omega)

theorem keyOk (h : SameToKeyEnd s u) : u.keyOk = s.keyOk := by rw [State.keyOk, State.keyOk, h.keylen, h.cfg]

theorem keyTooLong (h : SameToKeyEnd s u) : u.keyTooLong = s.keyTooLong := by
  rw [State.keyTooLong, State.keyTooLong, h.keylen, h.cfg]

/-! The same write in both keeps them so. -/

theorem setBuf (h : SameToKeyEnd s u) (b : Buf) (l : List Byte) : SameToKeyEnd (s.setBuf b l) (u.setBuf b l) where
  status := h.status
  keylen := h.keylen
  toklen := h.toklen
  rngq := h.rngq
  cfg := h.cfg
  byte a ha := by rw [State.read_setBuf, State.read_setBuf, h.byte a ha]

theorem wipe (h : SameToKeyEnd s u) (b : Buf) : SameToKeyEnd (s.wipe b) (u.wipe b) := by
  rw [State.wipe, State.wipe, h.cfg]
  exact h.setBuf b _

theorem setToklen (h : SameToKeyEnd s u) (v : Word) : SameToKeyEnd (s.setToklen v) (u.setToklen v) :=
  ⟨h.status, h.keylen, rfl, h.rngq, h.cfg, h.byte⟩

theorem finish (h : SameToKeyEnd s u) (ok : Bool) (e : BitVec 4) : SameToKeyEnd (s.finish ok e) (u.finish ok e) :=
  ⟨congrArg (·.completed ok e) h.status, h.keylen, h.toklen, rfl, h.cfg, h.byte⟩

theorem hexenc (h : SameToKeyEnd s u) : SameToKeyEnd s.hexenc u.hexenc := by
  rw [State.hexenc, State.hexenc, h.btok]
  exact (h.setBuf .token _).setToklen 96

theorem wipeGen (h : SameToKeyEnd s u) : SameToKeyEnd s.wipeGen u.wipeGen :=
  (((h.wipe .nonce).wipe .tag).wipe .token).setToklen 0

theorem wipeVfy (h : SameToKeyEnd s u) : SameToKeyEnd s.wipeVfy u.wipeVfy :=
  ((h.wipe .nonce).wipe .tag).wipe .dec

theorem loadCandidate (h : SameToKeyEnd s u) (x : List Byte) :
    SameToKeyEnd (s.loadCandidate x) (u.loadCandidate x) := by
  have hdec := h.setBuf .dec x
  rw [State.loadCandidate, State.loadCandidate, hdec.dec]
  exact hdec.setBuf .nonce _

/-! The keyed commands, by their outcomes. -/

theorem runMac (h : SameToKeyEnd s u) : SameToKeyEnd (runMac s).st (runMac u).st := by
  cases hk : s.keyOk
  · rw [runMac_bad s hk, runMac_bad u (h.keyOk.trans hk)]
    exact (h.wipe .tag).finish false errKey
  · rw [runMac_ok s hk, runMac_ok u (h.keyOk.trans hk), h.keyBytes, h.nonce]
    exact (h.setBuf .tag _).finish true errNone

theorem runHash (h : SameToKeyEnd s u) : SameToKeyEnd (runHash s).st (runHash u).st := by
  cases hk : s.keyTooLong
  · rw [runHash_ok s hk, runHash_ok u (h.keyTooLong.trans hk), h.keyBytes]
    exact (h.setBuf .tag _).finish true errNone
  · rw [runHash_bad s hk, runHash_bad u (h.keyTooLong.trans hk)]
    exact (h.wipe .tag).finish false errKey

theorem genOutputs (h : SameToKeyEnd s u) (r : List Byte) : SameToKeyEnd (genOutputs s r) (genOutputs u r) := by
  rw [Machine.genOutputs, Machine.genOutputs, h.keyBytes]
  exact ((h.setBuf .nonce r).setBuf .tag _).hexenc

theorem runGen (h : SameToKeyEnd s u) : SameToKeyEnd (runGen s).st (runGen u).st := by
  rcases hq : s.rngq with _ | _ | ⟨⟨r⟩ | _⟩
  case none | pending =>
    rw [runGen_wait s (by rw [hq]; rfl), runGen_wait u (by rw [h.rngq, hq]; rfl)]
    exact h
  case ans.ok =>
    cases hk : s.keyOk
    · rw [runGen_badKey s r hq hk, runGen_badKey u r (h.rngq.trans hq) (h.keyOk.trans hk)]
      exact (h.setBuf .nonce _).wipeGen.finish false errKey
    · rw [runGen_ok s r hq hk, runGen_ok u r (h.rngq.trans hq) (h.keyOk.trans hk)]
      exact (h.genOutputs _).finish true errNone
  case ans.fail =>
    rw [runGen_fail s hq, runGen_fail u (h.rngq.trans hq)]
    exact h.wipeGen.finish false errRng

theorem vfyCandidate (h : SameToKeyEnd s u) : SameToKeyEnd (vfyCandidate s) (vfyCandidate u) := by
  rw [Machine.vfyCandidate, Machine.vfyCandidate, h.decoded, h.keyBytes]
  exact (h.loadCandidate _).setBuf .tag _

theorem runVfy (h : SameToKeyEnd s u) : SameToKeyEnd (runVfy s).st (runVfy u).st := by
  cases hv : s.decoded.2
  · rw [runVfy_malformed s hv, runVfy_malformed u (by rw [h.decoded, hv])]
    exact h.wipeVfy.finish false errNone
  · have hv' : u.decoded.2 = true := by rw [h.decoded, hv]
    cases hk : s.keyOk
    · rw [runVfy_badKey s hv hk, runVfy_badKey u hv' (h.keyOk.trans hk), h.decoded]
      exact (h.loadCandidate _).wipeVfy.finish false errKey
    · rw [runVfy_full s hv hk, runVfy_full u hv' (h.keyOk.trans hk), h.decoded, h.keyBytes]
      exact h.vfyCandidate.wipeVfy.finish _ errNone

/-- No keyed command lets a byte at or above `KEY[KEYLEN]` through. -/
theorem runOf (h : SameToKeyEnd s u) {i : Instr} (hi : i = .mac ∨ i = .hash ∨ i = .gen ∨ i = .vfy) :
    SameToKeyEnd (runOf i s).st (runOf i u).st := by
  rcases hi with rfl | rfl | rfl | rfl
  · exact h.runMac
  · exact h.runHash
  · exact h.runGen
  · exact h.runVfy

end SameToKeyEnd

/-- Settles O36: the zero bytes are those the key is padded with anyway, and a keyed command reads no byte at or above
`KEY[KEYLEN]`. -/
theorem keyTailDoesNotMatter : Obligations.KeyTailDoesNotMatter := by
  refine ⟨fun k r n h => ?_, fun s t t' i a v hi ha ht ht' => ?_⟩
  · rw [hmac, hmac, prepareKey_append_zeros h]
  · rw [exec_runOf, Host.Outcome.next.injEq] at ht ht'
    have hsame := (SameToKeyEnd.write s v ha).runOf hi
    rw [ht, ht'] at hsame
    exact ⟨hsame.tag.symm, hsame.token.symm, hsame.status.symm⟩

end Sys2Proof.Machine
end

section
/-!
PROOFS. The family of 42_compare.md: the 48-lane gate (R155), its reading in VFY (R158), and the command CMP (R160).
-/

namespace Sys2Proof.Machine

/-! ## The gate (R155) -/

/-- An OR-accumulator is zero when it starts at zero and every byte it takes in is zero. -/
theorem foldl_or_eq_zero_iff (l : List Byte) (acc : Byte) :
    l.foldl (· ||| ·) acc = 0 ↔ acc = 0 ∧ ∀ d ∈ l, d = 0 := by
  induction l generalizing acc with
  | nil => simp
  | cons d l ih =>
    rw [List.foldl_cons, ih, List.forall_mem_cons, ← and_assoc]
    exact and_congr_left' BitVec.or_eq_zero_iff

/-- Every lane's exclusive or is zero exactly when the operands are equal. -/
theorem xorBytes_all_zero_iff {a b : List Byte} (h : a.length = b.length) : (∀ d ∈ xorBytes a b, d = 0) ↔ a = b := by
  induction a generalizing b with
  | nil => simp [xorBytes, List.length_eq_zero_iff.1 h.symm]
  | cons x a ih =>
    obtain _ | ⟨y, b⟩ := b
    · cases h
    · have htail : (∀ d ∈ xorBytes a b, d = 0) ↔ a = b := ih (Nat.succ.inj h)
      rw [xorBytes, List.zipWith_cons_cons, List.forall_mem_cons, ← xorBytes, htail, List.cons.injEq]
      exact and_congr_left' BitVec.xor_eq_zero_iff

/-- The gate is equality of operands of one length; both of its operands have 48 bytes (R159). -/
theorem cteq48_iff_eq {a b : List Byte} (h : a.length = b.length) : cteq48 a b = true ↔ a = b := by
  rw [cteq48, beq_iff_eq, lanesOr, foldl_or_eq_zero_iff, xorBytes_all_zero_iff h, and_iff_right rfl]

/-- Operands of `n` bytes are equal exactly when they agree in every lane. -/
theorem eq_iff_forall_lane {a b : List Byte} {n : Nat} (ha : a.length = n) (hb : b.length = n) :
    a = b ↔ ∀ i < n, a.getD i 0 = b.getD i 0 := by
  refine ⟨fun h _ _ => by rw [h], fun h => List.ext_getElem (ha.trans hb.symm) fun i hia hib => ?_⟩
  rw [← List.getD_eq_getElem a 0 hia, ← List.getD_eq_getElem b 0 hib]
  exact h i (ha ▸ hia)

/-- Settles O40: the gate is equality of its operands, and these are equal lane by lane. -/
theorem comparatorIsEquality : Obligations.ComparatorIsEquality := by
  intro a b ha hb
  rw [cteq48_iff_eq (ha.trans hb.symm), eq_iff_forall_lane ha hb]

/-! ## The gate on its two wired operands (R156) -/

/-- The comparator answers whether DEC is `NONCE ‖ TAG`. -/
theorem State.cteq48_dec_btok_iff (s : State) : cteq48 s.dec s.btok = true ↔ s.dec = s.nonce ++ s.tag :=
  cteq48_iff_eq (s.dec_length.trans s.btok_length.symm)

/-- Settles O41: DEC's first 16 bytes are NONCE, so they cancel on both sides. -/
theorem verifyComparesTagsOnly : Obligations.VerifyComparesTagsOnly := by
  intro s h
  calc cteq48 s.dec s.btok = true
      ↔ s.dec = s.nonce ++ s.tag := s.cteq48_dec_btok_iff
    _ ↔ s.dec.take 16 ++ s.dec.drop 16 = s.dec.take 16 ++ s.tag := by rw [List.take_append_drop, h]
    _ ↔ s.dec.drop 16 = s.tag := List.append_right_inj _

/-! ## CMP (R160) -/

/-- CMP completes with the verdict on the operands as they stand. -/
theorem exec_cmp (s : State) : exec .cmp s = .next (s.complete (decide (s.dec = s.nonce ++ s.tag))) := by
  have hverdict : cteq48 s.dec s.btok = decide (s.dec = s.nonce ++ s.tag) := by
    rw [Bool.eq_iff_iff, s.cteq48_dec_btok_iff, decide_eq_true_iff]
  rw [exec_runOf, runOf, runCmp_eq, hverdict]

/-- Settles O23: CMP is a completion with the gate's verdict, and a completion writes STATUS alone. -/
theorem cmpAnswersEquality : Obligations.CmpAnswersEquality := by
  refine ⟨decode_encode .cmp, fun s => ⟨_, exec_cmp s, ?_, ?_, ⟨rfl, rfl⟩, rfl⟩⟩
  · exact .complete (.refl s) _
  · exact .finish (.refl s) _ errNone

end Sys2Proof.Machine
end

section
/-!
PROOFS. The family of 43_rng.md: a source that stays silent (R169), the deliveries on the port (R165, R170), and the
command DRAW (R171).
-/

namespace Sys2Proof.Machine

/-! ## An engine that is not enabled (R169, R241) -/

/-- No completion step is enabled while no command runs (R211). -/
theorem State.engineReady_of_not_busy {s : State} (h : s.status.busy = false) : s.engineReady = false := by
  simp [State.engineReady, h]

/-- No completion step is enabled while the request is pending (R211). -/
theorem State.engineReady_of_pending {s : State} (hph : s.seq.ph = .rngwait) (hq : s.rngq = .pending) :
    s.engineReady = false := by
  simp [State.engineReady, hph, hq, RngQ.kind]

/-- With no move listed, an engine that is not enabled runs on the spot. -/
theorem run_withEnv_nil_stays {s : State} (h : s.engineReady = false) (n : Nat) :
    Host.Core.run core n (s.withEnv []) = .next (s.withEnv []) := by
  have hstep : step (s.withEnv []) = .next (s.withEnv []) := by
    rw [step_nil, engineStep_stays _ ((s.withEnv_engineReady []).trans h)]
  exact run_stays _ hstep n

/-- Settles O9: in both states the engine's completion step is not enabled, and a step of that engine changes nothing. -/
theorem silentRngHangsCommand : Obligations.SilentRngHangsCommand := fun _ n =>
  ⟨fun hb => run_withEnv_nil_stays (State.engineReady_of_not_busy hb) n,
    fun hb hph hq => ⟨run_withEnv_nil_stays (State.engineReady_of_pending hph hq) n, hb⟩⟩

/-! ## DRAW (R171) -/

/-- DRAW with an answer of 16 bytes. -/
theorem exec_draw_ok {s : State} {r : Vector Byte 16} (h : s.rngq = .ans (.ok r)) :
    exec .draw s = .next ((s.setBuf .nonce r.toList).complete true) := by
  rw [exec_runOf, runOf, runDraw_ok s r h]

/-- DRAW with a failed source. -/
theorem exec_draw_fail {s : State} (h : s.rngq = .ans .fail) :
    exec .draw s = .next ((s.wipe .nonce).raiseErr errRng) := by
  rw [exec_runOf, runOf, runDraw_fail s h]

/-- Settles O19: DRAW writes NONCE alone and completes. -/
theorem drawStoresAnswer : Obligations.DrawStoresAnswer := fun s r h =>
  ⟨_, exec_draw_ok h, s.nonce_setBuf_nonce _ r.length_toList,
    s.setBuf_complete_frame .nonce r.toList r.length_toList true⟩

/-- Settles O20: DRAW wipes NONCE and raises ERR_RNG, a fatal code. -/
theorem drawFailureIsFatal : Obligations.DrawFailureIsFatal := fun s h =>
  ⟨_, exec_draw_fail h, s.wipe_raiseErr_frame .nonce (.inr rfl)⟩

/-! ## The deliveries (R165, R170) -/

/-- An error indication is `fail`, whatever is delivered with it. -/
theorem RngDelivery.answer_of_error (bytes : List Byte) (data : BitVec 128) :
    (RngDelivery.serial bytes true).answer = .fail ∧ (RngDelivery.parallel data true).answer = .fail := ⟨rfl, rfl⟩

/-- Fewer than 16 bytes are `fail`. -/
theorem RngDelivery.answer_serial_short {bytes : List Byte} (h : bytes.length < 16) :
    (RngDelivery.serial bytes false).answer = .fail := by
  simp [RngDelivery.answer, h]

/-- 16 bytes are the answer's bytes. -/
theorem RngDelivery.answer_serial {bytes : List Byte} (h : bytes.length = 16) :
    (RngDelivery.serial bytes false).answer = .ok (toRegister 16 bytes) := by
  simp [RngDelivery.answer, h]

/-- A 128-bit value is the answer of its 16 bytes, the most significant first. -/
theorem RngDelivery.answer_parallel (data : BitVec 128) :
    (RngDelivery.parallel data false).answer = .ok (toRegister 16 ((List.range 16).map (parallelByte data))) := rfl

/-- Byte `i` of the answer is byte `i` of the 128-bit value, counted from the most significant. -/
theorem toRegister_parallelByte_getD (data : BitVec 128) {i : Nat} (h : i < 16) :
    (toRegister 16 ((List.range 16).map (parallelByte data))).toList.getD i 0 = parallelByte data i := by
  rw [toRegister_toList 16 _ (by simp)]
  simp [h]

/-- NONCE's bytes stand in memory from its offset on (20_memory.md R62). -/
theorem State.nonce_getD (s : State) {i : Nat} (h : i < 16) : s.nonce.getD i 0 = s.mem.read (Buf.nonce.base + i) :=
  s.mem.readBytes_getD Buf.nonce.base 16 i h

/-- Settles O43: each form of delivery has its lemma, and `drawStoresAnswer` gives the NONCE that holds the answer. -/
theorem rngBytesKeepTheirOrder : Obligations.RngBytesKeepTheirOrder := by
  refine ⟨fun data => ?_, fun bytes h => ?_, RngDelivery.answer_of_error, fun bytes h => ?_, fun s t r hr ht i hi => ?_⟩
  · exact ⟨_, RngDelivery.answer_parallel data, fun i hi => toRegister_parallelByte_getD data hi⟩
  · exact ⟨_, RngDelivery.answer_serial h, toRegister_toList 16 bytes h⟩
  · exact RngDelivery.answer_serial_short h
  · obtain ⟨u, hu, hnonce, -⟩ := drawStoresAnswer s r hr
    obtain rfl : u = t := by rwa [hu, Host.Outcome.next.injEq] at ht
    rw [← hnonce, u.nonce_getD hi]
    rfl

end Sys2Proof.Machine
end

section
/-!
PROOFS. The family of 44_hex.md: the two tables (R176, R178), the encoder and the decoder lane by lane (R177, R179),
their round trips (R182), and the commands HEXE (R183) and HEXD (R184).
-/

namespace Sys2Proof.Machine

/-! ## Nibbles (R175) -/

/-- A byte's nibbles spell the byte. -/
theorem hiNibble_append_loNibble (b : Byte) : hiNibble b ++ loNibble b = b := BitVec.extractLsb'_append_extractLsb'

/-- The high nibble of a byte spelt from two nibbles. -/
theorem hiNibble_append (h l : BitVec 4) : hiNibble (h ++ l) = h := BitVec.extractLsb'_append_eq_left

/-- The low nibble of a byte spelt from two nibbles. -/
theorem loNibble_append (h l : BitVec 4) : loNibble (h ++ l) = l := BitVec.extractLsb'_append_eq_right

/-! ## The tables (R176, R178) -/

/-- The case folding of R182: `A` to `F` become lowercase, every other byte stays. -/
def hexLower (c : Byte) : Byte := if 0x41 ≤ c.toNat ∧ c.toNat ≤ 0x46 then c + 0x20 else c

/-- `ENC` as a number, without wraparound. -/
theorem hexChar_toNat (n : BitVec 4) : (hexChar n).toNat = if n.toNat ≤ 9 then 0x30 + n.toNat else 0x57 + n.toNat := by
  have := n.isLt
  rw [hexChar]
  split <;> bv_omega

/-- The folded character as a number, without wraparound. -/
theorem hexLower_toNat (c : Byte) :
    (hexLower c).toNat = if 0x41 ≤ c.toNat ∧ c.toNat ≤ 0x46 then c.toNat + 0x20 else c.toNat := by
  rw [hexLower]
  split <;> bv_omega

/-- `DECTAB` undoes `ENC`, whichever letters it accepts. -/
theorem hexValue_hexChar (u : Bool) (n : BitVec 4) : hexValue u (hexChar n) = (n, true) := by
  have := n.isLt
  rw [hexValue, hexChar_toNat]
  by_cases h : n.toNat ≤ 9
  · rw [if_pos h, if_pos (by omega), Nat.add_sub_cancel_left, BitVec.ofNat_toNat, BitVec.setWidth_eq]
  · rw [if_neg h, if_neg (by omega), if_pos (by omega),
      show 0x57 + n.toNat - 0x61 + 10 = n.toNat by omega, BitVec.ofNat_toNat, BitVec.setWidth_eq]

/-- The characters that `DECTAB` accepts, each with its number: a decimal digit, a lowercase letter digit, or an
uppercase one where these are accepted. -/
theorem hexValue_valid_cases {u : Bool} {c : Byte} (h : (hexValue u c).2 = true) :
    (0x30 ≤ c.toNat ∧ c.toNat ≤ 0x39 ∧ (hexValue u c).1.toNat = c.toNat - 0x30) ∨
      (0x61 ≤ c.toNat ∧ c.toNat ≤ 0x66 ∧ (hexValue u c).1.toNat = c.toNat - 0x61 + 10) ∨
      (u = true ∧ 0x41 ≤ c.toNat ∧ c.toNat ≤ 0x46 ∧ (hexValue u c).1.toNat = c.toNat - 0x41 + 10) := by
  unfold hexValue at h ⊢
  split_ifs at h ⊢ with hdigit hlower hupper
  · exact .inl ⟨hdigit.1, hdigit.2, (BitVec.toNat_ofNat _ _).trans (Nat.mod_eq_of_lt (by omega))⟩
  · exact .inr (.inl ⟨hlower.1, hlower.2, (BitVec.toNat_ofNat _ _).trans (Nat.mod_eq_of_lt (by omega))⟩)
  · exact .inr (.inr ⟨hupper.1, hupper.2.1, hupper.2.2, (BitVec.toNat_ofNat _ _).trans (Nat.mod_eq_of_lt (by omega))⟩)

/-- `ENC` undoes `DECTAB` on the hex digits, up to the case of letters. -/
theorem hexChar_hexValue {u : Bool} {c : Byte} (h : (hexValue u c).2 = true) :
    hexChar (hexValue u c).1 = hexLower c := by
  apply BitVec.eq_of_toNat_eq
  rw [hexChar_toNat, hexLower_toNat]
  obtain ⟨hlo, hhi, hn⟩ | ⟨hlo, hhi, hn⟩ | ⟨-, hlo, hhi, hn⟩ := hexValue_valid_cases h
  · rw [if_pos (by omega), if_neg (by omega)]
    omega
  · rw [if_neg (by omega), if_neg (by omega)]
    omega
  · rw [if_neg (by omega), if_pos ⟨hlo, hhi⟩]
    omega

/-- A decoder without uppercase digits accepts no character that the folding changes. -/
theorem hexLower_of_valid {c : Byte} (h : (hexValue false c).2 = true) : hexLower c = c := by
  refine if_neg fun hupper => ?_
  obtain hdigit | hlower | hother := hexValue_valid_cases h
  · omega
  · omega
  · cases hother.1

/-- With uppercase digits `DECTAB` does not see the case of a letter digit. -/
theorem hexValue_hexLower (c : Byte) : hexValue true (hexLower c) = hexValue true c := by
  by_cases hupper : 0x41 ≤ c.toNat ∧ c.toNat ≤ 0x46
  · rw [hexValue, hexValue, hexLower_toNat, if_pos hupper, if_neg (by omega), if_pos (by omega), if_neg (by omega),
      if_neg (by omega), if_pos ⟨rfl, hupper⟩, show c.toNat + 0x20 - 0x61 = c.toNat - 0x41 by omega]
  · rw [hexLower, if_neg hupper]

/-- The folding character by character; `0`, read past the end, is no letter. -/
theorem map_hexLower_getD (y : List Byte) (j : Nat) : (y.map hexLower).getD j 0 = hexLower (y.getD j 0) :=
  List.getD_map y 0 hexLower

/-! ## The encoder and the decoder, lane by lane (R177, R179) -/

/-- Characters `2i` and `2i+1` of the encoding are those of byte `i`, the high nibble's first. -/
theorem hexEncode_getD {x : List Byte} {i : Nat} (h : i < x.length) :
    (hexEncode x).getD (2 * i) 0 = hexChar (hiNibble (x.getD i 0)) ∧
      (hexEncode x).getD (2 * i + 1) 0 = hexChar (loNibble (x.getD i 0)) := by
  induction x generalizing i with
  | nil => cases h
  | cons b x ih =>
    cases i with
    | zero => exact ⟨rfl, rfl⟩
    | succ i => exact ih (Nat.lt_of_succ_lt_succ h)

/-- Byte `i` of the decoding is made of characters `2i` and `2i+1`. -/
theorem hexDecode_getD (u : Bool) (y : List Byte) {i : Nat} (h : i < 48) :
    (hexDecode u y).getD i 0 = hexByte u (y.getD (2 * i) 0) (y.getD (2 * i + 1) 0) := by
  simp [hexDecode, h]

/-- The structural verdict of R179. -/
theorem hexdec96_valid_iff (u : Bool) (y : List Byte) (n : Word) :
    (hexdec96 u y n).2 = true ↔ n = 96 ∧ ∀ c ∈ y, (hexValue u c).2 = true := by
  simp [hexdec96, allHex]

/-- Every character of an encoding is a hex digit. -/
theorem allHex_hexEncode (u : Bool) (x : List Byte) : allHex u (hexEncode x) = true := by
  simp [allHex, hexEncode, hexPair, hexValue_hexChar]

/-- Arrays of `n` pairs are equal when they agree pair by pair. -/
theorem eq_of_forall_pair {a b : List Byte} {n : Nat} (ha : a.length = 2 * n) (hb : b.length = 2 * n)
    (h : ∀ i < n, a.getD (2 * i) 0 = b.getD (2 * i) 0 ∧ a.getD (2 * i + 1) 0 = b.getD (2 * i + 1) 0) : a = b := by
  refine (eq_iff_forall_lane ha hb).2 fun j hj => ?_
  obtain ⟨heven, hodd⟩ := h (j / 2) (by omega)
  obtain hj0 | hj1 := Nat.mod_two_eq_zero_or_one j
  · rwa [show 2 * (j / 2) = j by omega] at heven
  · rwa [show 2 * (j / 2) + 1 = j by omega] at hodd

/-! ## The round trips (R182) -/

/-- The decoder undoes the encoder. -/
theorem hexDecode_hexEncode (u : Bool) {x : List Byte} (h : x.length = 48) : hexDecode u (hexEncode x) = x := by
  refine (eq_iff_forall_lane (hexDecode_length u _) h).2 fun i hi => ?_
  obtain ⟨hhi, hlo⟩ := hexEncode_getD (h ▸ hi)
  rw [hexDecode_getD u _ hi, hhi, hlo, hexByte, hexValue_hexChar, hexValue_hexChar, hiNibble_append_loNibble]

/-- The encoder undoes the decoder on 96 hex digits, up to the case of letters. -/
theorem hexEncode_hexDecode {u : Bool} {y : List Byte} (hlen : y.length = 96)
    (hvalid : ∀ c ∈ y, (hexValue u c).2 = true) : hexEncode (hexDecode u y) = y.map hexLower := by
  have hchar (j : Nat) (hj : j < 96) : hexChar (hexValue u (y.getD j 0)).1 = (y.map hexLower).getD j 0 := by
    have hmem : y.getD j 0 ∈ y := by
      rw [List.getD_eq_getElem y 0 (hlen ▸ hj)]
      exact List.getElem_mem _
    rw [map_hexLower_getD, hexChar_hexValue (hvalid _ hmem)]
  refine eq_of_forall_pair (n := 48) (by simp) (by simpa using hlen) fun i hi => ?_
  obtain ⟨hhi, hlo⟩ := hexEncode_getD (x := hexDecode u y) (i := i) (by simpa using hi)
  rw [hhi, hlo, hexDecode_getD u y hi, hexByte, hiNibble_append, loNibble_append]
  exact ⟨hchar _ (by omega), hchar _ (by omega)⟩

/-- Without uppercase digits a token of hex digits is its own folding. -/
theorem map_hexLower_of_valid {y : List Byte} (h : ∀ c ∈ y, (hexValue false c).2 = true) : y.map hexLower = y :=
  (List.map_congr_left fun c hc => hexLower_of_valid (h c hc)).trans (List.map_id' y)

/-- With uppercase digits the decoder sees the folding of a token alone. -/
theorem hexdec96_map_hexLower (y : List Byte) (n : Word) : hexdec96 true (y.map hexLower) n = hexdec96 true y n := by
  simp only [hexdec96, hexDecode, hexByte, allHex, map_hexLower_getD, hexValue_hexLower, List.all_map,
    Function.comp_def]

/-- Settles O42: each direction is its lemma; without uppercase digits the folding changes no valid token, and tokens
with one folding decode as that folding does. -/
theorem hexRoundTrips : Obligations.HexRoundTrips := by
  refine ⟨fun u x hx => ?_, fun x y hy h => ?_, fun x y hy h => ?_, fun y y' _ _ h => ?_⟩
  · rw [hexdec96, hexDecode_hexEncode u hx, allHex_hexEncode]
    rfl
  · obtain ⟨rfl, hv⟩ := Prod.mk.inj h
    obtain ⟨-, hvalid⟩ := (hexdec96_valid_iff false y 96).1 hv
    rw [hexEncode_hexDecode hy hvalid, map_hexLower_of_valid hvalid]
  · obtain ⟨rfl, hv⟩ := Prod.mk.inj h
    exact hexEncode_hexDecode hy ((hexdec96_valid_iff true y 96).1 hv).2
  · calc hexdec96 true y 96
        = hexdec96 true (y.map hexLower) 96 := (hexdec96_map_hexLower y 96).symm
      _ = hexdec96 true (y'.map hexLower) 96 := congrArg (hexdec96 true · 96) h
      _ = hexdec96 true y' 96 := hexdec96_map_hexLower y' 96

/-! ## HEXE (R183) -/

/-- HEXE encodes into TOKEN and completes. -/
theorem exec_hexe (s : State) : exec .hexe s = .next (s.hexenc.complete true) := by
  rw [exec_runOf, runOf, runHexe_eq]

/-- The encoder's label writes TOKEN and no byte outside it. -/
theorem State.hexenc_keepsBytes (s : State) : KeepsBytesOutside s s.hexenc [.token] :=
  (s.setBuf_keepsBytes .token (hexEncode s.btok) (by simp [State.btok_length, Buf.size])).setToklen 96

/-- Settles O21: TOKEN holds the encoding of BTOK, read lane by lane, and the encoder writes TOKEN and TOKLEN alone. -/
theorem hexeWritesToken : Obligations.HexeWritesToken := by
  refine ⟨decode_encode .hexe, fun s => ⟨_, exec_hexe s, fun i hi => ?_, rfl, rfl, ?_, ?_, ?_⟩⟩
  · rw [State.complete_token, State.hexenc_token]
    exact hexEncode_getD (s.btok_length.symm ▸ hi)
  · exact .complete (Outputs.refl s).hexenc true
  · exact .finish (Outputs.refl s).hexenc true errNone
  · exact s.hexenc_keepsBytes.finish true errNone

/-! ## HEXD (R184) -/

/-- HEXD writes the decoded bytes into DEC and completes with the structural verdict. -/
theorem exec_hexd (s : State) : exec .hexd s = .next ((s.setBuf .dec s.decoded.1).complete s.decoded.2) := by
  rw [exec_runOf, runOf, runHexd_eq]

/-- The verdict on TOKEN and TOKLEN in the claims' words. -/
theorem State.decoded_valid (s : State) :
    s.decoded.2 = decide (s.toklen = 96 ∧ ∀ c ∈ s.token, (hexValue s.cfg.hexUpperOk c).2 = true) := by
  rw [Bool.eq_iff_iff, decide_eq_true_iff]
  exact hexdec96_valid_iff s.cfg.hexUpperOk s.token s.toklen

/-- Settles O22: HEXD writes DEC alone; the bytes are the decoder's, lane by lane, and OK is its verdict. -/
theorem hexdWritesDec : Obligations.HexdWritesDec := by
  refine ⟨decode_encode .hexd, fun s => ⟨_, exec_hexd s, fun i hi => ?_, ?_⟩⟩
  · rw [State.complete_dec, s.dec_setBuf_dec _ s.decoded_length]
    exact hexDecode_getD s.cfg.hexUpperOk s.token hi
  · rw [← s.decoded_valid]
    exact s.setBuf_complete_frame .dec s.decoded.1 s.decoded_length s.decoded.2

end Sys2Proof.Machine
end

section
/-!
PROOFS. The family of 45_token.md: the commands GEN (R190, R191) and VFY (R193 to R197), and what the two say of each
other (R198, R199).
-/

namespace Sys2Proof.Machine

/-! ## Writes of named buffers -/

/-- `u` is `s` after writes of the buffers `bs`, of TOKLEN, and of scratch registers. -/
structure WritesOnly (s u : State) (bs : List Buf) : Prop where
  outputs : Outputs s u
  bytes : KeepsBytesOutside s u bs

namespace WritesOnly

theorem refl (s : State) (bs : List Buf) : WritesOnly s s bs := ⟨.refl s, .refl s bs⟩

variable {s u : State} {bs : List Buf}

theorem setBuf (h : WritesOnly s u bs) (b : Buf) (l : List Byte) (hl : l.length = b.size s.cfg) (hb : b ∈ bs) :
    WritesOnly s (u.setBuf b l) bs := ⟨h.outputs.setBuf b l hl, h.bytes.setBuf b l hl.le hb⟩

theorem wipe (h : WritesOnly s u bs) (b : Buf) (hb : b ∈ bs) : WritesOnly s (u.wipe b) bs :=
  ⟨h.outputs.wipe b, h.bytes.wipe b h.outputs.cfg hb⟩

theorem setToklen (h : WritesOnly s u bs) (v : Word) : WritesOnly s (u.setToklen v) bs :=
  ⟨h.outputs.setToklen v, h.bytes.setToklen v⟩

theorem hexenc (h : WritesOnly s u bs) (hb : Buf.token ∈ bs) : WritesOnly s u.hexenc bs :=
  (h.setBuf .token (hexEncode u.btok) (by simp [State.btok_length, Buf.size]) hb).setToklen 96

theorem loadCandidate (h : WritesOnly s u bs) {x : List Byte} (hx : x.length = 48) (hdec : Buf.dec ∈ bs)
    (hnonce : Buf.nonce ∈ bs) : WritesOnly s (u.loadCandidate x) bs := by
  rw [State.loadCandidate_eq u x hx]
  exact (h.setBuf .dec x hx hdec).setBuf .nonce (x.take 16) (by simp [hx, Buf.size]) hnonce

end WritesOnly

/-- Every end of a command, completion or error entry, in the claims' words (R211, R216, R228). -/
theorem Ended.finish {s u : State} (h : Outputs s u) (ok : Bool) (e : BitVec 4) : Ended s (u.finish ok e) ok e :=
  ⟨congrArg (·.completed ok e) h.status, rfl, congrArg (Seq.mk · .idle) h.cmd, rfl⟩

/-! ## The key of a keyed command (R146) -/

/-- R146's check is the range of KEYLEN. -/
theorem State.keyOk_iff (s : State) : s.keyOk = true ↔ 1 ≤ s.keylen.toNat ∧ s.keylen.toNat ≤ s.cfg.keyMax := by
  simp [State.keyOk]

/-- The check reads KEYLEN and `KEY_MAX` alone. -/
theorem KeepsKey.keyOk {s u : State} (h : KeepsKey s u) (hc : u.cfg = s.cfg) : u.keyOk = s.keyOk := by
  rw [State.keyOk, State.keyOk, h.keylen, hc]

/-- A legal key is the start of KEY. -/
theorem State.keyBytes_eq_take {s : State} (h : s.keyOk = true) : s.keyBytes = (s.buf .key).take s.keylen.toNat :=
  (s.mem.readBytes_take Buf.key.base s.cfg.keyMax s.keylen.toNat (s.keyOk_iff.1 h).2).symm

/-- States with the same KEY and KEYLEN have the same key. -/
theorem KeepsKey.keyBytes {s u : State} (h : KeepsKey s u) (hc : u.cfg = s.cfg) (hk : s.keyOk = true) :
    u.keyBytes = s.keyBytes := by
  rw [State.keyBytes_eq_take hk, State.keyBytes_eq_take ((h.keyOk hc).trans hk), h.key, h.keylen]

/-! ## GEN (R190) -/

/-- GEN with an answer and a legal key. -/
theorem exec_gen_ok {s : State} {r : Vector Byte 16} (h : s.rngq = .ans (.ok r)) (hk : s.keyOk = true) :
    exec .gen s = .next ((genOutputs s r.toList).complete true) := by
  rw [exec_runOf, runOf, runGen_ok s r h hk]

/-- GEN with an answer and KEYLEN out of range. -/
theorem exec_gen_badKey {s : State} {r : Vector Byte 16} (h : s.rngq = .ans (.ok r)) (hk : s.keyOk = false) :
    exec .gen s = .next ((s.setBuf .nonce r.toList).wipeGen.raiseErr errKey) := by
  rw [exec_runOf, runOf, runGen_badKey s r h hk]

/-- GEN with a failed source. -/
theorem exec_gen_fail {s : State} (h : s.rngq = .ans .fail) : exec .gen s = .next (s.wipeGen.raiseErr errRng) := by
  rw [exec_runOf, runOf, runGen_fail s h]

theorem genOutputs_tag (s : State) (r : List Byte) : (genOutputs s r).tag = hmac s.keyBytes r := by
  rw [genOutputs, State.hexenc_tag, State.tag_setBuf_tag _ _ (hmac_length _ _)]

section GenOutputs
variable (s : State) {r : List Byte} (hr : r.length = 16)
include hr

theorem genOutputs_nonce : (genOutputs s r).nonce = r := by
  rw [genOutputs, State.hexenc_nonce, State.nonce_setBuf_tag _ _ (hmac_length _ _), s.nonce_setBuf_nonce r hr]

/-- TOKEN is the encoding of the nonce and the tag that GEN leaves. -/
theorem genOutputs_token : (genOutputs s r).token = hexEncode (r ++ hmac s.keyBytes r) := by
  rw [genOutputs, State.hexenc_token, ← State.hexenc_btok, ← genOutputs, State.btok, genOutputs_nonce s hr,
    genOutputs_tag]

theorem genOutputs_writesOnly : WritesOnly s (genOutputs s r) [.nonce, .tag, .token] :=
  (((WritesOnly.refl s _).setBuf .nonce r hr (by decide)).setBuf .tag _ (hmac_length _ _) (by decide)).hexenc
    (by decide)

theorem genOutputs_keepsKey : KeepsKey s (genOutputs s r) :=
  (((KeepsKey.refl s).setBuf .nonce r (by decide) hr.le).setBuf .tag _ (by decide) (hmac_length _ _).le).hexenc

end GenOutputs

/-- Settles O25: a GEN that succeeds writes NONCE, TAG and TOKEN and completes. -/
theorem genWritesToken : Obligations.GenWritesToken := by
  intro s r hq h1 h2
  have hr : r.toList.length = 16 := r.length_toList
  have hw := genOutputs_writesOnly s hr
  refine ⟨_, exec_gen_ok hq (State.keyOk_true h1 h2), genOutputs_nonce s hr, genOutputs_tag s _, ?_, rfl, rfl,
    .complete hw.outputs true, .finish hw.outputs true errNone, hw.bytes.finish true errNone⟩
  rw [State.complete_token, State.complete_nonce, State.complete_tag, genOutputs_token s hr, genOutputs_nonce s hr,
    genOutputs_tag]

/-- `FAIL(e)` of R190, with whatever GEN has written before it: no output is left, and nothing else is changed. -/
theorem State.wipeGen_raiseErr_frame {s u : State} (hw : WritesOnly s u [.nonce, .tag, .token])
    (hk : u.keylen = s.keylen) {e : BitVec 4} (he : e = errKey ∨ e = errRng) :
    IsZero (u.wipeGen.raiseErr e) .nonce ∧ IsZero (u.wipeGen.raiseErr e) .tag ∧
      IsZero (u.wipeGen.raiseErr e) .token ∧ (u.wipeGen.raiseErr e).toklen = 0 ∧
      (u.wipeGen.raiseErr e).keylen = s.keylen ∧ Ended s (u.wipeGen.raiseErr e) false e ∧
      (u.wipeGen.raiseErr e).status.fatal = true ∧ KeepsCtrl s (u.wipeGen.raiseErr e) ∧
      KeepsBytesOutside s (u.wipeGen.raiseErr e) [.nonce, .tag, .token] := by
  have hwiped : WritesOnly s u.wipeGen [.nonce, .tag, .token] :=
    (((hw.wipe .nonce (by decide)).wipe .tag (by decide)).wipe .token (by decide)).setToklen 0
  exact ⟨((IsZero.wipe_same u .nonce).wipe .tag).wipe .token, (IsZero.wipe_same _ .tag).wipe .token,
    IsZero.wipe_same _ .token, rfl, hk, .finish hwiped.outputs false e, State.raiseErr_fatal _ e he,
    .finish hwiped.outputs false e, hwiped.bytes.finish false e⟩

/-- Settles O26: both failures are `FAIL(e)`; the failed source is seen before KEYLEN (R226). -/
theorem genFailureLeavesNothing : Obligations.GenFailureLeavesNothing := by
  rintro s (hq | ⟨r, hq, hkey⟩)
  · rw [if_pos hq]
    exact ⟨_, exec_gen_fail hq, State.wipeGen_raiseErr_frame (.refl s _) rfl (.inr rfl)⟩
  · have hnonce : WritesOnly s (s.setBuf .nonce r.toList) [.nonce, .tag, .token] :=
      (WritesOnly.refl s _).setBuf .nonce r.toList r.length_toList (by decide)
    rw [if_neg (by simp [hq])]
    exact ⟨_, exec_gen_badKey hq (State.keyOk_false hkey), State.wipeGen_raiseErr_frame hnonce rfl (.inl rfl)⟩

/-! ## The token of a GEN (R191) -/

/-- `ENC` gives decimal digits and lowercase letters alone (R176). -/
theorem hexChar_range (n : BitVec 4) :
    (0x30 ≤ (hexChar n).toNat ∧ (hexChar n).toNat ≤ 0x39) ∨ (0x61 ≤ (hexChar n).toNat ∧ (hexChar n).toNat ≤ 0x66) := by
  have := n.isLt
  rw [hexChar_toNat]
  split <;> omega

/-- Every character of an encoding is one of `ENC`'s. -/
theorem exists_hexChar_of_mem_hexEncode {x : List Byte} {c : Byte} (h : c ∈ hexEncode x) : ∃ n, c = hexChar n := by
  obtain ⟨b, -, hc⟩ := List.mem_flatMap.1 h
  rcases List.mem_pair.1 hc with rfl | rfl
  · exact ⟨_, rfl⟩
  · exact ⟨_, rfl⟩

/-- The encoding of 48 bytes is accepted by the decoder and decodes to them (R182). -/
theorem hexdec96_hexEncode (u : Bool) {x : List Byte} (h : x.length = 48) : hexdec96 u (hexEncode x) 96 = (x, true) :=
  hexRoundTrips.1 u x h

/-- Settles O27: TOKEN is an encoding, of the answer and its HMAC. -/
theorem genTokenIsWellFormed : Obligations.GenTokenIsWellFormed := by
  refine ⟨fun s r hq h1 h2 => ?_, fun s s' t t' r hq hq' hk hk' hkey ht ht' => ?_⟩
  · have hr : r.toList.length = 16 := r.length_toList
    have hk : s.keyOk = true := State.keyOk_true h1 h2
    have hkey := (genOutputs_keepsKey s hr).keyBytes (genOutputs_writesOnly s hr).outputs.cfg hk
    refine ⟨_, exec_gen_ok hq hk, rfl, rfl, fun c hc => ?_, ?_, ?_⟩
    · rw [State.complete_token, genOutputs_token s hr] at hc
      obtain ⟨n, rfl⟩ := exists_hexChar_of_mem_hexEncode hc
      exact hexChar_range n
    · rw [State.complete_token, State.complete_nonce, State.complete_tag, genOutputs_token s hr,
        genOutputs_nonce s hr, genOutputs_tag]
      exact hexdec96_hexEncode _ (by simp [hr])
    · rw [State.complete_nonce, State.complete_tag, State.complete_keyBytes, hkey, genOutputs_nonce s hr,
        genOutputs_tag]
  · rw [exec_gen_ok hq hk, Host.Outcome.next.injEq] at ht
    rw [exec_gen_ok hq' hk', Host.Outcome.next.injEq] at ht'
    rw [← ht, ← ht', State.complete_token, State.complete_token, genOutputs_token s r.length_toList,
      genOutputs_token s' r.length_toList, hkey]

/-! ## GEN by its parts (R190) -/

/-- Completions one after another are one. -/
theorem State.complete_complete (s : State) (ok : Bool) : (s.complete true).complete ok = s.complete ok := by
  simp [State.complete, State.finish, Status.completed, isFatal, errNone, errKey, errRng]

/-- A completion touches no buffer, so writes may come before or after it. -/
theorem State.setBuf_complete (s : State) (b : Buf) (l : List Byte) (ok : Bool) :
    (s.complete ok).setBuf b l = (s.setBuf b l).complete ok := rfl

theorem State.hexenc_complete (s : State) (ok : Bool) : (s.complete ok).hexenc = s.hexenc.complete ok := rfl

/-- Settles O28: DRAW, MAC and HEXE write the outputs of GEN in their order, and their completions join. -/
theorem genIsDrawMacHexe : Obligations.GenIsDrawMacHexe := by
  intro s t1 t2 t3 r hq hk h1 h2 h3
  have hr : r.toList.length = 16 := r.length_toList
  have hk1 : ((s.setBuf .nonce r.toList).complete true).keyOk = true := hk
  rw [exec_draw_ok hq, Host.Outcome.next.injEq] at h1
  subst h1
  rw [exec_mac_ok hk1, State.complete_keyBytes, State.complete_nonce, s.nonce_setBuf_nonce _ hr,
    s.keyBytes_setBuf_nonce _ hr, State.setBuf_complete, State.complete_complete, Host.Outcome.next.injEq] at h2
  subst h2
  rw [exec_hexe, State.hexenc_complete, State.complete_complete] at h3
  rw [exec_gen_ok hq hk, genOutputs, h3]

/-! ## VFY (R193) -/

/-- The verdict of VFY: the token is well-formed, KEYLEN is in range, and the tag is the HMAC of the nonce (R196). -/
def vfyVerdict (s : State) : Bool :=
  s.decoded.2 && s.keyOk && decide (s.decoded.1.drop 16 = hmac s.keyBytes (s.decoded.1.take 16))

/-- The error of VFY: KEYLEN is looked at only where the token is well-formed (R197). -/
def vfyError (s : State) : BitVec 4 := if s.decoded.2 && !s.keyOk then errKey else errNone

section Paths
variable {s : State}

/-- A malformed token is refused without an error, whatever KEYLEN is (R194). -/
theorem vfy_of_malformed (hv : s.decoded.2 = false) : vfyVerdict s = false ∧ vfyError s = errNone := by
  simp [vfyVerdict, vfyError, hv]

/-- A well-formed token with KEYLEN out of range is refused with ERR_KEY (R197). -/
theorem vfy_of_badKey (hv : s.decoded.2 = true) (hk : s.keyOk = false) :
    vfyVerdict s = false ∧ vfyError s = errKey := by
  simp [vfyVerdict, vfyError, hv, hk]

/-- A well-formed token under a legal key is judged by its tag, without an error. -/
theorem vfy_of_keyOk (hv : s.decoded.2 = true) (hk : s.keyOk = true) :
    vfyVerdict s = decide (s.decoded.1.drop 16 = hmac s.keyBytes (s.decoded.1.take 16)) ∧ vfyError s = errNone := by
  simp [vfyVerdict, vfyError, hv, hk]

/-- A legal key raises no error, whatever the token is. -/
theorem vfyError_of_keyOk (hk : s.keyOk = true) : vfyError s = errNone := by simp [vfyError, hk]

end Paths

/-- The accepted tokens. -/
theorem vfyVerdict_iff (s : State) :
    vfyVerdict s = true ↔ s.decoded.2 = true ∧ s.keyOk = true ∧
      s.decoded.1.drop 16 = hmac s.keyBytes (s.decoded.1.take 16) := by
  simp [vfyVerdict, and_assoc]

/-- What VFY leaves, whatever it has found: its verdict and its error, NONCE, TAG and DEC zero, all else as it was. -/
structure VfyEnds (s t : State) : Prop where
  ended : Ended s t (vfyVerdict s) (vfyError s)
  nonce : IsZero t .nonce
  tag : IsZero t .tag
  dec : IsZero t .dec
  ctrl : KeepsCtrl s t
  lengths : KeepsLengths s t
  bytes : KeepsBytesOutside s t [.nonce, .tag, .dec]

/-- Every exit of VFY wipes and finishes. -/
theorem VfyEnds.of_wipeVfy {s u : State} (hw : WritesOnly s u [.nonce, .tag, .dec]) (hl : KeepsLengths s u) {ok : Bool}
    {e : BitVec 4} (h : vfyVerdict s = ok ∧ vfyError s = e) : VfyEnds s (u.wipeVfy.finish ok e) := by
  have hwiped : WritesOnly s u.wipeVfy [.nonce, .tag, .dec] :=
    ((hw.wipe .nonce (by decide)).wipe .tag (by decide)).wipe .dec (by decide)
  obtain ⟨rfl, rfl⟩ := h
  exact ⟨.finish hwiped.outputs _ _, ((IsZero.wipe_same u .nonce).wipe .tag).wipe .dec,
    (IsZero.wipe_same _ .tag).wipe .dec, IsZero.wipe_same _ .dec, .finish hwiped.outputs _ _, hl,
    hwiped.bytes.finish _ _⟩

/-- Against the candidate's own nonce the gate compares the tags (R158). -/
theorem cteq48_take_append {x m : List Byte} (hx : x.length = 48) (hm : m.length = 32) :
    cteq48 x (x.take 16 ++ m) = decide (x.drop 16 = m) := by
  rw [Bool.eq_iff_iff, decide_eq_true_iff, cteq48_iff_eq (by simp [hx, hm])]
  calc x = x.take 16 ++ m
      ↔ x.take 16 ++ x.drop 16 = x.take 16 ++ m := by rw [List.take_append_drop]
    _ ↔ x.drop 16 = m := List.append_right_inj _

/-- VFY ends so from every state: at the decoder, at the key check, or at the gate. -/
theorem runVfy_ends (s : State) : VfyEnds s (runVfy s).st := by
  have hx := s.decoded_length
  have hload : WritesOnly s (s.loadCandidate s.decoded.1) [.nonce, .tag, .dec] :=
    (WritesOnly.refl s _).loadCandidate hx (by decide) (by decide)
  cases hv : s.decoded.2
  · rw [runVfy_malformed s hv]
    exact .of_wipeVfy (.refl s _) ⟨rfl, rfl⟩ (vfy_of_malformed hv)
  · cases hk : s.keyOk
    · rw [runVfy_badKey s hv hk]
      exact .of_wipeVfy hload ⟨rfl, rfl⟩ (vfy_of_badKey hv hk)
    · rw [runVfy_full s hv hk, cteq48_take_append hx (hmac_length _ _)]
      exact .of_wipeVfy (hload.setBuf .tag _ (hmac_length _ _) (by decide)) ⟨rfl, rfl⟩ (vfy_of_keyOk hv hk)

theorem exec_vfy (s : State) : exec .vfy s = .next (runVfy s).st := exec_runOf .vfy s

theorem vfyEnds_of_exec {s t : State} (h : exec .vfy s = .next t) : VfyEnds s t := by
  rw [exec_vfy, Host.Outcome.next.injEq] at h
  exact h ▸ runVfy_ends s

theorem VfyEnds.ok {s t : State} (h : VfyEnds s t) : t.status.ok = vfyVerdict s := by
  obtain ⟨hstatus, -⟩ := h.ended
  rw [hstatus]

theorem VfyEnds.err {s t : State} (h : VfyEnds s t) : t.status.err = vfyError s := by
  obtain ⟨hstatus, -⟩ := h.ended
  rw [hstatus]

/-- The end of a VFY whose verdict and error are known. -/
theorem VfyEnds.ended_of {s t : State} (h : VfyEnds s t) {ok : Bool} {e : BitVec 4}
    (hv : vfyVerdict s = ok ∧ vfyError s = e) : Ended s t ok e := by
  obtain ⟨rfl, rfl⟩ := hv
  exact h.ended

/-- The decoder refuses a token of another length or with another character. -/
theorem State.decoded_malformed {s : State}
    (h : s.toklen ≠ 96 ∨ ∃ c ∈ s.token, (hexValue s.cfg.hexUpperOk c).2 = false) : s.decoded.2 = false := by
  rw [s.decoded_valid, decide_eq_false_iff_not]
  rintro ⟨hlen, hall⟩
  obtain hne | ⟨c, hc, hbad⟩ := h
  · exact hne hlen
  · exact Bool.noConfusion (hbad.symm.trans (hall c hc))

/-- Settles O29: a malformed token ends VFY at the decoder. -/
theorem vfyRejectsMalformedToken : Obligations.VfyRejectsMalformedToken := by
  intro s h
  have ht := runVfy_ends s
  exact ⟨_, exec_vfy s, ht.ended_of (vfy_of_malformed (State.decoded_malformed h)), ht.nonce, ht.tag, ht.dec, ht.ctrl,
    ht.lengths, ht.bytes⟩

/-- Settles O30: a well-formed token comes to the key check. -/
theorem vfyRaisesKeyError : Obligations.VfyRaisesKeyError := by
  intro s hlen hall hkey
  have hv : s.decoded.2 = true := s.decoded_valid.trans (decide_eq_true ⟨hlen, hall⟩)
  have ht := runVfy_ends s
  have hended := ht.ended_of (vfy_of_badKey hv (State.keyOk_false hkey))
  have hstatus := hended.1
  refine ⟨_, exec_vfy s, hended, ?_, ht.nonce, ht.tag, ht.dec, ht.ctrl, ht.lengths, ht.bytes⟩
  rw [hstatus]
  exact Bool.or_true _

/-- Settles O31: a well-formed token under a legal key comes to the gate. -/
theorem vfyAnswersVerdict : Obligations.VfyAnswersVerdict := by
  intro s hlen hall h1 h2
  have hv : s.decoded.2 = true := s.decoded_valid.trans (decide_eq_true ⟨hlen, hall⟩)
  have ht := runVfy_ends s
  exact ⟨_, exec_vfy s, ht.ended_of (vfy_of_keyOk hv (State.keyOk_true h1 h2)), ht.nonce, ht.tag, ht.dec, ht.ctrl,
    ht.lengths, ht.bytes⟩

/-- Settles O32: the verdict's three conditions, the decoder's result written out. -/
theorem vfyAcceptsExactlyValidTokens : Obligations.VfyAcceptsExactlyValidTokens := by
  refine fun s => ⟨_, exec_vfy s, ?_⟩
  rw [(runVfy_ends s).ok, vfyVerdict_iff, s.decoded_valid, decide_eq_true_iff, s.keyOk_iff]
  constructor
  · rintro ⟨⟨hlen, hall⟩, ⟨h1, h2⟩, htag⟩
    have hdec : hexdec96 s.cfg.hexUpperOk s.token 96 = (s.decoded.1, true) :=
      Prod.ext rfl ((hexdec96_valid_iff _ _ _).2 ⟨rfl, hall⟩)
    exact ⟨hlen, hall, h1, h2, _, hdec, htag⟩
  · rintro ⟨hlen, hall, h1, h2, x, hx, htag⟩
    obtain rfl : s.decoded.1 = x := congrArg Prod.fst hx
    exact ⟨⟨hlen, hall⟩, ⟨h1, h2⟩, htag⟩

/-- An error-free VFY's STATUS is a function of FATAL at issue and of the verdict (R195). -/
theorem VfyEnds.status_of_no_error {s t : State} (h : VfyEnds s t) (he : t.status.err = 0) :
    t.status = { busy := false, done := true, ok := t.status.ok, fatal := s.status.fatal, err := 0 } := by
  obtain ⟨hstatus, -⟩ := h.ended
  rw [← h.ok, ← h.err, he] at hstatus
  simpa using hstatus

/-- Settles O33: what VFY leaves is said by `VfyEnds`, in which the verdict and the error are all that depends on the
token and the key. -/
theorem vfyRevealsOneBit : Obligations.VfyRevealsOneBit := by
  refine ⟨fun s t ht he => ?_, fun s s' t t' ht ht' he he' hfatal hcmd hok => ?_⟩
  · have h := vfyEnds_of_exec ht
    obtain ⟨hie, hcfg, -, -⟩ := h.ctrl
    obtain ⟨hkeylen, htoklen⟩ := h.lengths
    exact ⟨h.status_of_no_error he, h.nonce, h.tag, h.dec, h.bytes.buf hcfg .token (by decide), htoklen, hkeylen,
      h.bytes.buf hcfg .key (by decide), hie, hcfg, h.bytes⟩
  · have h := vfyEnds_of_exec ht
    have h' := vfyEnds_of_exec ht'
    obtain ⟨-, hscratch, hseq, hrngq⟩ := h.ended
    obtain ⟨-, hscratch', hseq', hrngq'⟩ := h'.ended
    refine ⟨?_, hscratch.trans hscratch'.symm, ?_, hrngq.trans hrngq'.symm, h.nonce.trans h'.nonce.symm,
      h.tag.trans h'.tag.symm, h.dec.trans h'.dec.symm⟩
    · rw [h.status_of_no_error he, h'.status_of_no_error he', hok, hfatal]
    · rw [hseq, hseq', hcmd]

/-! ## A generated token verifies (R198) -/

/-- A GEN that completes with OK 1 took the success path. -/
theorem exec_gen_succeeded {s t : State} {a : RngAnswer} (hq : s.rngq = .ans a) (h : exec .gen s = .next t)
    (hok : t.status.ok = true) :
    ∃ r : Vector Byte 16, s.keyOk = true ∧ t = (genOutputs s r.toList).complete true := by
  cases a with
  | fail =>
    rw [exec_gen_fail hq, Host.Outcome.next.injEq] at h
    subst h
    cases hok
  | ok r =>
    cases hk : s.keyOk
    · rw [exec_gen_badKey hq hk, Host.Outcome.next.injEq] at h
      subst h
      cases hok
    · rw [exec_gen_ok hq hk, Host.Outcome.next.injEq] at h
      exact ⟨r, rfl, h.symm⟩

/-- VFY accepts the encoding of a nonce and its HMAC. -/
theorem vfyVerdict_of_encoded {u : State} {r : List Byte} (hr : r.length = 16) (hlen : u.toklen = 96)
    (hk : u.keyOk = true) (htok : u.token = hexEncode (r ++ hmac u.keyBytes r)) : vfyVerdict u = true := by
  have hdec : u.decoded = (r ++ hmac u.keyBytes r, true) := by
    rw [State.decoded, htok, hlen]
    exact hexdec96_hexEncode _ (by simp [hr])
  rw [vfyVerdict_iff, hdec, List.take_left' hr, List.drop_left' hr]
  exact ⟨rfl, hk, rfl⟩

/-- R198 on the meanings: VFY in every later state with GEN's TOKEN and TOKLEN, KEY and KEYLEN. -/
theorem vfyVerdict_of_gen {s t u : State} {a : RngAnswer} (hq : s.rngq = .ans a) (ht : exec .gen s = .next t)
    (hok : t.status.ok = true) (htok : u.token = t.token) (hlen : u.toklen = t.toklen) (hkey : KeepsKey t u)
    (hcfg : u.cfg = t.cfg) : u.keyOk = true ∧ vfyVerdict u = true := by
  obtain ⟨r, hk, rfl⟩ := exec_gen_succeeded hq ht hok
  have hr : r.toList.length = 16 := r.length_toList
  have hgen := genOutputs_keepsKey s hr
  have hgencfg := (genOutputs_writesOnly s hr).outputs.cfg
  have hku : KeepsKey s u := ⟨hkey.keylen.trans hgen.keylen, hkey.key.trans hgen.key⟩
  have hcu : u.cfg = s.cfg := hcfg.trans hgencfg
  have huk : u.keyOk = true := (hku.keyOk hcu).trans hk
  refine ⟨huk, vfyVerdict_of_encoded hr hlen huk ?_⟩
  rw [hku.keyBytes hcu hk, htok, State.complete_token, genOutputs_token s hr]

/-! ### Through the register port -/

section Port
variable {s : State} (n : Nat) (rest : List Event)

/-- A CMD write while neither busy nor fatal issues its word (R210). -/
theorem run_issue (hb : s.status.busy = false) (hf : s.status.fatal = false) (w : Word) :
    Host.Core.run core (n + 1) (s.withEnv (.write 0x010 4 w :: rest)) =
      Host.Core.run core n (((s.issue w).withReply .okay).withEnv rest) :=
  run_next n _ _ (step_write_cmd s w rest hb hf)

/-- The RNG answers the pending request (R39). -/
theorem run_deliver (hq : s.rngq = .pending) (d : RngDelivery) :
    Host.Core.run core (n + 1) (s.withEnv (.rng d :: rest)) =
      Host.Core.run core n (({ s with rngq := .ans d.answer } : State).withEnv rest) := by
  refine run_next n _ _ ?_
  rw [step_cons, perform, State.rngDeliver_of_pending (s := s.withEnv rest) d hq]
  rfl

/-- The enabled engine runs the latched command (R211). -/
theorem run_engine {t : State} {i : Instr} (hd : decode s.seq.cmd = .ok i) (hr : s.engineReady = true)
    (ht : exec i (s.withEnv rest) = .next t) :
    Host.Core.run core (n + 1) (s.withEnv (.engine :: rest)) = Host.Core.run core n t := by
  refine run_next n _ _ ?_
  rw [step_engine_cons, engineStep_withEnv_ok s i hd hr, ht]

end Port

/-- The state after a CMD write of GEN whose request has been answered with `r`. -/
def genAnswered (s : State) (r : Vector Byte 16) : State :=
  { (s.issue 0x00000001).withReply .okay with rngq := .ans (.ok r) }

/-- The state after the GEN has completed. -/
def genCompleted (s : State) (r : Vector Byte 16) : State := (genOutputs (genAnswered s r) r.toList).complete true

/-- The state after a CMD write of VFY. -/
def vfyIssued (s : State) : State := (s.issue 0x00000002).withReply .okay

/-- A GEN that completes leaves FATAL as it was (R229). -/
theorem genCompleted_fatal (s : State) (r : Vector Byte 16) : (genCompleted s r).status.fatal = s.status.fatal := by
  obtain ⟨hstatus, -⟩ := Ended.complete (genOutputs_writesOnly (genAnswered s r) r.length_toList).outputs true
  rw [genCompleted, hstatus]
  exact Bool.or_false _

/-- Issue leaves FATAL as it was (R210). -/
theorem vfyIssued_fatal (s : State) : (vfyIssued s).status.fatal = s.status.fatal := rfl

/-- GEN through the port under a legal key. -/
theorem run_gen {s : State} {d : RngDelivery} {r : Vector Byte 16} (hb : s.status.busy = false)
    (hf : s.status.fatal = false) (hk : s.keyOk = true) (hd : d.answer = .ok r) (n : Nat) (rest : List Event) :
    Host.Core.run core (n + 3) (s.withEnv (.write 0x010 4 0x00000001 :: .rng d :: .engine :: rest)) =
      Host.Core.run core n ((genCompleted s r).withEnv rest) := by
  rw [run_issue _ _ hb hf, run_deliver _ _ rfl, hd]
  exact run_engine n rest (s := genAnswered s r) (decode_encode .gen) rfl (exec_gen_ok rfl hk)

/-- VFY through the port. -/
theorem run_vfy {s : State} (hb : s.status.busy = false) (hf : s.status.fatal = false) :
    Host.Core.run core 2 (s.withEnv [.write 0x010 4 0x00000002, .engine]) =
      .next (runVfy ((vfyIssued s).withEnv [])).st := by
  rw [run_issue _ _ hb hf]
  exact run_engine 0 [] (s := vfyIssued s) (decode_encode .vfy) rfl (exec_vfy _)

/-- Settles O34: on the meanings by `vfyVerdict_of_gen`; through the port the VFY is issued in the state that the GEN
leaves, idle and not fatal. -/
theorem generatedTokenVerifies : Obligations.GeneratedTokenVerifies := by
  refine ⟨fun s t u a hq ht hok htok hlen hkeylen hkey hcfg => ?_, fun s d r hb hf h1 h2 hd => ?_⟩
  · obtain ⟨hk, hverdict⟩ := vfyVerdict_of_gen hq ht hok htok hlen ⟨hkeylen, hkey⟩ hcfg
    have hend := runVfy_ends u
    exact ⟨_, exec_vfy u, hend.ok.trans hverdict, hend.err.trans (vfyError_of_keyOk hk)⟩
  · have hk : s.keyOk = true := State.keyOk_true h1 h2
    have hgen : exec .gen (genAnswered s r) = .next (genCompleted s r) := exec_gen_ok rfl hk
    have hfatal : (genCompleted s r).status.fatal = false := (genCompleted_fatal s r).trans hf
    obtain ⟨hvk, hverdict⟩ := vfyVerdict_of_gen (u := (vfyIssued (genCompleted s r)).withEnv []) rfl hgen rfl rfl rfl
      ⟨rfl, rfl⟩ rfl
    have hend := runVfy_ends ((vfyIssued (genCompleted s r)).withEnv [])
    refine ⟨_, (run_gen hb hf hk hd 2 _).trans (run_vfy rfl hfatal), ?_⟩
    rw [hend.status_of_no_error (hend.err.trans (vfyError_of_keyOk hvk)), hend.ok, hverdict,
      State.withEnv_status, vfyIssued_fatal, hfatal]

/-! ## A tampered token is rejected (R199) -/

/-- Tokens that decode to the same bytes have the same nibble at every character. -/
theorem nibble_eq_of_hexDecode_eq {u : Bool} {y y' : List Byte} (h : hexDecode u y = hexDecode u y') {j : Nat}
    (hj : j < 96) : (hexValue u (y.getD j 0)).1 = (hexValue u (y'.getD j 0)).1 := by
  have hbyte : hexByte u (y.getD (2 * (j / 2)) 0) (y.getD (2 * (j / 2) + 1) 0) =
      hexByte u (y'.getD (2 * (j / 2)) 0) (y'.getD (2 * (j / 2) + 1) 0) := by
    rw [← hexDecode_getD u y (by omega), ← hexDecode_getD u y' (by omega), h]
  obtain hj0 | hj1 := Nat.mod_two_eq_zero_or_one j
  · have hhi := congrArg hiNibble hbyte
    rwa [hexByte, hexByte, hiNibble_append, hiNibble_append, show 2 * (j / 2) = j by omega] at hhi
  · have hlo := congrArg loNibble hbyte
    rwa [hexByte, hexByte, loNibble_append, loNibble_append, show 2 * (j / 2) + 1 = j by omega] at hlo

/-- A character of the tag does not reach the decoded nonce. -/
theorem hexDecode_set_take {u : Bool} {y : List Byte} {p : Nat} (c : Byte) (hp : 32 ≤ p) :
    (hexDecode u (y.set p c)).take 16 = (hexDecode u y).take 16 := by
  have hchar {j : Nat} (hj : j < 32) : (y.set p c).getD j 0 = y.getD j 0 := by
    rw [List.getD_eq_getElem?_getD, List.getElem?_set_ne (by omega), ← List.getD_eq_getElem?_getD]
  rw [hexDecode, hexDecode, ← List.map_take, ← List.map_take, List.take_range]
  refine List.map_congr_left fun i hi => ?_
  have hlt : i < 16 := List.mem_range.1 hi
  rw [hchar (by omega), hchar (by omega)]

/-- Another digit in the tag changes the decoded tag. -/
theorem hexDecode_set_drop_ne {u : Bool} {y : List Byte} {p : Nat} {c : Byte} (hlen : y.length = 96) (hp32 : 32 ≤ p)
    (hp : p < 96) (hvalid : (hexValue u c).2 = (hexValue u (y.getD p 0)).2)
    (hne : hexValue u c ≠ hexValue u (y.getD p 0)) :
    (hexDecode u (y.set p c)).drop 16 ≠ (hexDecode u y).drop 16 := by
  intro hdrop
  have hsame : hexDecode u (y.set p c) = hexDecode u y := by
    rw [← List.take_append_drop 16 (hexDecode u (y.set p c)), hexDecode_set_take c hp32, hdrop,
      List.take_append_drop]
  have hnibble := nibble_eq_of_hexDecode_eq hsame hp
  rw [List.getD_eq_getElem _ 0 (by simpa [hlen] using hp), List.getElem_set_self] at hnibble
  exact hne (Prod.ext hnibble hvalid)

/-- With other characters in TOKEN the decoder reads these. -/
theorem State.decoded_setBuf_token (s : State) {y : List Byte} (hy : y.length = 96) :
    (s.setBuf .token y).decoded = hexdec96 s.cfg.hexUpperOk y s.toklen :=
  congrArg (hexdec96 s.cfg.hexUpperOk · s.toklen) (s.buf_setBuf_same .token y hy)

/-- Settles O35: a character that is no digit fails the decoder; another digit in the tag changes the decoded tag and
leaves the nonce, so that the tag is no longer the nonce's HMAC. -/
theorem tamperedTagIsRejected : Obligations.TamperedTagIsRejected := by
  intro s t p c ht hok hp hchange
  obtain ⟨hv, hk, htag⟩ := (vfyVerdict_iff s).1 ((vfyEnds_of_exec ht).ok.symm.trans hok)
  have hlen : (s.token.set p c).length = 96 := List.length_set.trans s.token_length
  have hkey : (s.setBuf .token (s.token.set p c)).keyBytes = s.keyBytes :=
    s.keyBytes_setBuf .token _ hlen.le (by decide)
  have hend := runVfy_ends (s.setBuf .token (s.token.set p c))
  refine ⟨_, exec_vfy _, ?_, hend.err.trans (vfyError_of_keyOk hk)⟩
  rw [hend.ok, ← Bool.not_eq_true, vfyVerdict_iff, s.decoded_setBuf_token hlen, hkey]
  rintro ⟨hv', -, htag'⟩
  have hp' : p < s.token.length := hp.trans_eq s.token_length.symm
  have hdigit := ((hexdec96_valid_iff _ _ _).1 hv').2 c (List.mem_set hp' c)
  have holdDigit := ((hexdec96_valid_iff _ _ _).1 hv).2 (s.token.getD p 0)
    (List.getD_eq_getElem s.token 0 hp' ▸ List.getElem_mem hp')
  obtain ⟨hp32, hne⟩ | hbad := hchange
  · refine hexDecode_set_drop_ne s.token_length hp32 hp (hdigit.trans holdDigit.symm) hne (htag'.trans ?_)
    rw [hexdec96, hexDecode_set_take c hp32]
    exact htag.symm
  · exact Bool.noConfusion (hbad.symm.trans hdigit)

end Sys2Proof.Machine
end

section
/-!
PROOFS. The family of 46_system.md: the issue of a command (R210), its completion (R211, R214, R216), and the commands NOP
(R212) and WIPE (R213).
-/

namespace Sys2Proof.Machine

/-! ## Issue (R210) -/

/-- The words that make an RNG request. -/
theorem drawsRng_iff (w : Word) : drawsRng w = true ↔ decode w = .ok .gen ∨ decode w = .ok .draw := by
  unfold drawsRng
  cases decode w with
  | error e => simp
  | ok i => cases i <;> simp

/-- An illegal word makes no RNG request (R214). -/
theorem drawsRng_of_illegal {w : Word} {e : DecodeError} (h : decode w = .error e) : drawsRng w = false := by
  rw [drawsRng, h]

/-- STATUS at the issue of a word that FATAL lets through. -/
theorem Status.issued_of_not_fatal {st : Status} (h : st.fatal = false) :
    st.issued = { busy := true, done := false, ok := false, fatal := false, err := 0 } := by
  rw [Status.issued, h, errNone]

/-- Issue drops `irq`, since it clears DONE (10_state.md R40). -/
theorem State.issue_irq (s : State) (w : Word) : (s.issue w).irq = false := Bool.and_false s.ie

/-- Issue of GEN or DRAW raises `rng_req` (10_state.md R40). -/
theorem State.issue_rngReq_of_draws (s : State) {w : Word} (h : drawsRng w = true) : (s.issue w).rngReq = true := by
  rw [State.rngReq_iff, State.issue_rngq, if_pos h]

/-- With no request before it, issue raises `rng_req` exactly where it makes one. -/
theorem State.issue_rngReq_of_none {s : State} (h : s.rngq = .none) (w : Word) : (s.issue w).rngReq = drawsRng w := by
  rw [Bool.eq_iff_iff, State.rngReq_iff, State.issue_rngq, h]
  cases drawsRng w <;> simp

/-- The step of a CMD write while busy or fatal (20_memory.md R69, R70). -/
theorem step_write_cmd_refused {s : State} (w : Word) (rest : List Event)
    (h : s.status.busy = true ∨ s.status.fatal = true) :
    ∃ e, step (s.withEnv (.write 0x010 4 w :: rest)) = .fault (.busError e) := by
  cases hb : s.status.busy with
  | true => exact ⟨.busy, step_write_busy s 0x010 w rest .cmd hb rfl rfl rfl⟩
  | false =>
    have hf : s.status.fatal = true := h.resolve_left (ne_true_of_eq_false hb)
    exact ⟨.fatal, step_write_error s 0x010 4 w rest .fatal ((s.withEnv rest).memWrite_cmd_fatal w hb hf)⟩

/-- Settles O10: the accepted write is `State.issue`, with `drawsRng` to say whether it makes a request. -/
theorem issueLatchesWord : Obligations.IssueLatchesWord := by
  refine ⟨fun s w rest hb hf => ?_, fun s w rest h => step_write_cmd_refused w rest h⟩
  refine ⟨drawsRng w, drawsRng_iff w, _, step_write_cmd s w rest hb hf, (s.withEnv rest).issue_irq w,
    (s.withEnv rest).issue_rngReq_of_draws, fun hq => State.issue_rngReq_of_none (s := s.withEnv rest) hq w, ?_⟩
  rw [← Status.issued_of_not_fatal hf]
  rfl

/-! ## Completion (R211, R216) -/

/-- Settles O11: in the invariant the enabled engine's move finishes the command, and every finish writes the same. -/
theorem completionClosesCommand : Obligations.CompletionClosesCommand := by
  intro s h hb hph
  obtain ⟨t, ht⟩ := exists_engineStep (s.withEnv [])
  have hr : (s.withEnv []).engineReady = true := State.engineReady_of_inv h hb hph
  obtain ⟨u, ok, e, ho, rfl⟩ := engineStep_finishes (State.inv_withEnv h []) hr ht
  obtain ⟨-, hscratch, hseq, hrngq⟩ := Ended.finish ho ok e
  obtain ⟨hie, hcfg, hreply, -⟩ := KeepsCtrl.finish ho ok e
  exact ⟨_, ht, rfl, rfl, hscratch, hseq, hrngq, hie, (Bool.and_true _).trans hie, hcfg, hreply⟩

/-! ## An illegal word (R214) -/

/-- A command that makes no request is ready to complete as soon as it is issued (R211). -/
theorem State.issue_engineReady (s : State) {w : Word} (h : drawsRng w = false) : (s.issue w).engineReady = true := by
  rw [State.engineReady_iff, State.issue_seq, h]
  exact ⟨rfl, .inl rfl⟩

/-- The enabled engine completes an illegal word with ERR_CMD. -/
theorem engineStep_illegal {s : State} {e : DecodeError} (hd : decode s.seq.cmd = .error e)
    (hr : s.engineReady = true) : engineStep s = .next (s.raiseErr errCmd) := by
  rw [engineStep_ready s hr, runLatched_error s e hd]

/-- STATUS after an ERR_CMD: FATAL is as it was. -/
theorem Status.completed_errCmd (st : Status) :
    st.completed false errCmd = { busy := false, done := true, ok := false, fatal := st.fatal, err := 1 } := by
  simp [Status.completed, isFatal, errCmd, errKey, errRng]

/-- Settles O12: the word is issued as any other, and its completion is ERR_CMD's error entry, which is not fatal. -/
theorem illegalWordCompletesWithErrCmd : Obligations.IllegalWordCompletesWithErrCmd := by
  intro s w e hd hb hf
  have hdraws : drawsRng w = false := drawsRng_of_illegal hd
  have hready : (((s.withEnv []).issue w).withReply .okay).engineReady = true := State.issue_engineReady _ hdraws
  have hstatus : s.status.issued.completed false errCmd =
      { busy := false, done := true, ok := false, fatal := false, err := 1 } := by
    rw [Status.completed_errCmd, Status.issued_fatal, hf]
  refine ⟨_, _, step_write_cmd s w [] hb hf, rfl, ?_, engineStep_illegal hd hready, ?_, fun v => ?_⟩
  · exact if_neg (ne_true_of_eq_false hdraws)
  · rw [← hstatus]
    rfl
  · exact ⟨_, step_write_cmd _ v [] rfl (congrArg Status.fatal hstatus)⟩

/-! ## NOP (R212) -/

/-- NOP is a completion and nothing more. -/
theorem exec_nop (s : State) : exec .nop s = .next (s.complete true) := exec_runOf .nop s

/-- Settles O14: a completion writes STATUS, the scratch registers, the phase and RNGQ alone. -/
theorem nopChangesStatusOnly : Obligations.NopChangesStatusOnly := fun s =>
  ⟨_, exec_nop s, .complete (.refl s) true, .finish (.refl s) true errNone, ⟨rfl, rfl⟩, rfl⟩

/-! ## WIPE (R213) -/

/-- WIPE's label, and a completion. -/
theorem exec_wipe (s : State) : exec .wipe s = .next (s.wipeAll.complete true) := by
  rw [exec_runOf, runOf, runWipe_eq]

/-- WIPE's label leaves every buffer zero: the wipes that follow a buffer's own do not touch it. -/
theorem State.wipeAll_isZero (s : State) (b : Buf) : IsZero s.wipeAll b := by
  cases b with
  | nonce => exact ((((IsZero.wipe_same s .nonce).wipe .tag).wipe .dec).wipe .token).wipe .key
  | tag => exact (((IsZero.wipe_same _ .tag).wipe .dec).wipe .token).wipe .key
  | dec => exact ((IsZero.wipe_same _ .dec).wipe .token).wipe .key
  | token => exact (IsZero.wipe_same _ .token).wipe .key
  | key => exact IsZero.wipe_same _ .key

/-- WIPE's label writes no byte outside the buffers. -/
theorem State.wipeAll_keepsBytes (s : State) : KeepsBytesOutside s s.wipeAll [.nonce, .tag, .dec, .token, .key] :=
  have hwiped : WritesOnly s (((((s.wipe .nonce).wipe .tag).wipe .dec).wipe .token).wipe .key)
      [.nonce, .tag, .dec, .token, .key] :=
    (((((WritesOnly.refl s _).wipe .nonce (by decide)).wipe .tag (by decide)).wipe .dec (by decide)).wipe .token
      (by decide)).wipe .key (by decide)
  (hwiped.bytes.setKeylen 0).setToklen 0

/-- Settles O24: the label wipes buffers and lengths, and the completion keeps what it leaves. -/
theorem wipeZeroesBuffers : Obligations.WipeZeroesBuffers := fun s =>
  have ho : Outputs s s.wipeAll := (Outputs.refl s).wipeAll
  ⟨_, exec_wipe s, fun b => (s.wipeAll_isZero b).finish true errNone, rfl, rfl, .complete ho true,
    .finish ho true errNone, s.wipeAll_keepsBytes.finish true errNone⟩

/-! ## A placed command word -/

/-- An RNGQ that has been answered holds an answer. -/
theorem RngQ.exists_answered (q : RngQ) : ∃ a, q.answered = .ans a := by
  cases q with
  | none => exact ⟨_, rfl⟩
  | pending => exact ⟨_, rfl⟩
  | ans a => exact ⟨a, rfl⟩

/-- A placed word is ready to complete, with a request, which has been answered, or without (R211). -/
theorem State.placeCommand_engineReady (s : State) (w : Word) : (s.placeCommand w).engineReady = true := by
  refine (State.engineReady_iff _).2 ⟨rfl, ?_⟩
  cases hd : drawsRng w with
  | false => exact .inl (if_neg (ne_true_of_eq_false hd))
  | true =>
    obtain ⟨a, ha⟩ := s.rngq.exists_answered
    exact .inr ⟨if_pos hd, a, (if_pos hd).trans ha⟩

/-- With the engine's move put before the listed ones, or left to come where none is listed, the step is the engine's. -/
theorem step_engineNext (s : State) (l : List Event) : step (s.withEnv (engineNext l)) = engineStep (s.withEnv l) := by
  cases l with
  | nil => exact step_nil s
  | cons e rest => exact step_engine_cons s (e :: rest)

/-- The step from a placed command word is its command's meaning. -/
theorem State.step_placeCommand (s : State) {w : Word} {i : Instr} (hd : decode w = .ok i) :
    step (s.placeCommand w) = exec i ((s.placeCommand w).withEnv s.env) := by
  have hstep : step (s.placeCommand w) = engineStep ((s.placeCommand w).withEnv s.env) :=
    step_engineNext (s.placeCommand w) s.env
  rw [hstep, engineStep_withEnv_ok (s.placeCommand w) i hd (s.placeCommand_engineReady w) s.env]

/-- A word of 32 bits is placed as it is. -/
theorem State.withFetchWord_of_lt (s : State) {w : Nat} (h : w < 2 ^ 32) :
    s.withFetchWord 32 w = s.placeCommand (BitVec.ofNat 32 w) := by
  rw [State.withFetchWord, Nat.mod_eq_of_lt h]

/-- Settles O8: the step is the engine's, and the engine is ready to run the latched word. -/
theorem placedWordRunsNext : Obligations.PlacedWordRunsNext := by
  intro s w i hw hd
  rw [s.withFetchWord_of_lt hw]
  exact s.step_placeCommand hd

end Sys2Proof.Machine
end

section
/-!
PROOFS. The family of 60_exceptions.md: when the port answers ERROR (R225), and what a fatal error leaves possible (R229,
R230).
-/

namespace Sys2Proof.Machine

/-! ## The offsets of legal accesses (20_memory.md R62, R63) -/

/-- Where a legal access reaches the target: a register at its own offset, every buffer above the registers. -/
def Target.ReachedAt (a : Nat) : Target → Prop
  | .id => a = 0x000
  | .param => a = 0x004
  | .ctrl => a = 0x008
  | .status => a = 0x00C
  | .cmd => a = 0x010
  | .keylen => a = 0x014
  | .toklen => a = 0x018
  | .buf _ => 0x020 ≤ a

/-- A target that the map finds stands in one of its rows. -/
theorem exists_row_of_target {c : Config} {a : Nat} {g : Target} (h : target c a = some g) :
    ∃ r ∈ addressMap c, r.holds a = true ∧ r.target = some g := by
  unfold target at h
  split at h
  · next r hr => exact ⟨r, List.mem_of_find?_eq_some hr, by simpa using List.find?_some hr, h⟩
  · cases h

/-- Each row's target is reached at the one aligned offset of a register's row, or above the registers. -/
theorem reachedAt_of_row {c : Config} {a : Nat} (ha : a % 4 = 0) :
    ∀ r ∈ addressMap c, r.base ≤ a → a < r.base + r.size → ∀ g, r.target = some g → g.ReachedAt a := by
  simp only [addressMap, Target.ReachedAt, List.forall_mem_cons, List.not_mem_nil, Option.some.injEq, forall_eq',
    reduceCtorEq, false_imp_iff, implies_true, and_true, true_and]
  omega

/-- The map finds a target at an aligned offset only where it stands. -/
theorem reachedAt_of_target {c : Config} {a : Nat} {g : Target} (ht : target c a = some g) (ha : a % 4 = 0) :
    g.ReachedAt a := by
  obtain ⟨r, hr, hholds, hg⟩ := exists_row_of_target ht
  obtain ⟨hlo, hhi⟩ := (r.holds_true a).1 hholds
  exact reachedAt_of_row ha r hr hlo hhi g hg

/-- A chain of cases that begins with a target finds nothing only beyond its first case. -/
theorem ite_some_eq_none_iff {p : Prop} [Decidable p] {α : Type} {x : α} {o : Option α} :
    (if p then some x else o) = none ↔ ¬p ∧ o = none := by
  split <;> simp [*]

/-- The reserved offsets (20_memory.md R64). -/
theorem target_eq_none_iff (c : Config) (a : Nat) :
    target c a = none ↔
      (0x01C ≤ a ∧ a < 0x020) ∨ (0x030 ≤ a ∧ a < 0x040) ∨ (0x090 ≤ a ∧ a < 0x0A0) ∨ 0x100 + c.keyMax ≤ a := by
  simp only [addressMapIsStated c a, ite_some_eq_none_iff, ite_eq_left_iff, and_true]
  omega

/-- A legal access is one of four bytes at a multiple of 4 (20_memory.md R63). -/
theorem widthOk_iff (addr : BitVec 12) (n : Nat) : widthOk addr n = true ↔ n = 4 ∧ addr.toNat % 4 = 0 := by
  simp [widthOk]

section Reached
variable {g : Target} {a : Nat} (h : g.ReachedAt a)
include h

/-- The registers that read through the busy gate, by offset (20_memory.md R69). -/
theorem Target.ReachedAt.readableBusy_iff :
    g.readableBusy = true ↔ a = 0x000 ∨ a = 0x004 ∨ a = 0x008 ∨ a = 0x00C := by
  cases g <;> simp only [Target.ReachedAt] at h <;> simp [Target.readableBusy] <;> omega

/-- The registers that no write reaches, by offset (20_memory.md R68). -/
theorem Target.ReachedAt.readOnly_iff : g.readOnly = true ↔ a = 0x000 ∨ a = 0x004 := by
  cases g <;> simp only [Target.ReachedAt] at h <;> simp [Target.readOnly] <;> omega

/-- CTRL's offset. -/
theorem Target.ReachedAt.eq_ctrl_iff : g = .ctrl ↔ a = 0x008 := by
  cases g <;> simp only [Target.ReachedAt] at h <;> simp <;> omega

/-- CMD's offset. -/
theorem Target.ReachedAt.eq_cmd_iff : g = .cmd ↔ a = 0x010 := by
  cases g <;> simp only [Target.ReachedAt] at h <;> simp <;> omega

end Reached

/-! ## The five cases (R225) -/

/-- A read is answered outside the cases (a), (b) and (d). -/
theorem State.memRead_accepted_iff (s : State) (addr : BitVec 12) (n : Nat) :
    (∃ w, s.memRead addr n = .ok w) ↔
      (n = 4 ∧ addr.toNat % 4 = 0) ∧ target s.cfg addr.toNat ≠ none ∧
        (s.status.busy = true →
          addr.toNat = 0x000 ∨ addr.toNat = 0x004 ∨ addr.toNat = 0x008 ∨ addr.toNat = 0x00C) := by
  simp only [s.memRead_ok, ← widthOk_iff, Option.ne_none_iff_exists']
  constructor
  · rintro ⟨w, hw, g, ht, hbusy, -⟩
    exact ⟨hw, ⟨g, ht⟩, fun hb =>
      (reachedAt_of_target ht (aligned_of_widthOk hw)).readableBusy_iff.1 (hbusy hb)⟩
  · rintro ⟨hw, ⟨g, ht⟩, hbusy⟩
    exact ⟨_, hw, g, ht, fun hb =>
      (reachedAt_of_target ht (aligned_of_widthOk hw)).readableBusy_iff.2 (hbusy hb), rfl⟩

/-- A write is accepted outside the cases (a) to (e). -/
theorem State.memWrite_accepted_iff (s : State) (addr : BitVec 12) (n : Nat) (v : Word) :
    (∃ u, s.memWrite addr n v = .ok u) ↔
      (n = 4 ∧ addr.toNat % 4 = 0) ∧ target s.cfg addr.toNat ≠ none ∧
        ¬(addr.toNat = 0x000 ∨ addr.toNat = 0x004) ∧ (s.status.busy = true → addr.toNat = 0x008) ∧
        (s.status.fatal = true → addr.toNat ≠ 0x010) := by
  simp only [s.memWrite_ok, ← widthOk_iff, Option.ne_none_iff_exists']
  constructor
  · rintro ⟨u, hw, g, ht, hbusy, hro, hfatal, -⟩
    have hg := reachedAt_of_target ht (aligned_of_widthOk hw)
    rw [← Bool.not_eq_true, hg.readOnly_iff] at hro
    rw [hg.eq_ctrl_iff] at hbusy
    exact ⟨hw, ⟨g, ht⟩, hro, hbusy, fun hf ha =>
      absurd hf (ne_true_of_eq_false (hfatal (hg.eq_cmd_iff.2 ha)))⟩
  · rintro ⟨hw, ⟨g, ht⟩, hro, hbusy, hfatal⟩
    have hg := reachedAt_of_target ht (aligned_of_widthOk hw)
    rw [← hg.readOnly_iff, Bool.not_eq_true] at hro
    rw [← hg.eq_ctrl_iff] at hbusy
    exact ⟨_, hw, g, ht, hbusy, hro, fun hcmd =>
      eq_false_of_ne_true fun hf => hfatal hf (hg.eq_cmd_iff.1 hcmd), rfl⟩

/-- The step of a read faults exactly where the port does not answer it (20_memory.md R61). -/
theorem step_read_faults_iff (s : State) (addr : BitVec 12) (n : Nat) (rest : List Event) :
    (∃ e, step (s.withEnv (.read addr n :: rest)) = .fault (.busError e)) ↔
      ¬∃ w, (s.withEnv rest).memRead addr n = .ok w := by
  rw [step_cons, perform]
  cases h : (s.withEnv rest).memRead addr n with
  | ok w => simp [hostRead_ok _ _ _ _ h]
  | error e => simp [hostRead_error _ _ _ _ h]

/-- The step of a write faults exactly where the port does not accept it (20_memory.md R61). -/
theorem step_write_faults_iff (s : State) (addr : BitVec 12) (n : Nat) (v : Word) (rest : List Event) :
    (∃ e, step (s.withEnv (.write addr n v :: rest)) = .fault (.busError e)) ↔
      ¬∃ u, (s.withEnv rest).memWrite addr n v = .ok u := by
  rw [step_cons, perform]
  cases h : (s.withEnv rest).memWrite addr n v with
  | ok u => simp [hostWrite_ok _ _ _ _ _ h]
  | error e => simp [hostWrite_error _ _ _ _ _ h]

/-- Settles O46: a transaction faults where it is not accepted, and the offsets that the map does not find are the
reserved ones. -/
theorem busErrorInExactlyFiveCases : Obligations.BusErrorInExactlyFiveCases := by
  intro s addr n v rest
  dsimp only
  rw [step_read_faults_iff, step_write_faults_iff, State.memRead_accepted_iff, State.memWrite_accepted_iff,
    State.withEnv_cfg, State.withEnv_status, ne_eq, target_eq_none_iff]
  constructor <;> simp only [not_and_or, not_or, Classical.not_imp, not_not, ne_eq, or_assoc]

/-! ## What a step can do, resets apart (R230) -/

/-- The step's move is a reset, by the reset input or by SRST, and `t` is at the reset values. -/
def ResetBetween (s t : State) : Prop :=
  (∃ rest, s.env = .reset :: rest ∧ AtResetValues t) ∨
    ∃ v rest, s.env = .write 0x008 4 v :: rest ∧ v.getLsbD 1 = true ∧ AtResetValues t

/-- The move is the engine's: none is listed, or it is. -/
def EngineMoves (s : State) : Prop := s.env = [] ∨ ∃ rest, s.env = .engine :: rest

/-- The parameters, STATUS, KEYLEN and the buffers are as before. -/
structure KeepsRegisters (s t : State) : Prop where
  cfg : t.cfg = s.cfg
  status : t.status = s.status
  keylen : t.keylen = s.keylen
  mem : t.mem = s.mem

/-- `t` is reached by a write, of a register other than CTRL, that an idle OTPE accepts. -/
def IdleWrite (s t : State) : Prop :=
  s.status.busy = false ∧ ∃ g a v rest, g ≠ .ctrl ∧ (g = .cmd → s.status.fatal = false) ∧
    t = ((s.withEnv rest).writeTarget g a v).withReply .okay

/-- A delivery changes RNGQ alone. -/
theorem State.rngDeliver_keeps (s : State) (d : RngDelivery) : KeepsRegisters s (s.rngDeliver d) := by
  by_cases hq : s.rngq = .pending
  · rw [State.rngDeliver_of_pending d hq]
    exact ⟨rfl, rfl, rfl, rfl⟩
  · rw [State.rngDeliver_of_not_pending d hq]
    exact ⟨rfl, rfl, rfl, rfl⟩

/-- An accepted access that reaches CTRL is one of CTRL's whole word. -/
theorem eq_ctrl_access {c : Config} {addr : BitVec 12} {n : Nat} (hw : widthOk addr n = true)
    (ht : target c addr.toNat = some .ctrl) : addr = 0x008 ∧ n = 4 := by
  obtain ⟨hn, ha⟩ := (widthOk_iff addr n).1 hw
  exact ⟨BitVec.eq_of_toNat_eq (reachedAt_of_target ht ha), hn⟩

/-- An accepted write resets, stores IE, or reaches another register of an idle OTPE. -/
theorem step_write_cases {s u : State} {addr : BitVec 12} {n : Nat} {v : Word} {rest : List Event}
    (he : s.env = .write addr n v :: rest) (hw : (s.withEnv rest).memWrite addr n v = .ok u) :
    ResetBetween s (u.withReply .okay) ∨ KeepsRegisters s (u.withReply .okay) ∨ IdleWrite s (u.withReply .okay) := by
  obtain ⟨hwidth, g, ht, hbusy, -, hfatal, rfl⟩ := (State.memWrite_ok _ addr n v u).1 hw
  by_cases hg : g = .ctrl
  · subst hg
    obtain ⟨rfl, rfl⟩ := eq_ctrl_access hwidth ht
    rw [State.writeTarget]
    cases hv : v.getLsbD 1 with
    | true =>
      rw [State.writeCtrl_of_srst _ hv, State.resetAll_withReply]
      exact .inl (.inr ⟨v, rest, he, hv, State.resetAll_atResetValues _⟩)
    | false =>
      rw [State.writeCtrl_of_not_srst _ hv]
      exact .inr (.inl ⟨rfl, rfl, rfl, rfl⟩)
  · exact .inr (.inr ⟨eq_false_of_ne_true (mt hbusy hg), g, addr.toNat, v, rest, hg, hfatal, rfl⟩)

/-- All that a step can do: reset, the engine's move, a move that keeps STATUS, KEYLEN and the buffers,
or a write while idle. -/
theorem step_reset_cases {s t : State} (h : step s = .next t) :
    ResetBetween s t ∨ (EngineMoves s ∧ ∃ rest, engineStep (s.withEnv rest) = .next t) ∨ KeepsRegisters s t ∨
      IdleWrite s t := by
  rcases step_cases s t h with ⟨he, hengine⟩ | ⟨e, rest, he, hmove⟩
  · exact .inr (.inl ⟨.inl he, [], by rwa [← he, s.withEnv_self]⟩)
  · rcases hmove with ⟨rfl, hengine⟩ | ⟨_, _, w, -, -, rfl⟩ | ⟨addr, n, v, u, rfl, hw, rfl⟩ | ⟨d, -, rfl⟩ |
      ⟨_, -, rfl⟩ | ⟨rfl, rfl⟩
    · exact .inr (.inl ⟨.inr ⟨rest, he⟩, rest, hengine⟩)
    · exact .inr (.inr (.inl ⟨rfl, rfl, rfl, rfl⟩))
    · exact (step_write_cases he hw).imp_right .inr
    · obtain ⟨hcfg, hstatus, hkeylen, hmem⟩ := (s.withEnv rest).rngDeliver_keeps d
      exact .inr (.inr (.inl ⟨hcfg, hstatus, hkeylen, hmem⟩))
    · exact .inr (.inr (.inl ⟨rfl, rfl, rfl, rfl⟩))
    · exact .inl (.inl ⟨rest, he, (s.withEnv rest).resetAll_atResetValues⟩)

/-! ## FATAL is a latch (R229) -/

/-- FATAL, ERR and BUSY are as before. -/
structure KeepsError (s t : State) : Prop where
  fatal : t.status.fatal = s.status.fatal
  err : t.status.err = s.status.err
  busy : t.status.busy = s.status.busy

/-- A STATUS that is kept keeps its error. -/
theorem KeepsError.of_status {s t : State} (h : t.status = s.status) : KeepsError s t := by
  constructor <;> rw [h]

/-- A write to STATUS can clear DONE alone (10_state.md R25). -/
theorem State.writeStatus_keepsError (s : State) (v : Word) : KeepsError s (s.writeStatus v) := by
  cases hv : v.getLsbD 1 with
  | true =>
    rw [State.writeStatus_of_bit1 s hv]
    exact ⟨rfl, rfl, rfl⟩
  | false =>
    rw [State.writeStatus_of_not_bit1 s hv]
    exact .of_status rfl

/-- A write to a register other than CTRL and CMD keeps the error. -/
theorem State.writeTarget_keepsError (s : State) {g : Target} (a : Nat) (v : Word) (hctrl : g ≠ .ctrl)
    (hcmd : g ≠ .cmd) : KeepsError s (s.writeTarget g a v) := by
  cases g with
  | ctrl => exact absurd rfl hctrl
  | cmd => exact absurd rfl hcmd
  | status => exact s.writeStatus_keepsError v
  | _ => exact .of_status rfl

/-- A step from an idle, fatal state that does not reset keeps the error. -/
theorem keepsError_of_fatal {s t : State} (hb : s.status.busy = false) (hf : s.status.fatal = true)
    (h : step s = .next t) : ResetBetween s t ∨ KeepsError s t := by
  rcases step_reset_cases h with hreset | ⟨-, rest, hengine⟩ | hkeeps | ⟨-, g, a, v, rest, hctrl, hcmd, rfl⟩
  · exact .inl hreset
  · have hstays := engineStep_stays (s.withEnv rest) (State.engineReady_of_not_busy hb)
    cases hstays.symm.trans hengine
    exact .inr (.of_status rfl)
  · exact .inr (.of_status hkeeps.status)
  · have hne : g ≠ .cmd := fun hg => absurd hf (ne_true_of_eq_false (hcmd hg))
    obtain ⟨hfatal, herr, hbusy⟩ := (s.withEnv rest).writeTarget_keepsError a v hctrl hne
    exact .inr ⟨hfatal, herr, hbusy⟩

/-- Settles O56: in the invariant FATAL excludes BUSY, so the engine stays and the port refuses CMD; no other move but a
reset writes FATAL or ERR. -/
theorem fatalStaysUntilReset : Obligations.FatalStaysUntilReset := by
  intro s hinv hf
  obtain ⟨-, -, ⟨-, hidle, -⟩, -, -⟩ := hinv
  have hb : s.status.busy = false := hidle hf
  refine ⟨fun t ht => ?_, fun w rest => ?_⟩
  · rcases keepsError_of_fatal hb hf ht with hreset | ⟨hfatal, herr, hbusy⟩
    · exact .inr hreset
    · exact .inl ⟨hfatal.trans hf, herr, hbusy.trans hb⟩
  · exact step_write_error s 0x010 4 w rest .fatal ((s.withEnv rest).memWrite_cmd_fatal w hb hf)

end Sys2Proof.Machine
end

section
/-!
PROOFS. The family of 70_reset_and_hazards.md: a soft reset (R251, R252), KEY while a command runs (R257), completion
(R264), and the traces (R265, R266).
-/

namespace Sys2Proof.Machine

/-! ## A soft reset (R251, R252) -/

/-- After a reset no request is pending, so a delivery is ignored. -/
theorem State.rngDeliver_resetAll (s : State) (d : RngDelivery) : s.resetAll.rngDeliver d = s.resetAll :=
  State.rngDeliver_of_not_pending d nofun

/-- Settles O5: a CTRL write with bit 1 set is `State.resetAll`, as the reset input is, and its reply is recorded. -/
theorem softResetIsHardReset : Obligations.SoftResetIsHardReset := by
  intro s v rest hv
  refine ⟨((s.withEnv rest).withReply .okay).resetAll, (s.withEnv rest).resetAll, ?_, step_cons s .reset rest, rfl, rfl,
    rfl, rfl, fun d more => ⟨?_, rfl⟩⟩
  · rw [step_write_ctrl, State.writeCtrl_of_srst _ hv, State.resetAll_withReply]
  · exact congrArg Host.Outcome.next (State.rngDeliver_resetAll (((s.withEnv rest).withReply .okay).withEnv more) d)

/-! ## KEY while a command runs (R257) -/

/-- KEYLEN and KEY are among the registers kept. -/
theorem KeepsRegisters.key {s t : State} (h : KeepsRegisters s t) : KeepsKey s t :=
  ⟨h.keylen, s.buf_congr t .key h.mem h.cfg⟩

/-- WIPE has completed and left KEY and KEYLEN zero (46_system.md R213). -/
def WipeCompleted (t : State) : Prop :=
  t.status.busy = false ∧ t.status.done = true ∧ t.keylen = 0 ∧ IsZero t .key

/-- The run of WIPE. -/
theorem runWipe_completed (s : State) : WipeCompleted (runOf .wipe s).st := by
  rw [runOf, runWipe_eq]
  exact ⟨rfl, rfl, s.wipeAll_keylen, (s.wipeAll_isZero .key).finish true errNone⟩

/-- The engine's move keeps the key, or completes WIPE. -/
theorem engineStep_key {s t : State} (h : engineStep s = .next t) :
    KeepsKey s t ∨ (decode s.seq.cmd = .ok .wipe ∧ WipeCompleted t) := by
  rcases engineStep_cases s t h with ⟨-, rfl⟩ | ⟨-, -, rfl⟩ | ⟨-, i, hd, ht, ⟨-, -, hwaits⟩ | hends⟩
  · exact .inl (.refl t)
  · exact .inl ⟨rfl, rfl⟩
  · rw [hwaits]
    exact .inl (.refl s)
  · by_cases hi : i = .wipe
    · subst hi ht
      exact .inr ⟨hd, runWipe_completed s⟩
    · exact .inl (hends.keepsKey hi)

/-- Settles O53: a busy OTPE accepts no write but CTRL's, and of the engine's moves WIPE's completion alone writes KEY. -/
theorem keyImmutableWhileBusy : Obligations.KeyImmutableWhileBusy := by
  intro s t hb ht
  have hkept (hk : KeepsKey s t) : t.keylen = s.keylen ∧ t.buf .key = s.buf .key := ⟨hk.keylen, hk.key⟩
  rcases step_reset_cases ht with (hreset | hsrst) | ⟨hmoves, rest, hengine⟩ | hkeeps | ⟨hidle, -⟩
  · exact .inr (.inl hreset)
  · exact .inr (.inr (.inl hsrst))
  · rcases engineStep_key hengine with hk | ⟨hd, hwiped⟩
    · exact .inl (hkept ⟨hk.keylen, hk.key⟩)
    · exact .inr (.inr (.inr ⟨hmoves, hd, hwiped⟩))
  · exact .inl (hkept hkeeps.key)
  · exact absurd hb (ne_true_of_eq_false hidle)

/-! ## Completion (R264) -/

/-- In the invariant the enabled engine's move clears BUSY and sets DONE. -/
theorem run_engine_completes {s : State} (h : s.Inv) (hr : s.engineReady = true) :
    ∃ t, Host.Core.run core 1 (s.withEnv [.engine]) = .next t ∧ t.status.busy = false ∧ t.status.done = true := by
  obtain ⟨t, ht⟩ := exists_engineStep (s.withEnv [])
  obtain ⟨u, ok, e, -, rfl⟩ := engineStep_finishes (State.inv_withEnv h []) hr ht
  exact ⟨_, (run_next 0 _ _ ((step_engine_cons s []).trans ht)).trans (run_zero _), rfl, rfl⟩

/-- The answer to the request of GEN or DRAW makes the engine ready. -/
theorem State.deliver_engineReady {s : State} (hb : s.status.busy = true) (hph : s.seq.ph = .rngwait)
    (hq : s.rngq = .pending) (d : RngDelivery) : (s.rngDeliver d).engineReady = true := by
  rw [State.rngDeliver_of_pending d hq]
  exact (State.engineReady_iff _).2 ⟨hb, .inr ⟨hph, d.answer, rfl⟩⟩

/-- Settles O13: issue and delivery keep the invariant and leave the engine ready, and its move completes. -/
theorem issuedCommandCompletes : Obligations.IssuedCommandCompletes := by
  intro s w d h hb hf
  have hissued : ((s.issue w).withReply .okay).Inv := State.inv_withReply (State.issue_inv h w hb hf) .okay
  refine ⟨fun hdraws => ?_, fun hdraws => ?_⟩
  · rw [run_issue _ _ hb hf]
    exact run_engine_completes hissued (State.issue_engineReady s hdraws)
  · have hq : ((s.issue w).withReply .okay).rngq = .pending := if_pos hdraws
    have hph : ((s.issue w).withReply .okay).seq.ph = .rngwait := if_pos hdraws
    rw [run_issue _ _ hb hf, run_deliver _ _ hq, ← State.rngDeliver_of_pending d hq]
    exact run_engine_completes (State.rngDeliver_inv hissued d).1 (State.deliver_engineReady rfl hph hq d)

/-! ## Traces (R265) -/

/-- The class of KEYLEN is `over` where HASH finds it too long. -/
theorem State.facts_key_over_iff (s : State) : s.facts.key = .over ↔ s.keyTooLong = true := by
  simp only [State.facts, keyClass, State.keyTooLong, decide_eq_true_eq]
  split_ifs <;> simp <;> omega

/-- The class of KEYLEN is `long` where the key is hashed first. -/
theorem keyClass_long_iff (c : Config) (n : Nat) : keyClass c n = .long ↔ 64 < n ∧ n ≤ c.keyMax := by
  unfold keyClass
  split_ifs <;> simp <;> omega

/-- The table's key check is that of the commands. -/
theorem State.facts_keyOk (s : State) : s.facts.keyOk = s.keyOk := by
  rw [Bool.eq_iff_iff, s.keyOk_iff]
  simp only [Facts.keyOk, State.facts, keyClass, Bool.or_eq_true]
  split_ifs <;> simp <;> omega

/-- Under a legal key the table's labels of an HMAC are those performed. -/
theorem State.hmacTrace_facts {s : State} (hk : s.keyOk = true) : hmacTrace s.facts = hmacLabels s.keylen.toNat := by
  obtain ⟨-, hmax⟩ := s.keyOk_iff.1 hk
  have hlong : s.facts.key = .long ↔ 64 < s.keylen.toNat :=
    (keyClass_long_iff s.cfg _).trans (and_iff_left hmax)
  simp only [hmacTrace, hmacLabels, hlong]
  rfl

/-- MAC's row of the table (R265). -/
theorem runMac_trace (s : State) : (runMac s).trace = traceTable .mac s.facts := by
  rw [traceTable, s.facts_keyOk]
  cases hk : s.keyOk with
  | false =>
    rw [runMac_bad s hk]
    rfl
  | true =>
    rw [runMac_ok s hk, State.hmacTrace_facts hk]
    simp

/-- HASH's row of the table (R265). -/
theorem runHash_trace (s : State) : (runHash s).trace = traceTable .hash s.facts := by
  simp only [traceTable, s.facts_key_over_iff]
  cases hk : s.keyTooLong with
  | false =>
    rw [runHash_ok s hk]
    simp [State.facts]
  | true =>
    rw [runHash_bad s hk]
    rfl

/-- DRAW's row of the table, by the kind of answer (R265). -/
theorem runDraw_trace (s : State) : (runDraw s).trace = traceTable .draw s.facts := by
  have hanswer : s.facts.answer = s.rngq.kind := rfl
  rw [traceTable, hanswer]
  rcases hq : s.rngq with _ | _ | ⟨⟨r⟩ | _⟩
  · rw [runDraw_wait s (by rw [hq]; rfl)]
    rfl
  · rw [runDraw_wait s (by rw [hq]; rfl)]
    rfl
  · rw [runDraw_ok s r hq]
    rfl
  · rw [runDraw_fail s hq]
    rfl

/-- GEN's row of the table, by the kind of answer and the key check (R265). -/
theorem runGen_trace (s : State) : (runGen s).trace = traceTable .gen s.facts := by
  have hanswer : s.facts.answer = s.rngq.kind := rfl
  rw [traceTable, hanswer, genTail, s.facts_keyOk]
  rcases hq : s.rngq with _ | _ | ⟨⟨r⟩ | _⟩
  · rw [runGen_wait s (by rw [hq]; rfl)]
    rfl
  · rw [runGen_wait s (by rw [hq]; rfl)]
    rfl
  · cases hk : s.keyOk with
    | false =>
      rw [runGen_badKey s r hq hk]
      rfl
    | true =>
      rw [runGen_ok s r hq hk, State.hmacTrace_facts hk]
      simp [RngQ.kind]
  · rw [runGen_fail s hq]
    rfl

/-- VFY's row of the table, by the structural verdict and the key check (R265). -/
theorem runVfy_trace (s : State) : (runVfy s).trace = traceTable .vfy s.facts := by
  have hvalid : s.facts.valid = s.decoded.2 := rfl
  rw [traceTable, hvalid, vfyTail, s.facts_keyOk]
  cases hv : s.decoded.2 with
  | false =>
    rw [runVfy_malformed s hv]
    rfl
  | true =>
    cases hk : s.keyOk with
    | false =>
      rw [runVfy_badKey s hv hk]
      rfl
    | true =>
      rw [runVfy_full s hv hk, State.hmacTrace_facts hk]
      simp

/-- Every command's run performs its row of the table (R265). -/
theorem runOf_trace (i : Instr) (s : State) : (runOf i s).trace = traceTable i s.facts := by
  cases i with
  | gen => exact runGen_trace s
  | vfy => exact runVfy_trace s
  | mac => exact runMac_trace s
  | hash => exact runHash_trace s
  | draw => exact runDraw_trace s
  | _ => rfl

/-- Settles O57: one row per command. -/
theorem traceFollowsTable : Obligations.TraceFollowsTable :=
  ⟨fun i s => ⟨exec_runOf i s, runOf_trace i s⟩, fun _ => rfl⟩

/-! ## What the traces show (R266, R200) -/

/-- The labels of an HMAC show `N(KEYLEN)` only of a long key. -/
theorem hmacTrace_congr {f g : Facts} (hkey : f.key = g.key) (hblocks : f.key = .long → f.blocks = g.blocks) :
    hmacTrace f = hmacTrace g := by
  simp only [hmacTrace, ← hkey]
  split
  · next hlong => rw [hblocks hlong]
  · rfl

/-- The rows of all commands but HASH show `N(KEYLEN)` in the labels of an HMAC alone. -/
theorem traceTable_congr {i : Instr} {f g : Facts} (hi : i ≠ .hash) (hvalid : f.valid = g.valid)
    (hkey : f.key = g.key) (hanswer : f.answer = g.answer) (hblocks : f.key = .long → f.blocks = g.blocks) :
    traceTable i f = traceTable i g := by
  have hkeyOk : f.keyOk = g.keyOk := by rw [Facts.keyOk, Facts.keyOk, hkey]
  have hhmac := hmacTrace_congr hkey hblocks
  cases i with
  | hash => exact absurd rfl hi
  | gen => simp only [traceTable, genTail, hanswer, hkeyOk, hhmac]
  | vfy => simp only [traceTable, vfyTail, hvalid, hkeyOk, hhmac]
  | mac => simp only [traceTable, hkeyOk, hhmac]
  | draw => simp only [traceTable, hanswer]
  | _ => rfl

/-- The labels of a VFY that comes to the gate show KEYLEN alone. -/
theorem runVfy_trace_congr {s s' : State} (hv : s.decoded.2 = true) (hv' : s'.decoded.2 = true)
    (hk : s.keyOk = true) (hk' : s'.keyOk = true) (hlen : s.keylen = s'.keylen) :
    (runVfy s).trace = (runVfy s').trace := by
  rw [runVfy_full s hv hk, runVfy_full s' hv' hk', hlen]

/-- States whose facts give the same row have the same labels. -/
theorem runOf_trace_congr {i : Instr} {s s' : State} (h : traceTable i s.facts = traceTable i s'.facts) :
    (runOf i s).trace = (runOf i s').trace := by
  rw [runOf_trace, runOf_trace, h]

/-- Settles O58: the traces are rows of the table, so states that agree in what a row shows have the same labels, and
labels have fixed costs. -/
theorem durationHidesSecrets : Obligations.DurationHidesSecrets := by
  refine ⟨fun i s s' k hfacts => ?_, fun i s s' k hi hvalid hkey hanswer hblocks => ?_,
    fun s s' k hv hv' hk hk' hlen => congrArg (duration k) (runVfy_trace_congr hv hv' hk hk' hlen),
    fun s s' k hv hv' => ?_⟩
  · have htrace := runOf_trace_congr (congrArg (traceTable i) hfacts)
    exact ⟨htrace, congrArg (duration k) htrace⟩
  · have htrace := runOf_trace_congr (traceTable_congr hi hvalid hkey hanswer hblocks)
    exact ⟨htrace, congrArg (duration k) htrace⟩
  · rw [runVfy_malformed s hv, runVfy_malformed s' hv']

end Sys2Proof.Machine
end
